-- ==== Sys2Proof/Word.lean ====
section
/-! DEFINITION. The words of the block: the byte, and a memory as plain data. -/
namespace Sys2Proof

/-- The unit of the input stream (R24: "the unit of input is the byte"). -/
abbrev Byte := BitVec 8

/-- A memory as plain data: (address, byte) cells, the addresses strictly rising (`Machine.memoryWf`).
An address that is not listed holds no value. -/
abbrev Memory := List Host.Cell

end Sys2Proof
end

