-- ==== Sys2Proof/Config.lean ====
section
/-! DEFINITION. What an implementation fixes: the three external tables (00_scope.md section 3, R6). The block's own
behaviour reads none of them. -/
namespace Sys2Proof

/-- `SF_HZ`: the frequency in Hz of a sampling-frequency index (R46, D20). A parameter: no body. -/
opaque Config.sfHz : BitVec 4 → Nat

/-- `AOT_MAP`: the audio object type of the 2-bit profile field (R44, D19). A parameter: no body. -/
opaque Config.aotMap : BitVec 2 → Nat

/-- `CH_LAYOUT`: the speaker layout of a channel configuration, by an implementation's own number for it
(R48, D21). A parameter: no body. -/
opaque Config.chLayout : BitVec 3 → Nat

/-- The standard table for `SF_HZ`, "to use when no other is given" (R46). PRESUMED: the spec has it from general
knowledge (G6). Indices 13 to 15 have no entry. -/
def Config.standardSfHz (index : BitVec 4) : Option Nat :=
  [96000, 88200, 64000, 48000, 44100, 32000, 24000, 22050, 16000, 12000, 11025, 8000, 7350][index.toNat]?

/-- The usual `AOT_MAP`: object type = value + 1 (R44). PRESUMED: general knowledge (G5). -/
def Config.usualAotMap (profile : BitVec 2) : Nat := profile.toNat + 1

/-- The standard channel counts: 1 to 6 for 1 to 6, and 8 for 7 (R48). PRESUMED: general knowledge (G7). Value 0 has
no layout here: it is "defined by program-config element". -/
def Config.standardChannels (channelConfiguration : BitVec 3) : Option Nat :=
  [none, some 1, some 2, some 3, some 4, some 5, some 6, some 8][channelConfiguration.toNat]?.join

/-- What `mpeg_version` means (R42). PRESUMED: general knowledge (G4); no rule reads the meaning. -/
inductive Config.MpegVariant where
  | mpeg4
  | mpeg2
deriving DecidableEq, Repr

/-- Value 0 means MPEG-4 and value 1 means MPEG-2 (R42). PRESUMED: general knowledge (G4). -/
def Config.mpegVariant (mpegVersion : Bool) : Config.MpegVariant := if mpegVersion then .mpeg2 else .mpeg4

end Sys2Proof
end

