-- ==== Sys2Proof/Syntax.lean ====
section
/-! DEFINITION. The block's instructions: one constructor for each row of spec/opcode_table.json. -/
namespace Sys2Proof

/-- The fields of a header after the sync word, without `protection_absent` (30_encoding.md R31, in
stream order). -/
structure HeaderFields where
  mpegVersion : Bool
  layer : BitVec 2
  profile : BitVec 2
  sfIndex : BitVec 4
  privateBit : Bool
  channelConfiguration : BitVec 3
  originalCopy : Bool
  home : Bool
  copyrightBit : Bool
  copyrightStart : Bool
  frameLength : BitVec 13
  bufferFullness : BitVec 11
  rawBlocks : BitVec 2
deriving DecidableEq, Repr

/-- One constructor per row of the opcode table. The first four are the host command word (R36, R37);
the next seven are the windows of the input stream (R31, R32); the last two are the classes of the
buffer-fullness field (R77). -/
inductive Instr where
  /-- PUSH, LEN in bits 29:0 (R36, R56). -/
  | push (len : BitVec 30)
  /-- RESET, the word 0x40000000 (R36, R91). -/
  | reset
  /-- CMD_RESERVED: bit 31 is 1; `rest` is bits 30:0 (R37). -/
  | cmdReserved (rest : BitVec 31)
  /-- CMD_RESET_BADLEN: OP = 01 with LEN other than 0 (R37). -/
  | cmdResetBadlen (len : BitVec 30)
  /-- SYNC_CHECK: a byte pair that begins with the sync word; `low` is byte 1's low nibble (R40). -/
  | syncCheck (low : BitVec 4)
  /-- SYNC_MISS: any other byte pair; `sync` is the 12 bits observed (R61). -/
  | syncMiss (sync : BitVec 12) (low : BitVec 4)
  /-- ADTS_ERR_SF13: sf_index = 13; `high` is word bits 43:38, `low` is word bits 33:0 (R45). -/
  | adtsErrSf13 (high : BitVec 6) (low : BitVec 34)
  /-- ADTS_ERR_SF14_15: sf_index = {111, sfLow}; `high` and `low` as for sf_index 13 (R45). -/
  | adtsErrSf1415 (high : BitVec 6) (sfLow : BitVec 1) (low : BitVec 34)
  /-- ADTS_ERR_SHORT: frame_length below the header length (R51). -/
  | adtsErrShort (protectionAbsent : Bool) (f : HeaderFields)
  /-- ADTS_HDR7: a complete header without CRC (R31, R41). -/
  | adtsHdr7 (f : HeaderFields)
  /-- ADTS_HDR9: a complete header with CRC (R32, R41). -/
  | adtsHdr9 (f : HeaderFields) (crc : BitVec 16)
  /-- BF_VBR: the raw value 2047 (R77). -/
  | bfVbr
  /-- BF_CBR: any other raw value (R77). -/
  | bfCbr (level : BitVec 11)
deriving DecidableEq, Repr

/-- An encoded instruction in the format of its row: a command word (CMD32), the bytes at the start of
a window (PAIR16, ADTS56, ADTS7, ADTS9), or a raw buffer-fullness value (BF11). -/
inductive Code where
  | command (word : BitVec 32)
  | window (bytes : List Byte)
  | fullness (raw : BitVec 11)
deriving DecidableEq, Repr

end Sys2Proof
end

