-- ==== Sys2Proof/WellFormed.lean ====
section
/-! DEFINITION. Which terms of Instr an encoding can give: the conditions of the opcode table's rows. -/
namespace Sys2Proof

/-- The conditions a row of the opcode table puts on its operands. -/
def Instr.wf : Instr → Bool
  | .push _ => true
  | .reset => true
  | .cmdReserved _ => true
  | .cmdResetBadlen len => len != 0
  | .syncCheck _ => true
  | .syncMiss sync _ => sync != 0xFFF
  | .adtsErrSf13 _ _ => true
  | .adtsErrSf1415 _ _ _ => true
  | .adtsErrShort protectionAbsent f =>
      decide (f.sfIndex.toNat ≤ 12) && decide (f.frameLength.toNat < if protectionAbsent then 7 else 9)
  | .adtsHdr7 f => decide (f.sfIndex.toNat ≤ 12) && decide (7 ≤ f.frameLength.toNat)
  | .adtsHdr9 f _ => decide (f.sfIndex.toNat ≤ 12) && decide (9 ≤ f.frameLength.toNat)
  | .bfVbr => true
  | .bfCbr level => level != 2047

end Sys2Proof
end

