-- ==== Sys2Proof/Decode.lean ====
section
/-! DEFINITION. Decoding and encoding: command words, windows of the input stream, buffer-fullness values. -/
namespace Sys2Proof

/-! ## The fields of a header (R31, R34): `h1` to `h6` are header bytes 1 to 6 -/

/-- `syncword = {h[0][7:0], h[1][7:4]}` (R34). -/
def syncBits (b0 b1 : Byte) : BitVec 12 := b0 ++ b1.extractLsb' 4 4

/-- SYNC_CHECK (R40): the window starts with the sync word. -/
def syncCheck (b0 b1 : Byte) : Bool := syncBits b0 b1 == 0xFFF

/-- `protection_absent = h[1][0]` (R34, R43). -/
def protectionBit (h1 : Byte) : Bool := h1.getLsbD 0

/-- The header length L: 7 without CRC, 9 with it (R33). -/
def headerLength (protectionAbsent : Bool) : Nat := if protectionAbsent then 7 else 9

/-- The field values of header bytes 1 to 6 (R34). -/
def fieldsOf (h1 h2 h3 h4 h5 h6 : Byte) : HeaderFields where
  mpegVersion := h1.getLsbD 3
  layer := h1.extractLsb' 1 2
  profile := h2.extractLsb' 6 2
  sfIndex := h2.extractLsb' 2 4
  privateBit := h2.getLsbD 1
  channelConfiguration := h2.extractLsb' 0 1 ++ h3.extractLsb' 6 2
  originalCopy := h3.getLsbD 5
  home := h3.getLsbD 4
  copyrightBit := h3.getLsbD 3
  copyrightStart := h3.getLsbD 2
  frameLength := h3.extractLsb' 0 2 ++ h4 ++ h5.extractLsb' 5 3
  bufferFullness := h5.extractLsb' 0 5 ++ h6.extractLsb' 2 6
  rawBlocks := h6.extractLsb' 0 2

/-- Word bits 43:38 of a 56-bit header: byte 1 bits 3:0 and byte 2 bits 7:6 (R31). -/
def highBits (h1 h2 : Byte) : BitVec 6 := h1.extractLsb' 0 4 ++ h2.extractLsb' 6 2

/-- Word bits 33:0 of a 56-bit header: byte 2 bits 1:0 and bytes 3 to 6 (R31). -/
def lowBits (h2 h3 h4 h5 h6 : Byte) : BitVec 34 := h2.extractLsb' 0 2 ++ h3 ++ h4 ++ h5 ++ h6

/-! ## Decoding -/

/-- The command word (R36, R37). Every word is one of the four rows. -/
def decodeCommand (w : BitVec 32) : Instr :=
  if w.getLsbD 31 then .cmdReserved (w.extractLsb' 0 31)
  else if w.getLsbD 30 then
    if w.extractLsb' 0 30 = 0 then .reset else .cmdResetBadlen (w.extractLsb' 0 30)
  else .push (w.extractLsb' 0 30)

/-- Which row a complete, sync-checked header is: the checks in the order of R41, `good` if all pass. -/
def headerRow (h1 h2 h3 h4 h5 h6 : Byte) (good : Instr) : Instr :=
  let f := fieldsOf h1 h2 h3 h4 h5 h6
  if f.sfIndex = 13 then .adtsErrSf13 (highBits h1 h2) (lowBits h2 h3 h4 h5 h6)
  else if f.sfIndex.extractLsb' 1 3 = 7 then
    .adtsErrSf1415 (highBits h1 h2) (f.sfIndex.extractLsb' 0 1) (lowBits h2 h3 h4 h5 h6)
  else if f.frameLength.toNat < headerLength (protectionBit h1) then .adtsErrShort (protectionBit h1) f
  else good

/-- The instruction at the start of a window of the stream, the bytes from the cursor on. Two bytes are needed
before anything can be said (R60), and all L bytes before a header is decoded (R62): a right sync word whose header is
not complete is SYNC_CHECK. -/
def decodeWindow : List Byte → Option Instr
  | h0 :: h1 :: t =>
    if syncCheck h0 h1 then
      match t with
      | h2 :: h3 :: h4 :: h5 :: h6 :: u =>
        if protectionBit h1 then
          some (headerRow h1 h2 h3 h4 h5 h6 (.adtsHdr7 (fieldsOf h1 h2 h3 h4 h5 h6)))
        else
          match u with
          | c0 :: c1 :: _ =>
            some (headerRow h1 h2 h3 h4 h5 h6 (.adtsHdr9 (fieldsOf h1 h2 h3 h4 h5 h6) (c0 ++ c1)))
          | _ => some (.syncCheck (h1.extractLsb' 0 4))
      | _ => some (.syncCheck (h1.extractLsb' 0 4))
    else some (.syncMiss (syncBits h0 h1) (h1.extractLsb' 0 4))
  | _ => none

/-- A raw buffer-fullness value (R77). -/
def decodeFullness (raw : BitVec 11) : Instr := if raw = 2047 then .bfVbr else .bfCbr raw

/-- Why a code is no instruction. -/
inductive Reject where
  /-- Fewer than the two bytes SYNC_CHECK needs (R60). -/
  | windowShorterThanTwoBytes
deriving DecidableEq, Repr

/-- The decoder, total on every code. -/
def decode : Code → Except Reject Instr
  | .command w => .ok (decodeCommand w)
  | .window bytes =>
    match decodeWindow bytes with
    | some i => .ok i
    | none => .error .windowShorterThanTwoBytes
  | .fullness raw => .ok (decodeFullness raw)

/-! ## Encoding -/

/-- Header byte 1 (R31): the sync word's low nibble, ID, layer, protection_absent. -/
def byte1 (protectionAbsent : Bool) (f : HeaderFields) : Byte :=
  0xF#4 ++ BitVec.ofBool f.mpegVersion ++ f.layer ++ BitVec.ofBool protectionAbsent

/-- Header byte 2 (R31): profile, sf_index, private_bit, channel_configuration's high bit. -/
def byte2 (f : HeaderFields) : Byte :=
  f.profile ++ f.sfIndex ++ BitVec.ofBool f.privateBit ++ f.channelConfiguration.extractLsb' 2 1

/-- Header byte 3 (R31): channel_configuration's low bits, original_copy, home, the copyright bits, frame_length's
two high bits. -/
def byte3 (f : HeaderFields) : Byte :=
  f.channelConfiguration.extractLsb' 0 2 ++ BitVec.ofBool f.originalCopy ++ BitVec.ofBool f.home
    ++ BitVec.ofBool f.copyrightBit ++ BitVec.ofBool f.copyrightStart ++ f.frameLength.extractLsb' 11 2

/-- Header byte 4 (R31): frame_length bits 10:3. -/
def byte4 (f : HeaderFields) : Byte := f.frameLength.extractLsb' 3 8

/-- Header byte 5 (R31): frame_length bits 2:0, buffer_fullness bits 10:6. -/
def byte5 (f : HeaderFields) : Byte := f.frameLength.extractLsb' 0 3 ++ f.bufferFullness.extractLsb' 6 5

/-- Header byte 6 (R31): buffer_fullness bits 5:0, number_of_raw_data_blocks. -/
def byte6 (f : HeaderFields) : Byte := f.bufferFullness.extractLsb' 0 6 ++ f.rawBlocks

/-- The 7 bytes of a header without its CRC (R31). -/
def headerBytes (protectionAbsent : Bool) (f : HeaderFields) : List Byte :=
  [0xFF, byte1 protectionAbsent f, byte2 f, byte3 f, byte4 f, byte5 f, byte6 f]

/-- The 7 bytes of a header given as its word bits 43:38, its sf_index and its word bits 33:0 (R31). -/
def rawHeaderBytes (high : BitVec 6) (sfIndex : BitVec 4) (low : BitVec 34) : List Byte :=
  [0xFF, 0xF#4 ++ high.extractLsb' 2 4, high.extractLsb' 0 2 ++ sfIndex ++ low.extractLsb' 32 2,
    low.extractLsb' 24 8, low.extractLsb' 16 8, low.extractLsb' 8 8, low.extractLsb' 0 8]

/-- The encoder (R31, R32, R36, R77). A header row's two CRC bytes are part of its code only in ADTS_HDR9. -/
def encode : Instr → Code
  | .push len => .command (0#2 ++ len)
  | .reset => .command 0x40000000
  | .cmdReserved rest => .command (1#1 ++ rest)
  | .cmdResetBadlen len => .command (1#2 ++ len)
  | .syncCheck low => .window [0xFF, 0xF#4 ++ low]
  | .syncMiss sync low => .window [sync.extractLsb' 4 8, sync.extractLsb' 0 4 ++ low]
  | .adtsErrSf13 high low => .window (rawHeaderBytes high 13 low)
  | .adtsErrSf1415 high sfLow low => .window (rawHeaderBytes high (7#3 ++ sfLow) low)
  | .adtsErrShort protectionAbsent f => .window (headerBytes protectionAbsent f)
  | .adtsHdr7 f => .window (headerBytes true f)
  | .adtsHdr9 f crc => .window (headerBytes false f ++ [crc.extractLsb' 8 8, crc.extractLsb' 0 8])
  | .bfVbr => .fullness 2047
  | .bfCbr level => .fullness level

/-- The bytes that may follow an instruction's code in the stream without making the window another instruction:
SYNC_CHECK is the window that ends before its header is complete, and an error row of the 9-byte class needs the two CRC
bytes to be present (R62). Codes that are no window take no tail. -/
def Instr.tailOk : Instr → List Byte → Bool
  | .syncCheck low, tail => decide (tail.length + 2 < headerLength (low.getLsbD 0))
  | .syncMiss _ _, _ => true
  | .adtsErrSf13 high _, tail => decide (headerLength (high.getLsbD 2) ≤ tail.length + 7)
  | .adtsErrSf1415 high _ _, tail => decide (headerLength (high.getLsbD 2) ≤ tail.length + 7)
  | .adtsErrShort protectionAbsent _, tail => decide (headerLength protectionAbsent ≤ tail.length + 7)
  | .adtsHdr7 _, _ => true
  | .adtsHdr9 _ _, _ => true
  | .push _, tail => tail.isEmpty
  | .reset, tail => tail.isEmpty
  | .cmdReserved _, tail => tail.isEmpty
  | .cmdResetBadlen _, tail => tail.isEmpty
  | .bfVbr, tail => tail.isEmpty
  | .bfCbr _, tail => tail.isEmpty

/-- A code with further stream bytes after it. -/
def Code.followedBy : Code → List Byte → Code
  | .command w, _ => .command w
  | .window bytes, tail => .window (bytes ++ tail)
  | .fullness raw, _ => .fullness raw

/-! ## The opcode table's numbering -/

/-- The `n` bytes of a number, most significant first: the order in which the block receives them (R7, R23). -/
def bytesOf : Nat → Nat → List Byte
  | 0, _ => []
  | n + 1, w => BitVec.ofNat 8 (w / 2 ^ (8 * n)) :: bytesOf n w

/-- The code of a table word of `nbits` bits. The table numbers each row as one number whose least significant bit is
bit 0. CMD32 rows have 32 bits, PAIR16 rows 16, ADTS56 and ADTS7 rows 56, ADTS9 rows 72; the two CRC bytes a 56-bit row of
the 9-byte class needs are 0. BF11 rows have 11 bits, 16 in whole bytes, where they share their numbers with PAIR16: there
2047 is read as BF_VBR, the one row that fixes all its bits, and any other number as a byte pair. -/
def codeOfTableWord (nbits w : Nat) : Option Code :=
  if nbits = 32 then some (.command (BitVec.ofNat 32 w))
  else if nbits = 11 then some (.fullness (BitVec.ofNat 11 w))
  else if nbits = 16 then
    if w = 2047 then some (.fullness 2047) else some (.window (bytesOf 2 w))
  else if nbits = 56 then
    let bytes := bytesOf 7 w
    some (.window (if w / 2 ^ 40 % 2 = 1 then bytes else bytes ++ [0, 0]))
  else if nbits = 72 then some (.window (bytesOf 9 w))
  else none

/-- What the decoder reads from a table word. -/
def decodeTableWord (nbits w : Nat) : Option Instr :=
  match codeOfTableWord nbits w with
  | some c =>
    match decode c with
    | .ok i => some i
    | .error _ => none
  | none => none

end Sys2Proof
end

