-- ==== Sys2Proof/Machine/State.lean ====
section
/-! DEFINITION. The block's state as plain data, the records it emits, and why a step can stop. -/
namespace Sys2Proof.Machine

/-! ## Event records (30_encoding.md R38) -/

/-- The encoder configuration: the four fields of a CONFIG record (R13, R72). -/
structure EncoderConfig where
  mpegVersion : Bool
  audioObjectType : BitVec 2
  sfIndex : BitVec 4
  channelConfiguration : BitVec 3
deriving DecidableEq, Repr

/-- The one value of a field that is always ABSENT (R5, R38). -/
inductive Absent where
  | absent
deriving DecidableEq, Repr

/-- The classified buffer fullness (R77). -/
inductive BufferFullness where
  | variableBitRate
  | constantBitRate (level : BitVec 11)
deriving DecidableEq, Repr

/-- A decoded header: the fields of a FRAME_START record (R38, R41). `crc` is `none` for ABSENT (R54). -/
structure Header where
  mpegVersion : Bool
  protectionAbsent : Bool
  audioObjectType : BitVec 2
  sfIndex : BitVec 4
  privateBit : Bool
  channelConfiguration : BitVec 3
  isOriginal : Bool
  home : Bool
  copyrightIdentifier : Absent
  copyrightNumber : Absent
  frameLength : BitVec 13
  bufferFullness : BufferFullness
  numberOfBlocks : BitVec 3
  crc : Option (BitVec 16)
deriving DecidableEq, Repr

/-- A decode error: its kind with the detail R80 gives the kind. -/
inductive HeaderError where
  /-- The 12 bits observed are not 0xFFF. -/
  | invalidSyncWord (sync : BitVec 12)
  /-- sf_index is 13, 14 or 15. -/
  | reservedFieldValue (sfIndex : BitVec 4)
  /-- frame_length is below the header length L. -/
  | frameTooShort (frameLength : BitVec 13) (length : BitVec 4)
deriving DecidableEq, Repr

/-- A record of the event channel (R38). PAYLOAD's `offset` is an IBUF address of the PUSH that emitted it; ERROR's is
a stream offset (R81). -/
inductive Event where
  | config (c : EncoderConfig)
  | frameStart (h : Header)
  | payload (offset : BitVec 30) (length : BitVec 13)
  | frameComplete
  | error (e : HeaderError) (offset : BitVec 64)
deriving DecidableEq, Repr

/-- What a codec operation returns to its caller (R40, R41, R77). -/
inductive CodecResult where
  | sync (found : Bool)
  | header (h : Header)
  | error (e : HeaderError)
  | fullness (f : BufferFullness)
deriving DecidableEq, Repr

/-! ## The outside -/

/-- What the host or the consumer does. -/
inductive Act where
  /-- The host issues a command word; for PUSH the chunk is in `ibuf` (R36). -/
  | command (word : BitVec 32) (ibuf : Memory)
  /-- The host writes a byte of its input buffer (R30). -/
  | writeIbuf (addr : BitVec 30) (value : Byte)
  /-- The consumer reads byte `index` of the slice that the channel's record number `record` refers to (R26). -/
  | readPayload (record index : Nat)
  /-- The consumer takes `count` records of the running PUSH and never another one (R95). -/
  | takeOnly (count : Nat)
  /-- A direct call of the codec on a byte window (R55, D33). -/
  | window (bytes : List Byte)
  /-- A direct call of BF_CLASSIFY (R77). -/
  | classify (raw : BitVec 11)
deriving DecidableEq, Repr

/-- An act of the outside. `overlaps` says that it does not wait for the PUSH before it to complete: it happens while
that PUSH still runs (R86 item 2, R26, R30). -/
structure HostAction where
  overlaps : Bool
  act : Act
deriving DecidableEq, Repr

/-- A PUSH in progress (R57). Q is CARRY[0..FILL) followed by the chunk; `cursor` is p and `rest` is Q from p on.
FILL and TOTAL_IN keep their values until FINISH_PUSH, so F and base are read from them. -/
structure PushRun where
  /-- LEN, the chunk's length. -/
  len : BitVec 30
  /-- p. -/
  cursor : Nat
  /-- Q[p..). -/
  rest : List Byte
  /-- The number of the first channel record that this PUSH emits; the model's own field (R26). -/
  firstEvent : Nat
deriving DecidableEq, Repr

/-- The state of one instance. The first seven fields are the registers of 10_state.md. -/
structure State where
  /-- CARRY[0..8]. A byte at or beyond FILL holds no value (R10, U6). -/
  carry : Vector (Option Byte) 9
  /-- FILL (R10). -/
  fill : BitVec 4
  /-- STREAMING (R11). -/
  streaming : Bool
  /-- REMAIN (R12). -/
  remain : BitVec 13
  /-- CFG_VALID (R13). -/
  cfgValid : Bool
  /-- CFG. It holds no value while CFG_VALID is 0 (R13, R91, U7). -/
  cfg : Option (BitVec 10)
  /-- TOTAL_IN (R14). -/
  totalIn : BitVec 64
  /-- IBUF, the current input chunk: it exists only while a PUSH runs (R19). -/
  ibuf : Memory
  /-- The event channel, oldest record first (R22). -/
  events : List Event
  /-- The PUSH in progress; none at rest (R15, R57). -/
  run : Option PushRun
  /-- What the outside will do next, first action first; the model's own field. -/
  port : List HostAction
  /-- What the last direct codec call returned; the model's own field. -/
  result : Option CodecResult
  /-- The payload bytes the consumer has read, oldest first; the model's own field. -/
  taken : List Byte
deriving DecidableEq, Repr

/-- Why the machine stops with a fault. -/
inductive Fault where
  /-- Raised by PUSH when CARRY[i] with i below FILL holds no value (U6: "a read, which no rule makes, would be a
  fault"). No state that meets `State.Inv` raises it. Safe. -/
  | carryNoValue
  /-- Raised by PUSH and by a header when CFG_VALID is 1 and CFG holds no value (U7). No state that meets `State.Inv`
  raises it. Safe. -/
  | cfgNoValue
  /-- Raised by PUSH when the host placed no byte at some IBUF address below LEN (R19, R20). Safe. -/
  | ibufNoValue
  /-- Raised by the consumer's read through a PAYLOAD record whose PUSH has completed (R26, U5: "A model marks a read
  through a stale reference as a fault"). Safe. -/
  | stalePayloadReference
  /-- Raised by the consumer's read through a record that is no PAYLOAD record, or at an index beyond its slice. Safe. -/
  | notInPayloadSlice
  /-- Raised by PUSH when the consumer takes fewer records than the PUSH emits: the PUSH never completes (R95, U21:
  stuck). Safe. -/
  | consumerNeverTakes
deriving DecidableEq, Repr

/-- Why the machine gives something no meaning. -/
inductive Refusal where
  /-- An instruction the model has no meaning for; no arm of exec raises it. Safe. -/
  | notModelled (mnemonic : String)
  /-- Raised by CMD_RESERVED: OP = 10 or 11 (R37, R86 item 1). Safe. -/
  | reservedCommand
  /-- Raised by CMD_RESET_BADLEN: RESET with LEN other than 0 (R37, R86 item 1). Safe. -/
  | resetWithLength
  /-- Raised by PUSH and RESET, and by any command that overlaps a PUSH, while a PUSH runs (R86 item 2). Safe. -/
  | commandWhilePushRuns
  /-- Raised by a host write that changes IBUF while a PUSH runs (R30, R86 item 3). Safe. -/
  | ibufChangedDuringPush
  /-- Raised by step for a direct codec call on fewer than two bytes, which is no operand of the codec (R40, R60). Safe. -/
  | codecWindowTooShort
  /-- Raised in a system of several instances by a command or a codec call for an instance that was removed; no step of one
  instance raises it (R92, log 14). Safe. -/
  | instanceRemoved
deriving DecidableEq, Repr

/-- The state after reset and after instantiation (R18, R92): every register at its reset value, CARRY and CFG holding
no value, an empty event channel, no PUSH in progress, and an outside that does nothing. -/
def State.reset : State where
  carry := Vector.replicate 9 none
  fill := 0
  streaming := false
  remain := 0
  cfgValid := false
  cfg := none
  totalIn := 0
  ibuf := []
  events := []
  run := none
  port := []
  result := none
  taken := []

end Sys2Proof.Machine
end

