-- ==== Sys2Proof/Machine/Flags.lean ====
section
/-! DEFINITION. The computed fields: the fullness classes, the stored configuration, the codes of records and errors. -/
namespace Sys2Proof.Machine

/-- BF_CLASSIFY (R77): 2047 is VariableBitRate, any other value its own ConstantBitRate level, all 11 bits kept. -/
def bfClassify (raw : BitVec 11) : BufferFullness :=
  if raw = 2047 then .variableBitRate else .constantBitRate raw

/-- CFG_OF (R72). -/
def configOf (h : Header) : EncoderConfig where
  mpegVersion := h.mpegVersion
  audioObjectType := h.audioObjectType
  sfIndex := h.sfIndex
  channelConfiguration := h.channelConfiguration

/-- CFG's packing (R13): [9] mpeg_version, [8:7] audio_object_type, [6:3] sf_index, [2:0] channel_configuration. -/
def packConfig (c : EncoderConfig) : BitVec 10 :=
  BitVec.ofBool c.mpegVersion ++ c.audioObjectType ++ c.sfIndex ++ c.channelConfiguration

/-- The four fields of a CFG value (R13). -/
def unpackConfig (v : BitVec 10) : EncoderConfig where
  mpegVersion := v.getLsbD 9
  audioObjectType := v.extractLsb' 7 2
  sfIndex := v.extractLsb' 3 4
  channelConfiguration := v.extractLsb' 0 3

/-- CFG_EQ (R73): all four fields equal. NONE equals no configuration. -/
def configEq : Option EncoderConfig → EncoderConfig → Bool
  | none, _ => false
  | some a, b =>
    a.mpegVersion == b.mpegVersion && a.audioObjectType == b.audioObjectType
      && a.sfIndex == b.sfIndex && a.channelConfiguration == b.channelConfiguration

/-- The last-emitted configuration, or NONE (R13). -/
def storedConfig (s : State) : Option EncoderConfig :=
  if s.cfgValid then s.cfg.map unpackConfig else none

/-- CFG_VALID is 1 but CFG holds no value: a read would be a fault (U7). -/
def cfgMissing (s : State) : Bool := s.cfgValid && s.cfg.isNone

/-- A record's tag (R38). -/
def Event.tag : Event → BitVec 3
  | .config _ => 0
  | .frameStart _ => 1
  | .payload _ _ => 2
  | .frameComplete => 3
  | .error _ _ => 4

/-- An error kind's code (R80). -/
def HeaderError.code : HeaderError → BitVec 2
  | .invalidSyncWord _ => 1
  | .reservedFieldValue _ => 2
  | .frameTooShort _ _ => 3

end Sys2Proof.Machine
end

