-- ==== Sys2Proof/Machine/Memory.lean ====
section
/-! DEFINITION. IBUF as a memory: the canonical form, reading, placing a chunk (20_memory.md R19, R20). -/
namespace Sys2Proof.Machine

/-- The canonical form: addresses strictly rising. No cell can equal what an unlisted address reads as, since an
unlisted address holds no value. -/
def memoryWf : Memory → Bool
  | [] => true
  | [_] => true
  | c :: d :: m => decide (c.1 < d.1) && memoryWf (d :: m)

/-- The byte at an address; `none` where nothing was placed. -/
def memoryRead (m : Memory) (a : Nat) : Option Byte :=
  match m with
  | [] => none
  | c :: t => if c.1 = a then some c.2 else memoryRead t a

/-- Placing a byte at an address, the form kept. Only the host does it (R21). -/
def memoryWrite (m : Memory) (a : Nat) (b : Byte) : Memory :=
  match m with
  | [] => [(a, b)]
  | c :: t =>
    if c.1 < a then c :: memoryWrite t a b
    else if c.1 = a then (a, b) :: t
    else (a, b) :: c :: t

/-- `MemRead(a, n)` (R20): the bytes at a, ..., a + n - 1 in order; `none` if one of them holds no value. -/
def memoryReadN (m : Memory) (a : Nat) : Nat → Option (List Byte)
  | 0 => some []
  | n + 1 =>
    match memoryRead m a, memoryReadN m (a + 1) n with
    | some b, some bs => some (b :: bs)
    | _, _ => none

/-- Bytes placed one after another from an address on. -/
def memoryFrom (a : Nat) : List Byte → Memory
  | [] => []
  | b :: bs => (a, b) :: memoryFrom (a + 1) bs

/-- A chunk in IBUF[0..LEN) (R36). -/
def memoryOf (chunk : List Byte) : Memory := memoryFrom 0 chunk

end Sys2Proof.Machine
end

