-- ==== Sys2Proof/Machine/Operands.lean ====
section
/-! DEFINITION. What the instructions work on: the header record of a field list, HEADER_DECODE, the carried bytes, the
chunk, a PAYLOAD slice. -/
namespace Sys2Proof.Machine

/-- The header record of checked fields (R41 to R54). -/
def headerOf (protectionAbsent : Bool) (f : HeaderFields) (crc : Option (BitVec 16)) : Header where
  mpegVersion := f.mpegVersion
  protectionAbsent := protectionAbsent
  audioObjectType := f.profile
  sfIndex := f.sfIndex
  privateBit := f.privateBit
  channelConfiguration := f.channelConfiguration
  isOriginal := f.originalCopy
  home := f.home
  copyrightIdentifier := .absent
  copyrightNumber := .absent
  frameLength := f.frameLength
  bufferFullness := bfClassify f.bufferFullness
  numberOfBlocks := f.rawBlocks.zeroExtend 3 + 1
  crc := crc

/-- The header length as the 4-bit detail of FrameTooShort (R80). -/
def lengthDetail (protectionAbsent : Bool) : BitVec 4 := BitVec.ofNat 4 (headerLength protectionAbsent)

/-- HEADER_DECODE (R41), in the order of the rule's own pseudocode. `none` when the bytes are fewer than the L bytes
that are its operand. The framing machine reaches the same results through `decodeWindow`. -/
def headerDecode : List Byte → Option CodecResult
  | h0 :: h1 :: h2 :: h3 :: h4 :: h5 :: h6 :: t =>
    let f := fieldsOf h1 h2 h3 h4 h5 h6
    let crc : Option (BitVec 16) := match t with
      | c0 :: c1 :: _ => some (c0 ++ c1)
      | _ => none
    if !protectionBit h1 && crc.isNone then none
    else if syncBits h0 h1 ≠ 0xFFF then some (.error (.invalidSyncWord (syncBits h0 h1)))
    else if 13 ≤ f.sfIndex.toNat then some (.error (.reservedFieldValue f.sfIndex))
    else if f.frameLength.toNat < headerLength (protectionBit h1) then
      some (.error (.frameTooShort f.frameLength (lengthDetail (protectionBit h1))))
    else some (.header (headerOf (protectionBit h1) f (if protectionBit h1 then none else crc)))
  | _ => none

/-- The frequency a consumer reads from a configuration: SF_HZ of its index (R38, R46, R72). -/
def EncoderConfig.samplingFrequency (c : EncoderConfig) : Nat := Config.sfHz c.sfIndex

/-- The audio object type a consumer reads from a configuration (R44). -/
def EncoderConfig.objectType (c : EncoderConfig) : Nat := Config.aotMap c.audioObjectType

/-- The speaker layout a consumer reads from a configuration; value 0 has none (R48). -/
def EncoderConfig.layout (c : EncoderConfig) : Option Nat :=
  if c.channelConfiguration = 0 then none else some (Config.chLayout c.channelConfiguration)

/-- The frequency a consumer reads from a header (R38, R46). -/
def Header.samplingFrequency (h : Header) : Nat := (configOf h).samplingFrequency

/-- The audio object type a consumer reads from a header (R44). -/
def Header.objectType (h : Header) : Nat := (configOf h).objectType

/-- The speaker layout a consumer reads from a header (R48). -/
def Header.layout (h : Header) : Option Nat := (configOf h).layout

/-- The frequency in Hz a consumer reads from a record: a CONFIG or FRAME_START record has one, no other (R38). -/
def Event.samplingFrequency : Event → Option Nat
  | .config c => some c.samplingFrequency
  | .frameStart h => some h.samplingFrequency
  | .payload _ _ => none
  | .frameComplete => none
  | .error _ _ => none

/-- `CARRY[i]`: no value at or beyond FILL (R10). -/
def readCarry (carry : Vector (Option Byte) 9) (fill i : Nat) : Option Byte :=
  if i < fill then (carry[i]?).join else none

/-- `CARRY[a..a+n)`; `none` if one of the bytes holds no value. -/
def readCarryN (carry : Vector (Option Byte) 9) (fill a : Nat) : Nat → Option (List Byte)
  | 0 => some []
  | n + 1 =>
    match readCarry carry fill a, readCarryN carry fill (a + 1) n with
    | some b, some bs => some (b :: bs)
    | _, _ => none

/-- `CARRY[0..FILL)` (R57). -/
def carried (s : State) : Option (List Byte) := readCarryN s.carry s.fill.toNat 0 s.fill.toNat

/-- A CARRY array that holds the given bytes and no value after them (R65). -/
def carryOf (bytes : List Byte) : Vector (Option Byte) 9 := Vector.ofFn fun i => bytes[i.val]?

/-- base: the stream offset of Q[0], TOTAL_IN - F modulo 2^64 (R57). -/
def streamBase (s : State) : BitVec 64 := s.totalIn - s.fill.zeroExtend 64

/-- The consumer's read of byte `index` through record number `record` (R25, R26): the record must be a PAYLOAD record
of the PUSH that is running. -/
def readReference (s : State) (record index : Nat) : Except Fault Byte :=
  match s.run with
  | none => .error .stalePayloadReference
  | some r =>
    if record < r.firstEvent then .error .stalePayloadReference
    else
      match s.events[record]? with
      | some (.payload offset length) =>
        if index < length.toNat then
          match memoryRead s.ibuf (offset.toNat + index) with
          | some b => .ok b
          | none => .error .ibufNoValue
        else .error .notInPayloadSlice
      | _ => .error .notInPayloadSlice

end Sys2Proof.Machine
end

