-- ==== Sys2Proof/Machine/Ops.lean ====
section
/-! DEFINITION. The named operations of the framing machine: emitting a record, error entry and resumption, delivering a
header, slicing payload, starting and finishing a PUSH. -/
namespace Sys2Proof.Machine

/-! ## Single updates -/

/-- `emit E`: the record goes to the end of the channel (R22). -/
def State.emit (s : State) (e : Event) : State := { s with events := s.events ++ [e] }

/-- The PUSH in progress, replaced. -/
def State.withRun (s : State) (r : PushRun) : State := { s with run := some r }

/-- A codec operation's value, handed to its caller. -/
def State.returns (s : State) (c : CodecResult) : State := { s with result := some c }

/-- `p <- p + n` (R57: the cursor only moves forward). -/
def PushRun.advance (r : PushRun) (n : Nat) : PushRun := { r with cursor := r.cursor + n, rest := r.rest.drop n }

/-! ## Error entry and resumption (60_exceptions.md) -/

/-- `raise kind(detail) at p` (R79): one ERROR record with the stream offset (base + p) mod 2^64 of the window, and the
cursor one byte on. Nothing is saved and nothing else changes. -/
def raiseError (e : HeaderError) (s : State) (r : PushRun) : State :=
  (s.emit (.error e (streamBase s + BitVec.ofNat 64 r.cursor))).withRun (r.advance 1)

/-! ## Frames (41_framing.md, 42_config.md) -/

/-- CONFIG_DETECT (R74). -/
def configDetect (h : Header) (s : State) : State :=
  if configEq (storedConfig s) (configOf h) then s
  else { s.emit (.config (configOf h)) with cfg := some (packConfig (configOf h)), cfgValid := true }

/-- STEP_HEADER, part 3 (R63): CONFIG if the configuration changed, FRAME_START, the cursor past the header, REMAIN, and
STREAMING, or FRAME_COMPLETE at once when there is no payload. -/
def deliverHeader (h : Header) (s : State) (r : PushRun) : State :=
  let length := headerLength h.protectionAbsent
  let started := ((configDetect h s).emit (.frameStart h)).withRun (r.advance length)
  let remain := h.frameLength - BitVec.ofNat 13 length
  if remain = 0 then { started.emit .frameComplete with remain := remain }
  else { started with remain := remain, streaming := true }

/-- FRAME_DONE (R59). -/
def frameDone (s : State) : State := { s.emit .frameComplete with streaming := false }

/-- STEP_PAYLOAD (R58): one PAYLOAD record for as much of the frame as the chunk holds. -/
def stepPayload (s : State) (r : PushRun) : State :=
  let k := min s.remain.toNat r.rest.length
  let sliced := (s.emit (.payload (BitVec.ofNat 30 (r.cursor - s.fill.toNat)) (BitVec.ofNat 13 k))).withRun (r.advance k)
  let left := { sliced with remain := s.remain - BitVec.ofNat 13 k }
  if left.remain = 0 then frameDone left else left

/-! ## Starting and finishing (R57, R65) -/

/-- START_PUSH (R57) on Q, the carried bytes followed by the chunk. -/
def startPush (len : BitVec 30) (queue : List Byte) (s : State) : State :=
  s.withRun { len := len, cursor := 0, rest := queue, firstEvent := s.events.length }

/-- FINISH_PUSH (R65): what is left of Q goes into CARRY, the chunk is counted, and IBUF is gone (R19). -/
def finishPush (s : State) (r : PushRun) : State :=
  { s with
    carry := carryOf r.rest
    fill := BitVec.ofNat 4 r.rest.length
    totalIn := s.totalIn + r.len.zeroExtend 64
    ibuf := []
    run := none
    result := none }

/-! ## The outside while a PUSH runs -/

/-- One act of the outside while the PUSH `r` runs (R26, R30, R86, R95). A direct codec call is pure (R55): it leaves
nothing. -/
def overlapAct (a : Act) (s : State) (r : PushRun) : Host.Outcome State Fault Refusal :=
  match a with
  | .command _ _ => .refused .commandWhilePushRuns
  | .writeIbuf addr value =>
    if addr.toNat < r.len.toNat ∧ memoryRead s.ibuf addr.toNat ≠ some value then .refused .ibufChangedDuringPush
    else .next s
  | .readPayload record index =>
    match readReference s record index with
    | .ok b => .next { s with taken := s.taken ++ [b] }
    | .error f => .fault f
  | .takeOnly count => if count < s.events.length - r.firstEvent then .fault .consumerNeverTakes else .next s
  | .window _ => .next s
  | .classify _ => .next s

/-- The overlapping acts one after another. -/
def overlapActs (acts : List HostAction) (s : State) (r : PushRun) : Host.Outcome State Fault Refusal :=
  match acts with
  | [] => .next s
  | a :: rest =>
    match overlapAct a.act s r with
    | .next t => overlapActs rest t r
    | .fault f => .fault f
    | .refused q => .refused q

/-- The end of a PUSH whose loop has ended: the acts that overlap it, then FINISH_PUSH. -/
def endPush (s : State) (r : PushRun) : Host.Outcome State Fault Refusal :=
  match overlapActs (s.port.takeWhile (·.overlaps)) { s with port := s.port.dropWhile (·.overlaps) } r with
  | .next t => .next (finishPush t r)
  | .fault f => .fault f
  | .refused q => .refused q

end Sys2Proof.Machine
end

