-- ==== Sys2Proof/Machine/Window.lean ====
section
/-! DEFINITION. The windows of the input stream: SYNC_CHECK, SYNC_MISS, the header errors, the two headers. With a PUSH
running, an instruction is what the framing machine does with the window at its cursor (R61 to R64). With none running it
is a direct call of the pure codec, which writes no register and emits no event (R55): only its result is handed back. -/
namespace Sys2Proof.Machine

/-- A window that fails with `e`: error entry in a PUSH (R64, R79), the codec's error value outside one. -/
def failingWindow (e : HeaderError) (s : State) : State :=
  match s.run with
  | some r => raiseError e s r
  | none => s.returns (.error e)

/-- A complete valid header: delivered in a PUSH (R63), the codec's header value outside one. -/
def headerWindow (h : Header) (s : State) : State :=
  match s.run with
  | some r => deliverHeader h s r
  | none => s.returns (.header h)

/-- SYNC_MISS: InvalidSyncWord with the 12 bits observed (R61). -/
def syncMissWindow (sync : BitVec 12) (s : State) : State := failingWindow (.invalidSyncWord sync) s

/-- ADTS_ERR_SF13: ReservedFieldValue(13) (R45). -/
def sf13Window (s : State) : State := failingWindow (.reservedFieldValue 13) s

/-- ADTS_ERR_SF14_15: ReservedFieldValue(14) or ReservedFieldValue(15) (R45). -/
def sf1415Window (sfLow : BitVec 1) (s : State) : State := failingWindow (.reservedFieldValue (7#3 ++ sfLow)) s

/-- ADTS_ERR_SHORT: FrameTooShort(frame_length, L) (R51). -/
def shortWindow (protectionAbsent : Bool) (f : HeaderFields) (s : State) : State :=
  failingWindow (.frameTooShort f.frameLength (lengthDetail protectionAbsent)) s

/-- ADTS_HDR7: a header without CRC (R41, R63). -/
def hdr7Window (f : HeaderFields) (s : State) : State := headerWindow (headerOf true f none) s

/-- ADTS_HDR9: a header with its CRC, reported raw and not checked (R4, R41, R54, R63). -/
def hdr9Window (f : HeaderFields) (crc : BitVec 16) (s : State) : State :=
  headerWindow (headerOf false f (some crc)) s

/-- A PUSH that reads a header in a state whose CFG should hold a value and does not faults (U7). -/
def headerOutcome (s next : State) : Host.Outcome State Fault Refusal :=
  if s.run.isSome && cfgMissing s then .fault .cfgNoValue else .next next

/-- SYNC_CHECK (R40): the pair passes; no register is written. Waiting for the rest of the header (R62) is the loop's. -/
def execSyncCheck (_low : BitVec 4) (s : State) : Host.Outcome State Fault Refusal :=
  .next (s.returns (.sync true))

/-- SYNC_MISS (R61): InvalidSyncWord with the 12 bits observed. -/
def execSyncMiss (sync : BitVec 12) (_low : BitVec 4) (s : State) : Host.Outcome State Fault Refusal :=
  .next (syncMissWindow sync s)

/-- ADTS_ERR_SF13 (R45): ReservedFieldValue(13). -/
def execAdtsErrSf13 (_high : BitVec 6) (_low : BitVec 34) (s : State) : Host.Outcome State Fault Refusal :=
  .next (sf13Window s)

/-- ADTS_ERR_SF14_15 (R45): ReservedFieldValue(14) or ReservedFieldValue(15). -/
def execAdtsErrSf1415 (_high : BitVec 6) (sfLow : BitVec 1) (_low : BitVec 34) (s : State) :
    Host.Outcome State Fault Refusal :=
  .next (sf1415Window sfLow s)

/-- ADTS_ERR_SHORT (R51): FrameTooShort(frame_length, L). -/
def execAdtsErrShort (protectionAbsent : Bool) (f : HeaderFields) (s : State) : Host.Outcome State Fault Refusal :=
  .next (shortWindow protectionAbsent f s)

/-- ADTS_HDR7 (R41, R63): a header without CRC. -/
def execAdtsHdr7 (f : HeaderFields) (s : State) : Host.Outcome State Fault Refusal :=
  headerOutcome s (hdr7Window f s)

/-- ADTS_HDR9 (R41, R63): a header with its CRC, reported raw and not checked (R4, R54). -/
def execAdtsHdr9 (f : HeaderFields) (crc : BitVec 16) (s : State) : Host.Outcome State Fault Refusal :=
  headerOutcome s (hdr9Window f crc s)

end Sys2Proof.Machine
end

