-- ==== Sys2Proof/Machine/Command.lean ====
section
/-! DEFINITION. The host commands: PUSH as one atomic step, RESET, and the two refused forms. -/
namespace Sys2Proof.Machine

/-- What the framing machine does with the instruction at its cursor (R61 to R64); `none` is WAIT (R62), and no command
or fullness row is ever read from the stream. -/
def windowStep (i : Instr) (s : State) : Option State :=
  match i with
  | .syncMiss sync _ => some (syncMissWindow sync s)
  | .adtsErrSf13 _ _ => some (sf13Window s)
  | .adtsErrSf1415 _ sfLow _ => some (sf1415Window sfLow s)
  | .adtsErrShort protectionAbsent f => some (shortWindow protectionAbsent f s)
  | .adtsHdr7 f => some (hdr7Window f s)
  | .adtsHdr9 f crc => some (hdr9Window f crc s)
  | .syncCheck _ => none
  | .push _ => none
  | .reset => none
  | .cmdReserved _ => none
  | .cmdResetBadlen _ => none
  | .bfVbr => none
  | .bfCbr _ => none

/-- One iteration of the PUSH loop (R56); `none` when the loop ends. -/
def pushIteration (s : State) (r : PushRun) : Option State :=
  if s.streaming then
    if r.rest.isEmpty then none else some (stepPayload s r)
  else
    match decodeWindow r.rest with
    | some i => windowStep i s
    | none => none

/-- The PUSH loop (R56), at most `fuel` iterations. -/
def pushLoop : Nat → State → State
  | 0, s => s
  | fuel + 1, s =>
    match s.run with
    | none => s
    | some r =>
      match pushIteration s r with
      | none => s
      | some t => pushLoop fuel t

/-- PUSH (R56): one atomic step (R97). The loop ends within |Q| iterations (R68), so its fuel is never used up. -/
def execPush (len : BitVec 30) (s : State) : Host.Outcome State Fault Refusal :=
  if s.run.isSome then .refused .commandWhilePushRuns
  else if cfgMissing s then .fault .cfgNoValue
  else
    match carried s, memoryReadN s.ibuf 0 len.toNat with
    | none, _ => .fault .carryNoValue
    | some _, none => .fault .ibufNoValue
    | some held, some chunk =>
      let queue := held ++ chunk
      let looped := pushLoop (queue.length + 2) (startPush len queue s)
      match looped.run with
      | some r => endPush looped r
      | none => .next looped

/-- RESET (R91): every register to its initial state, no event. A RESET while a PUSH runs is refused (R86). -/
def execReset (s : State) : Host.Outcome State Fault Refusal :=
  if s.run.isSome then .refused .commandWhilePushRuns
  else
    .next { s with
      carry := Vector.replicate 9 none
      fill := 0
      streaming := false
      remain := 0
      cfgValid := false
      cfg := none
      totalIn := 0
      ibuf := [] }

/-- CMD_RESERVED (R37): no meaning; refused (R86 item 1). -/
def execCmdReserved (_rest : BitVec 31) (_s : State) : Host.Outcome State Fault Refusal := .refused .reservedCommand

/-- CMD_RESET_BADLEN (R37): no meaning; refused (R86 item 1). -/
def execCmdResetBadlen (_len : BitVec 30) (_s : State) : Host.Outcome State Fault Refusal := .refused .resetWithLength

end Sys2Proof.Machine
end

