-- ==== Sys2Proof/Machine/Fullness.lean ====
section
/-! DEFINITION. The buffer-fullness rows (43_buffer_fullness.md): pure functions, whose value is handed back. Inside a
header, HEADER_DECODE calls the same classification (R52). -/
namespace Sys2Proof.Machine

/-- BF_VBR (R77): 2047. -/
def execBfVbr (s : State) : Host.Outcome State Fault Refusal := .next (s.returns (.fullness (bfClassify 2047)))

/-- BF_CBR (R77): any other value. -/
def execBfCbr (level : BitVec 11) (s : State) : Host.Outcome State Fault Refusal :=
  .next (s.returns (.fullness (bfClassify level)))

end Sys2Proof.Machine
end

