-- ==== Sys2Proof/Machine/Dispatch.lean ====
section
/-! DEFINITION. exec: one arm per instruction. -/
namespace Sys2Proof.Machine

def exec (i : Instr) (s : State) : Host.Outcome State Fault Refusal :=
  match i with
  | .push len => Sys2Proof.Machine.execPush len s
  | .reset => Sys2Proof.Machine.execReset s
  | .cmdReserved rest => Sys2Proof.Machine.execCmdReserved rest s
  | .cmdResetBadlen len => Sys2Proof.Machine.execCmdResetBadlen len s
  | .syncCheck low => Sys2Proof.Machine.execSyncCheck low s
  | .syncMiss sync low => Sys2Proof.Machine.execSyncMiss sync low s
  | .adtsErrSf13 high low => Sys2Proof.Machine.execAdtsErrSf13 high low s
  | .adtsErrSf1415 high sfLow low => Sys2Proof.Machine.execAdtsErrSf1415 high sfLow low s
  | .adtsErrShort protectionAbsent f => Sys2Proof.Machine.execAdtsErrShort protectionAbsent f s
  | .adtsHdr7 f => Sys2Proof.Machine.execAdtsHdr7 f s
  | .adtsHdr9 f crc => Sys2Proof.Machine.execAdtsHdr9 f crc s
  | .bfVbr => Sys2Proof.Machine.execBfVbr s
  | .bfCbr level => Sys2Proof.Machine.execBfCbr level s

end Sys2Proof.Machine
end

