-- ==== Sys2Proof/Machine/Fetch.lean ====
section
/-! DEFINITION. Fetching: the next act of the outside at rest, the window at the cursor inside a PUSH, and where a code is
placed so that it is fetched next. -/
namespace Sys2Proof.Machine

/-- One act of the outside between commands. The host may overwrite IBUF then (R30); every PAYLOAD reference is stale
(R26); a consumer's limit on records concerns no PUSH. -/
def restAct (a : Act) (s : State) : Host.Outcome State Fault Refusal :=
  match a with
  | .command word ibuf => exec (decodeCommand word) { s with ibuf := ibuf }
  | .writeIbuf _ _ => .next s
  | .readPayload _ _ => .fault .stalePayloadReference
  | .takeOnly _ => .next s
  | .window bytes =>
    match decodeWindow bytes with
    | some i => exec i s
    | none => .refused .codecWindowTooShort
  | .classify raw => exec (decodeFullness raw) s

/-- The instructions after which a PUSH has to wait for more bytes: SYNC_CHECK, a header not yet complete (R62). -/
def waits : Instr → Bool
  | .syncCheck _ => true
  | .syncMiss _ _ => false
  | .adtsErrSf13 _ _ => false
  | .adtsErrSf1415 _ _ _ => false
  | .adtsErrShort _ _ => false
  | .adtsHdr7 _ => false
  | .adtsHdr9 _ _ => false
  | .push _ => false
  | .reset => false
  | .cmdReserved _ => false
  | .cmdResetBadlen _ => false
  | .bfVbr => false
  | .bfCbr _ => false

/-- What follows the instruction at the cursor: the end of the PUSH if it has to wait (R62, R65), else nothing: the loop
goes on. -/
def afterWindow (i : Instr) (r : PushRun) (o : Host.Outcome State Fault Refusal) : Host.Outcome State Fault Refusal :=
  match o with
  | .next t => if waits i then endPush t r else .next t
  | .fault f => .fault f
  | .refused q => .refused q

/-- One iteration of a PUSH in progress (R56). No step from rest leaves a PUSH in progress, since PUSH is atomic (R97); this
is the same loop seen from inside. -/
def runStep (s : State) (r : PushRun) : Host.Outcome State Fault Refusal :=
  if s.streaming then
    if r.rest.isEmpty then endPush s r else .next (stepPayload s r)
  else
    match decodeWindow r.rest with
    | some i => afterWindow i r (exec i s)
    | none => endPush s r

/-- `s` with a code where step fetches its next instruction: a command word in the port with a chunk of LEN zero bytes, a
buffer-fullness value in the port, or a window at the cursor of a PUSH in progress that has no other byte left. -/
def State.withCode (s : State) : Code → State
  | .command word =>
    let chunk : Memory :=
      if word.getLsbD 31 || word.getLsbD 30 then [] else memoryOf (List.replicate (word.extractLsb' 0 30).toNat 0)
    { s with run := none, port := { overlaps := false, act := .command word chunk } :: s.port }
  | .fullness raw => { s with run := none, port := { overlaps := false, act := .classify raw } :: s.port }
  | .window bytes =>
    { s with
      streaming := false
      ibuf := memoryOf bytes
      run := some {
        len := BitVec.ofNat 30 bytes.length
        cursor := s.fill.toNat
        rest := bytes
        firstEvent := s.events.length } }

end Sys2Proof.Machine
end

