-- ==== Sys2Proof/Machine/Step.lean ====
section
/-! DEFINITION. One step of the machine, and placing the instruction it runs next. -/
namespace Sys2Proof.Machine

/-- One step. With nothing in the port the block at rest stays as it is (R94). -/
def step (s : State) : Host.Outcome State Fault Refusal :=
  match s.run with
  | some r => runStep s r
  | none =>
    match s.port with
    | [] => .next s
    | a :: later => restAct a.act { s with port := later }

/-- `s` with the instruction of a table word as the next one step runs. -/
def State.withFetchWord (s : State) (nbits w : Nat) : State :=
  match codeOfTableWord nbits w with
  | some c => s.withCode c
  | none => s

end Sys2Proof.Machine
end

