-- ==== Sys2Proof/Machine/Units.lean ====
section
/-! DEFINITION. Several instances of the block (R3, R90, R92): one per elementary stream, nothing shared. DESIGN CHOICE
(log 14): the form of such a system. -/
namespace Sys2Proof.Machine

/-- What stays of an instance that was removed: no register, but "Events already emitted stay valid" (R92), so its channel
is kept, with the bytes the consumer has read; the outside may still act (log 14). -/
structure RemovedInstance where
  events : List Event
  port : List HostAction
  taken : List Byte
deriving DecidableEq, Repr

/-- One instance of a system, in use or removed. -/
inductive Slot where
  | live (s : State)
  | removed (r : RemovedInstance)
deriving DecidableEq, Repr

/-- The event channel of an instance (R90: each has its own). -/
def slotEvents : Slot → List Event
  | .live s => s.events
  | .removed r => r.events

/-- An outcome with its next state changed into another form. -/
def onNext {α β : Type} (f : α → β) : Host.Outcome α Fault Refusal → Host.Outcome β Fault Refusal
  | .next t => .next (f t)
  | .fault e => .fault e
  | .refused q => .refused q

/-- One act of the outside on a removed instance. Its PUSHes are over, so every PAYLOAD reference is stale (R26). A command
or a codec call has no instance to act on; the spec is silent there, and the model refuses it: DESIGN CHOICE (log 14). A host
write concerns the host's own memory (R30), a consumer's limit no PUSH. -/
def removedAct (a : Act) (r : RemovedInstance) : Host.Outcome RemovedInstance Fault Refusal :=
  match a with
  | .command _ _ => .refused .instanceRemoved
  | .writeIbuf _ _ => .next r
  | .readPayload _ _ => .fault .stalePayloadReference
  | .takeOnly _ => .next r
  | .window _ => .refused .instanceRemoved
  | .classify _ => .refused .instanceRemoved

/-- One step of an instance. A removed one emits nothing more. -/
def slotStep : Slot → Host.Outcome Slot Fault Refusal
  | .live s => onNext .live (step s)
  | .removed r =>
    match r.port with
    | [] => .next (.removed r)
    | a :: later => onNext .removed (removedAct a.act { r with port := later })

/-- One step of instance `k` of a list of instances; the others stand still. The spec does not say what form a refusal or a
fault of one instance takes in a system of several. DESIGN CHOICE (log 14): it is the outcome of the whole step, without the
states of the other instances, which are those of `units`; an instance that is not in the list does nothing. -/
def unitStep (units : List Slot) (k : Nat) : Host.Outcome (List Slot) Fault Refusal :=
  match units[k]? with
  | none => .next units
  | some u => onNext (units.set k) (slotStep u)

/-- Instantiation (R92): a new instance in the reset state, whatever the others hold. -/
def instantiate (units : List Slot) : List Slot := units ++ [.live State.reset]

/-- Removing one instance (R92): no protocol, no event, and its channel stays. Removing it again changes nothing. -/
def removeSlot : Slot → Slot
  | .live s => .removed { events := s.events, port := s.port, taken := s.taken }
  | .removed r => .removed r

/-- Removing instance `k` (R92): the others keep their numbers and their states. -/
def removeUnit (units : List Slot) (k : Nat) : List Slot := units.modify k removeSlot

end Sys2Proof.Machine
end

