-- ==== Sys2Proof/Safety.lean ====
section
/-! DEFINITION. What a good state is (R16), and the terms in which claims speak of what a PUSH delivers. -/
namespace Sys2Proof.Machine

/-! ## The invariant -/

/-- Carried bytes are the start of a header: one byte of any value, or a sync word and fewer bytes than the header it
begins (R16 items 3 and 4). -/
def carriedOk : List Byte → Bool
  | b0 :: b1 :: t => syncCheck b0 b1 && decide (t.length + 2 < headerLength (protectionBit b1))
  | _ => true

/-- The registers hold legal values (10_state.md): FILL at most 8, a value in exactly the CARRY bytes below FILL, a value
in CFG exactly while CFG_VALID is 1, an sf_index of at most 12 in it, REMAIN at most 8184, and carried bytes as R16 has
them. -/
abbrev State.RegistersOk (s : State) : Prop :=
  s.fill.toNat ≤ 8
    ∧ (∀ i : Fin 9, s.carry[i].isSome = decide (i.val < s.fill.toNat))
    ∧ s.cfg.isSome = s.cfgValid
    ∧ (∀ c ∈ storedConfig s, c.sfIndex.toNat ≤ 12)
    ∧ s.remain.toNat ≤ 8184
    ∧ (∀ held ∈ carried s, carriedOk held = true)

/-- At rest (R15, R16 item 2, R19): a frame being delivered has payload left and no carried byte, and there is no IBUF. -/
abbrev State.RestOk (s : State) : Prop :=
  s.ibuf = [] ∧ (s.streaming = true → s.fill = 0 ∧ 1 ≤ s.remain.toNat)

/-- Inside a PUSH (R57, R67): what is left of Q is Q from the cursor on, the cursor is inside Q, and payload is being
delivered only from bytes of the chunk. -/
def runOk (s : State) (r : PushRun) : Bool :=
  match carried s, memoryReadN s.ibuf 0 r.len.toNat with
  | some held, some chunk =>
    decide (r.cursor ≤ held.length + chunk.length)
      && r.rest == (held ++ chunk).drop r.cursor
      && (!s.streaming || (decide (held.length ≤ r.cursor) && decide (1 ≤ s.remain.toNat)))
      && decide (r.firstEvent ≤ s.events.length)
  | _, _ => false

/-- Whether a PUSH is at a legal point, or the block legally at rest. -/
abbrev State.PhaseOk (s : State) : Prop :=
  (s.run = none → s.RestOk) ∧ (∀ r ∈ s.run, runOk s r = true)

/-- The chunks the outside will place are in canonical form. -/
def actOk : Act → Bool
  | .command _ ibuf => memoryWf ibuf
  | .writeIbuf _ _ => true
  | .readPayload _ _ => true
  | .takeOnly _ => true
  | .window _ => true
  | .classify _ => true

/-- The invariant of the block: legal registers, memories in canonical form, a legal phase. -/
abbrev State.Inv (s : State) : Prop :=
  s.RegistersOk ∧ s.PhaseOk ∧ memoryWf s.ibuf = true ∧ ∀ a ∈ s.port, actOk a.act = true

/-! ## Commands -/

/-- The block at rest. -/
abbrev State.AtRest (s : State) : Prop := s.run = none

/-- Nothing from outside overlaps the next command. -/
abbrev State.Quiet (s : State) : Prop := s.port.takeWhile (·.overlaps) = []

/-- A legal state at rest in which the next command runs alone. -/
abbrev State.Ready (s : State) : Prop := s.Inv ∧ s.AtRest ∧ s.Quiet

/-- PUSH of a chunk: the command with the chunk's length and the chunk in IBUF (R36). -/
def pushChunk (chunk : List Byte) (s : State) : Host.Outcome State Fault Refusal :=
  exec (.push (BitVec.ofNat 30 chunk.length)) { s with ibuf := memoryOf chunk }

/-- The seven registers of 10_state.md hold the same values in two states (R17). -/
abbrev sameRegisters (s t : State) : Prop :=
  s.carry = t.carry ∧ s.fill = t.fill ∧ s.streaming = t.streaming ∧ s.remain = t.remain
    ∧ s.cfgValid = t.cfgValid ∧ s.cfg = t.cfg ∧ s.totalIn = t.totalIn

/-- What is left of Q at a PUSH's cursor begins with a sync-checked header of which all L bytes are present (R61, R62). -/
abbrev headerPresent (rest : List Byte) (h0 h1 h2 h3 h4 h5 h6 : Byte) (t : List Byte) : Prop :=
  rest = h0 :: h1 :: h2 :: h3 :: h4 :: h5 :: h6 :: t ∧ syncCheck h0 h1 = true
    ∧ headerLength (protectionBit h1) ≤ t.length + 7

/-! ## What a PUSH delivers -/

/-- The records a state's channel has beyond another's. -/
def newEvents (s t : State) : List Event := t.events.drop s.events.length

/-- What the consumer gets: a record, or a payload byte read through a PAYLOAD record while it is live. -/
inductive Delivered where
  | record (e : Event)
  | byte (b : Byte)
deriving DecidableEq, Repr

/-- What a record of a PUSH delivers, the chunk being in IBUF: a PAYLOAD record its slice (R25), any other record itself. -/
def delivered (chunk : List Byte) : Event → List Delivered
  | .payload offset length => ((chunk.drop offset.toNat).take length.toNat).map .byte
  | .config c => [.record (.config c)]
  | .frameStart h => [.record (.frameStart h)]
  | .frameComplete => [.record .frameComplete]
  | .error e offset => [.record (.error e offset)]

/-- What the records of a PUSH deliver, in order. How a frame's payload is divided into PAYLOAD records does not show. -/
def transcript (chunk : List Byte) (events : List Event) : List Delivered := events.flatMap (delivered chunk)

/-- How many stream bytes a record stands for (R66): a header's L bytes, a slice's bytes, the one byte an error skips. -/
def spent : Event → Nat
  | .config _ => 0
  | .frameStart h => headerLength h.protectionAbsent
  | .payload _ length => length.toNat
  | .frameComplete => 0
  | .error _ _ => 1

/-- The error that the window at the start of some bytes fails with (R61, R64); `none` if it does not fail, or not yet. -/
def windowError : List Byte → Option HeaderError
  | b0 :: b1 :: t =>
    if syncCheck b0 b1 then
      match headerDecode (b0 :: b1 :: t) with
      | some (.error e) => some e
      | _ => none
    else some (.invalidSyncWord (syncBits b0 b1))
  | _ => none

/-- The cursor after some records of a PUSH on the queue Q, if each record stands for the segment of Q that begins where the
record before it ended (R66): FRAME_START for a header that decodes there to its own, PAYLOAD for the slice it names, ERROR
for the one byte at its own stream offset, of a window that fails there with its own error. `held` is F, `base` the stream
offset of Q[0]. -/
def cursorAfter (queue : List Byte) (held : Nat) (base : BitVec 64) : Nat → List Event → Option Nat
  | p, [] => some p
  | p, .config _ :: es => cursorAfter queue held base p es
  | p, .frameStart h :: es =>
    if headerDecode (queue.drop p) = some (.header h) then
      cursorAfter queue held base (p + headerLength h.protectionAbsent) es
    else none
  | p, .payload offset length :: es =>
    if offset.toNat + held = p ∧ p + length.toNat ≤ queue.length then
      cursorAfter queue held base (p + length.toNat) es
    else none
  | p, .frameComplete :: es => cursorAfter queue held base p es
  | p, .error e offset :: es =>
    if windowError (queue.drop p) = some e ∧ offset = base + BitVec.ofNat 64 p then
      cursorAfter queue held base (p + 1) es
    else none

/-- Address `i` of the chunk lies in a slice that one of the records names (R25). -/
def inSlice (events : List Event) (i : Nat) : Prop :=
  ∃ offset length, Event.payload offset length ∈ events ∧ offset.toNat ≤ i ∧ i < offset.toNat + length.toNat

/-! ## The order of records (R83) -/

/-- Where a reader of the channel stands. -/
inductive ChannelPhase where
  | betweenFrames
  | configGiven
  | inFrame
deriving DecidableEq, Repr

/-- The records that may come next (R83): an optional CONFIG, FRAME_START, PAYLOAD records, FRAME_COMPLETE; ERROR only
between frames. -/
def phaseAfter : ChannelPhase → Event → Option ChannelPhase
  | .betweenFrames, .config _ => some .configGiven
  | .betweenFrames, .frameStart _ => some .inFrame
  | .betweenFrames, .error _ _ => some .betweenFrames
  | .configGiven, .frameStart _ => some .inFrame
  | .inFrame, .payload _ _ => some .inFrame
  | .inFrame, .frameComplete => some .betweenFrames
  | _, _ => none

/-- The phase after a list of records, if they come in the order of R83. -/
def phaseAfterAll : ChannelPhase → List Event → Option ChannelPhase
  | p, [] => some p
  | p, e :: es =>
    match phaseAfter p e with
    | some q => phaseAfterAll q es
    | none => none

/-- The phase a state at rest is in (R11). -/
def State.channelPhase (s : State) : ChannelPhase := if s.streaming then .inFrame else .betweenFrames

/-! ## The configuration a consumer holds (R74 to R76) -/

/-- The configuration a consumer holds after a list of records: a CONFIG record must differ from the one held, and a
FRAME_START must be of the configuration held. `none` if a record breaks this. -/
def configAfterAll : Option EncoderConfig → List Event → Option (Option EncoderConfig)
  | held, [] => some held
  | held, .config c :: es => if configEq held c then none else configAfterAll (some c) es
  | held, .frameStart h :: es => if configEq held (configOf h) then configAfterAll held es else none
  | held, .payload _ _ :: es => configAfterAll held es
  | held, .frameComplete :: es => configAfterAll held es
  | held, .error _ _ :: es => configAfterAll held es

end Sys2Proof.Machine
end

