-- ==== Sys2Proof/Certificates/Slice0/Obligations.lean ====
section
/-! DEFINITION. The statements about the block, for the provers. Where a statement gives the next state as a record
`{ s with ... }`, it is that instruction's frame too: every field not named is as it was. -/
open Sys2Proof Sys2Proof.Machine

/-! ## Reset -/

/-- R91. RESET at rest gives every register its initial value, emits nothing, and touches neither the channel nor the
outside; no configuration is stored any more, and stream offsets count again from 0; while a PUSH runs it is refused; with
LEN other than 0 it is refused. -/
def Obligations.ResetRestoresEveryRegister : Prop :=
  (∀ s : State, s.AtRest → ∃ t, exec .reset s = .next t
      ∧ t = { s with
          carry := Vector.replicate 9 none
          fill := 0
          streaming := false
          remain := 0
          cfgValid := false
          cfg := none
          totalIn := 0
          ibuf := [] }
      ∧ storedConfig t = none ∧ streamBase t = 0)
    ∧ (∀ s : State, s.run.isSome = true → exec .reset s = .refused .commandWhilePushRuns)
    ∧ (∀ (s : State) (len : BitVec 30), len ≠ 0 → exec (decodeCommand (1#2 ++ len)) s = .refused .resetWithLength)

/-- R18. The registers' values after reset; a new instance has them, whatever the others hold; a RESET from any state at
rest leaves the same values. -/
def Obligations.ResetStateHasTheStatedValues : Prop :=
  State.reset.fill = 0 ∧ State.reset.streaming = false ∧ State.reset.remain = 0 ∧ State.reset.cfgValid = false
    ∧ State.reset.totalIn = 0 ∧ (∀ i : Fin 9, State.reset.carry[i] = none) ∧ State.reset.cfg = none
    ∧ (∀ units : List Slot, (instantiate units)[units.length]? = some (.live State.reset))
    ∧ ∀ s : State, s.AtRest → ∃ t, exec .reset s = .next t ∧ sameRegisters t State.reset

/-! ## The command word -/

/-- R36, R37, R86 item 1. A command word is PUSH with its LEN exactly when OP is 00, RESET exactly when it is 0x40000000,
and refused in every state otherwise. -/
def Obligations.CommandWordsHaveTheirMeaning : Prop :=
  ∀ (w : BitVec 32) (s : State),
    (w.extractLsb' 30 2 = 0 → decodeCommand w = .push (w.extractLsb' 0 30))
      ∧ (w = 0x40000000 → decodeCommand w = .reset)
      ∧ (w.extractLsb' 30 2 = 1 → w ≠ 0x40000000 → exec (decodeCommand w) s = .refused .resetWithLength)
      ∧ (2 ≤ (w.extractLsb' 30 2).toNat → exec (decodeCommand w) s = .refused .reservedCommand)

/-- R86. The three kinds of refused commands: the rows with no meaning, in every state; PUSH and RESET while a PUSH runs,
whether the state is inside a PUSH or the outside overlaps one with a command; and a PUSH whose IBUF changes before it
completes. -/
def Obligations.MeaninglessCommandsAreRefused : Prop :=
  (∀ (s : State) (rest : BitVec 31), exec (.cmdReserved rest) s = .refused .reservedCommand)
    ∧ (∀ (s : State) (len : BitVec 30), exec (.cmdResetBadlen len) s = .refused .resetWithLength)
    ∧ (∀ (s : State) (len : BitVec 30), s.run.isSome = true →
        exec (.push len) s = .refused .commandWhilePushRuns ∧ exec .reset s = .refused .commandWhilePushRuns)
    ∧ (∀ (s : State) (chunk : List Byte) (w : BitVec 32) (m : Memory) (later : List HostAction),
        s.Inv → s.AtRest → chunk.length < 2 ^ 30 →
        s.port = { overlaps := true, act := .command w m } :: later →
        pushChunk chunk s = .refused .commandWhilePushRuns)
    ∧ (∀ (s : State) (chunk : List Byte) (a : BitVec 30) (old new : Byte) (later : List HostAction),
        s.Inv → s.AtRest → chunk.length < 2 ^ 30 → chunk[a.toNat]? = some old → old ≠ new →
        s.port = { overlaps := true, act := .writeIbuf a new } :: later →
        pushChunk chunk s = .refused .ibufChangedDuringPush)

/-! ## The step -/

/-- A step runs what it fetches. At rest: nothing in the port, the state stays; a command word, exec of its decoding with
the chunk in IBUF; a direct codec call, exec of its decoding. Inside a PUSH that is looking for a header: exec of the
instruction decoded at the cursor, and after SYNC_CHECK the end of the PUSH (R62, R65). Payload bytes are no instruction:
they are sliced (R58). -/
def Obligations.StepRunsTheDecodedInstruction : Prop :=
  (∀ s : State, s.AtRest → s.port = [] → step s = .next s)
    ∧ (∀ (s : State) (o : Bool) (w : BitVec 32) (m : Memory) (later : List HostAction), s.AtRest →
        s.port = { overlaps := o, act := .command w m } :: later →
        step s = exec (decodeCommand w) { s with port := later, ibuf := m })
    ∧ (∀ (s : State) (o : Bool) (raw : BitVec 11) (later : List HostAction), s.AtRest →
        s.port = { overlaps := o, act := .classify raw } :: later →
        step s = exec (decodeFullness raw) { s with port := later })
    ∧ (∀ (s : State) (o : Bool) (bytes : List Byte) (i : Instr) (later : List HostAction), s.AtRest →
        s.port = { overlaps := o, act := .window bytes } :: later → decodeWindow bytes = some i →
        step s = exec i { s with port := later })
    ∧ (∀ (s : State) (r : PushRun) (i : Instr), s.run = some r → s.streaming = false → decodeWindow r.rest = some i →
        (∀ low, i ≠ .syncCheck low) → step s = exec i s)
    ∧ (∀ (s t : State) (r : PushRun) (low : BitVec 4), s.run = some r → s.streaming = false →
        decodeWindow r.rest = some (.syncCheck low) → exec (.syncCheck low) s = .next t → step s = endPush t r)
    ∧ (∀ (s : State) (r : PushRun), s.run = some r → s.streaming = true → r.rest ≠ [] →
        step s = .next (stepPayload s r))

/-- R97, R56. The atomic PUSH is its loop run to its end: from the state START_PUSH makes, some number of single steps
reaches the very state in which PUSH completes. That a PUSH in progress has steps of its own, one iteration each, is the
model's choice (log 1): R97 knows the atomic step alone. -/
def Obligations.AtomicPushIsItsStepsInOrder : Prop :=
  ∀ (s t : State) (len : BitVec 30), exec (.push len) s = .next t →
    ∃ held chunk n, carried s = some held ∧ memoryReadN s.ibuf 0 len.toNat = some chunk
      ∧ Host.Core.run Sys2Proof.core n (startPush len (held ++ chunk) s) = .next t

/-! ## Encoding -/

/-- Decoding what is encoded gives the instruction back, for every well-formed instruction and whatever follows its code
in the stream, as long as what follows leaves the window that instruction. -/
def Obligations.DecodeOfEncodeIsTheInstruction : Prop :=
  ∀ (i : Instr) (tail : List Byte), i.wf = true → i.tailOk tail = true →
    decode ((encode i).followedBy tail) = .ok i

/-- Encoding what is decoded gives the code back: every command word and every raw fullness value, and of a window the
bytes it begins with. No bit is dropped. -/
def Obligations.EncodeOfDecodeIsTheCode : Prop :=
  (∀ w : BitVec 32, encode (decodeCommand w) = .command w)
    ∧ (∀ raw : BitVec 11, encode (decodeFullness raw) = .fullness raw)
    ∧ (∀ (bytes : List Byte) (i : Instr), decodeWindow bytes = some i →
        ∃ code tail, encode i = .window code ∧ bytes = code ++ tail ∧ i.tailOk tail = true)

/-- Whatever the decoder answers is well-formed. -/
def Obligations.DecodeGivesWellFormedInstructions : Prop :=
  ∀ (c : Code) (i : Instr), decode c = .ok i → i.wf = true

/-- R31 (its table of word bits). The 56 header bits as one big-endian word: each field is at the word bits of the
table. -/
def Obligations.HeaderFieldsStandAtTheirWordBits : Prop :=
  ∀ w : BitVec 56,
    let h := fun k : Nat => w.extractLsb' (48 - 8 * k) 8
    syncBits (h 0) (h 1) = w.extractLsb' 44 12 ∧ protectionBit (h 1) = w.getLsbD 40
      ∧ fieldsOf (h 1) (h 2) (h 3) (h 4) (h 5) (h 6) = {
          mpegVersion := w.getLsbD 43
          layer := w.extractLsb' 41 2
          profile := w.extractLsb' 38 2
          sfIndex := w.extractLsb' 34 4
          privateBit := w.getLsbD 33
          channelConfiguration := w.extractLsb' 30 3
          originalCopy := w.getLsbD 29
          home := w.getLsbD 28
          copyrightBit := w.getLsbD 27
          copyrightStart := w.getLsbD 26
          frameLength := w.extractLsb' 13 13
          bufferFullness := w.extractLsb' 2 11
          rawBlocks := w.extractLsb' 0 2 }

/-- R31, R36, R77 and 95_test_vectors.md: words written out from the spec's encodings decode to what they stand for. -/
def Obligations.WrittenOutWordsDecode : Prop :=
  decodeTableWord 32 0x00000010 = some (.push 16)
    ∧ decodeTableWord 32 0x40000000 = some .reset
    ∧ decodeTableWord 32 0x40000001 = some (.cmdResetBadlen 1)
    ∧ decodeTableWord 32 0xC0000010 = some (.cmdReserved 0x40000010)
    ∧ decodeTableWord 16 0xFFF1 = some (.syncCheck 1)
    ∧ decodeTableWord 16 0xFFE1 = some (.syncMiss 0xFFE 1)
    ∧ decodeTableWord 56 0xFFF17480021FFC = some (.adtsErrSf13 5 0x080021FFC)
    ∧ decodeTableWord 56 0xFFF17C80021FFC = some (.adtsErrSf1415 5 1 0x080021FFC)
    ∧ decodeTableWord 11 0x7FF = some .bfVbr
    ∧ decodeTableWord 11 0x0FF = some (.bfCbr 255)
    ∧ decodeTableWord 56 0xFFF1508000DFFC = some (.adtsErrShort true {
        mpegVersion := false, layer := 0, profile := 1, sfIndex := 4, privateBit := false, channelConfiguration := 2,
        originalCopy := false, home := false, copyrightBit := false, copyrightStart := false, frameLength := 6,
        bufferFullness := 2047, rawBlocks := 0 })
    ∧ decodeTableWord 56 0xFFF15080021FFC = some (.adtsHdr7 {
        mpegVersion := false, layer := 0, profile := 1, sfIndex := 4, privateBit := false, channelConfiguration := 2,
        originalCopy := false, home := false, copyrightBit := false, copyrightStart := false, frameLength := 16,
        bufferFullness := 2047, rawBlocks := 0 })
    ∧ decodeTableWord 72 0xFFF80C400120031234 = some (.adtsHdr9 {
        mpegVersion := true, layer := 0, profile := 0, sfIndex := 3, privateBit := false, channelConfiguration := 1,
        originalCopy := false, home := false, copyrightBit := false, copyrightStart := false, frameLength := 9,
        bufferFullness := 0, rawBlocks := 3 } 0x1234)

/-! ## The codec -/

/-- R40. A pair passes SYNC_CHECK exactly when it is FF followed by F0 or more; the instruction completes with the value
true and writes nothing; a pair that fails is SYNC_MISS. -/
def Obligations.SyncCheckPassesExactlyTheSyncPairs : Prop :=
  (∀ b0 b1 : Byte, syncCheck b0 b1 = true ↔ b0 = 0xFF ∧ 0xF0 ≤ b1.toNat)
    ∧ (∀ (low : BitVec 4) (s : State), exec (.syncCheck low) s = .next { s with result := some (.sync true) })
    ∧ (∀ (b0 b1 : Byte) (t : List Byte), syncCheck b0 b1 = false →
        decodeWindow (b0 :: b1 :: t) = some (.syncMiss (syncBits b0 b1) (b1.extractLsb' 0 4)))

/-- R55. The codec called directly, no PUSH running (D33): it answers every window of at least L bytes, whatever their
values, with what HEADER_DECODE's own pseudocode (R41) returns, through the row the decoder reads from the window; and it
answers every byte pair, with true exactly if the pair passes SYNC_CHECK. Nothing else changes. -/
def Obligations.DirectCodecCallsReturnHeaderDecode : Prop :=
  (∀ (h0 h1 h2 h3 h4 h5 h6 : Byte) (t : List Byte) (s : State), s.AtRest →
      headerLength (protectionBit h1) ≤ t.length + 7 →
      ∃ answer i, headerDecode (h0 :: h1 :: h2 :: h3 :: h4 :: h5 :: h6 :: t) = some answer
        ∧ decodeWindow (h0 :: h1 :: h2 :: h3 :: h4 :: h5 :: h6 :: t) = some i
        ∧ exec i s = .next { s with result := some answer })
    ∧ (∀ (b0 b1 : Byte) (s : State), s.AtRest →
        ∃ answer i, decodeWindow [b0, b1] = some i ∧ exec i s = .next { s with result := some answer }
          ∧ (answer = .sync true ↔ syncCheck b0 b1 = true))

/-- R47, R50, R52, R53. A valid header's fields come from their own bytes and bits, all 11 fullness bits classified. -/
def Obligations.DecodedFieldsComeFromTheirBits : Prop :=
  ∀ (h0 h1 h2 h3 h4 h5 h6 : Byte) (t : List Byte) (h : Header),
    headerDecode (h0 :: h1 :: h2 :: h3 :: h4 :: h5 :: h6 :: t) = some (.header h) →
    h.mpegVersion = h1.getLsbD 3 ∧ h.protectionAbsent = h1.getLsbD 0 ∧ h.audioObjectType = h2.extractLsb' 6 2
      ∧ h.privateBit = h2.getLsbD 1
      ∧ h.channelConfiguration = h2.extractLsb' 0 1 ++ h3.extractLsb' 6 2
      ∧ h.home = h3.getLsbD 4
      ∧ h.bufferFullness = bfClassify (h5.extractLsb' 0 5 ++ h6.extractLsb' 2 6)
      ∧ h.numberOfBlocks.toNat = (h6.extractLsb' 0 2).toNat + 1

/-- The spec's sentences "Bit value 1 = original comes from the ADTS standard" (R49, G8) and "with bits 15:8 from byte 7"
(R54, R23, G3) are its general knowledge (log 9): is_original, and the CRC, which is there exactly in the 9-byte class. -/
def Obligations.OriginalFlagAndCrcAsTheSpecDecides : Prop :=
  ∀ (h0 h1 h2 h3 h4 h5 h6 : Byte) (t : List Byte) (h : Header),
    headerDecode (h0 :: h1 :: h2 :: h3 :: h4 :: h5 :: h6 :: t) = some (.header h) →
    h.isOriginal = h3.getLsbD 5
      ∧ (h1.getLsbD 0 = true → h.crc = none)
      ∧ (h1.getLsbD 0 = false → ∃ c0 c1 u, t = c0 :: c1 :: u ∧ h.crc = some (c0 ++ c1))

/-- R45. Indices 13 to 15 are decode errors with the index as detail, whatever frame_length is; a header that decodes has
an index of at most 12, reported unchanged. -/
def Obligations.SfIndexIsCheckedAndReported : Prop :=
  ∀ (h0 h1 h2 h3 h4 h5 h6 : Byte) (t : List Byte),
    let bytes := h0 :: h1 :: h2 :: h3 :: h4 :: h5 :: h6 :: t
    (syncCheck h0 h1 = true → headerLength (protectionBit h1) ≤ t.length + 7 → 13 ≤ (h2.extractLsb' 2 4).toNat →
        headerDecode bytes = some (.error (.reservedFieldValue (h2.extractLsb' 2 4))))
      ∧ (∀ h, headerDecode bytes = some (.header h) → h.sfIndex = h2.extractLsb' 2 4 ∧ h.sfIndex.toNat ≤ 12)

/-- R51. frame_length is assembled from its three bytes; below L it is a decode error with both as detail; a header that
decodes has at least L. That frame_length - L is then 0 to 8184 and cannot underflow is R51's own inference (it marks it
"[derived: from this rule and 30_encoding.md rule R34]"). -/
def Obligations.FrameLengthIsCheckedAndReported : Prop :=
  ∀ (h0 h1 h2 h3 h4 h5 h6 : Byte) (t : List Byte),
    let bytes := h0 :: h1 :: h2 :: h3 :: h4 :: h5 :: h6 :: t
    let frameLength : BitVec 13 := h3.extractLsb' 0 2 ++ h4 ++ h5.extractLsb' 5 3
    let length := if protectionBit h1 then 7 else 9
    (syncCheck h0 h1 = true → length ≤ t.length + 7 → (h2.extractLsb' 2 4).toNat ≤ 12 → frameLength.toNat < length →
        headerDecode bytes = some (.error (.frameTooShort frameLength (BitVec.ofNat 4 length))))
      ∧ (∀ h, headerDecode bytes = some (.header h) →
          h.frameLength = frameLength ∧ length ≤ h.frameLength.toNat ∧ h.frameLength.toNat - length ≤ 8184)

/-- R77. The two fullness rows complete in every state with the classification as their value, and nothing else changes;
2047 is the one VariableBitRate value. -/
def Obligations.FullnessRowsClassify : Prop :=
  (∀ s : State, exec .bfVbr s = .next { s with result := some (.fullness .variableBitRate) })
    ∧ (∀ (level : BitVec 11) (s : State), level ≠ 2047 →
        exec (.bfCbr level) s = .next { s with result := some (.fullness (.constantBitRate level)) })
    ∧ (∀ raw : BitVec 11, decodeFullness raw = if raw = 2047 then .bfVbr else .bfCbr raw)

/-- The spec's inference from R77: BF_CLASSIFY loses nothing. The raw value can be recovered, and a level is never 2047. -/
def Obligations.BufferFullnessLosesNothing : Prop :=
  (∀ a b : BitVec 11, bfClassify a = bfClassify b → a = b)
    ∧ (∀ a : BitVec 11, bfClassify a = .variableBitRate ↔ a.toNat = 2047)
    ∧ (∀ a level : BitVec 11, bfClassify a = .constantBitRate level → level = a ∧ level.toNat ≤ 2046)

/-! ## The framing machine, window by window -/

/-- R79. The four failing rows complete by error entry in a running PUSH: one ERROR record with the window's stream offset
modulo 2^64, the cursor one byte on, nothing else. Their details are those of R80. -/
def Obligations.FailingWindowsEnterTheirError : Prop :=
  ∀ (s : State) (r : PushRun), s.run = some r →
    let entered := fun e : HeaderError => Host.Outcome.next (φ := Fault) (ρ := Refusal) { s with
      events := s.events ++ [.error e (s.totalIn - s.fill.zeroExtend 64 + BitVec.ofNat 64 r.cursor)]
      run := some { r with cursor := r.cursor + 1, rest := r.rest.drop 1 } }
    (∀ sync low, exec (.syncMiss sync low) s = entered (.invalidSyncWord sync))
      ∧ (∀ high low, exec (.adtsErrSf13 high low) s = entered (.reservedFieldValue 13))
      ∧ (∀ high sfLow low, exec (.adtsErrSf1415 high sfLow low) s = entered (.reservedFieldValue (7#3 ++ sfLow)))
      ∧ (∀ protectionAbsent f, exec (.adtsErrShort protectionAbsent f) s =
          entered (.frameTooShort f.frameLength (if protectionAbsent then 7 else 9)))

/-- R55. The same four rows and the two header rows with no PUSH running: the codec's value, nothing else changed. -/
def Obligations.DirectWindowsOnlyReturnTheirValue : Prop :=
  ∀ s : State, s.AtRest →
    (∀ sync low, exec (.syncMiss sync low) s = .next { s with result := some (.error (.invalidSyncWord sync)) })
      ∧ (∀ high low, exec (.adtsErrSf13 high low) s =
          .next { s with result := some (.error (.reservedFieldValue 13)) })
      ∧ (∀ high sfLow low, exec (.adtsErrSf1415 high sfLow low) s =
          .next { s with result := some (.error (.reservedFieldValue (7#3 ++ sfLow))) })
      ∧ (∀ protectionAbsent f, exec (.adtsErrShort protectionAbsent f) s =
          .next { s with result := some (.error (.frameTooShort f.frameLength (if protectionAbsent then 7 else 9))) })
      ∧ (∀ f, exec (.adtsHdr7 f) s = .next { s with result := some (.header (headerOf true f none)) })
      ∧ (∀ f crc, exec (.adtsHdr9 f crc) s = .next { s with result := some (.header (headerOf false f (some crc))) })

/-- R61, R81. A running PUSH that is looking for a header at a pair that is no sync word: InvalidSyncWord with the 12 bits
observed and the pair's stream offset, before anything is known of the header's length. -/
def Obligations.BadPairRaisesInvalidSyncWord : Prop :=
  ∀ (s : State) (r : PushRun) (b0 b1 : Byte) (t : List Byte), s.run = some r → s.streaming = false →
    r.rest = b0 :: b1 :: t → ¬(b0 = 0xFF ∧ 0xF0 ≤ b1.toNat) →
    step s = .next { s with
      events := s.events ++ [.error (.invalidSyncWord (b0 ++ b1.extractLsb' 4 4))
        (s.totalIn - s.fill.zeroExtend 64 + BitVec.ofNat 64 r.cursor)]
      run := some { r with cursor := r.cursor + 1, rest := b1 :: t } }

/-- R45, R64, R82. A complete sync-checked header with sf_index 13, 14 or 15, whatever its frame_length: ReservedFieldValue
with that index, one byte on, nothing else. -/
def Obligations.ReservedSfIndexIsReportedFirst : Prop :=
  ∀ (s : State) (r : PushRun) (h0 h1 h2 h3 h4 h5 h6 : Byte) (t : List Byte), s.run = some r → s.streaming = false →
    headerPresent r.rest h0 h1 h2 h3 h4 h5 h6 t → 13 ≤ (h2.extractLsb' 2 4).toNat →
    step s = .next { s with
      events := s.events ++ [.error (.reservedFieldValue (h2.extractLsb' 2 4))
        (s.totalIn - s.fill.zeroExtend 64 + BitVec.ofNat 64 r.cursor)]
      run := some { r with cursor := r.cursor + 1, rest := r.rest.drop 1 } }

/-- R51, R64. A complete sync-checked header with a valid sf_index and a frame_length below L: FrameTooShort with both, one
byte on, nothing else. -/
def Obligations.ShortFrameIsReported : Prop :=
  ∀ (s : State) (r : PushRun) (h0 h1 h2 h3 h4 h5 h6 : Byte) (t : List Byte), s.run = some r → s.streaming = false →
    headerPresent r.rest h0 h1 h2 h3 h4 h5 h6 t → (h2.extractLsb' 2 4).toNat ≤ 12 →
    (h3.extractLsb' 0 2 ++ h4 ++ h5.extractLsb' 5 3 : BitVec 13).toNat < headerLength (protectionBit h1) →
    step s = .next { s with
      events := s.events ++ [.error
        (.frameTooShort (h3.extractLsb' 0 2 ++ h4 ++ h5.extractLsb' 5 3) (if protectionBit h1 then 7 else 9))
        (s.totalIn - s.fill.zeroExtend 64 + BitVec.ofNat 64 r.cursor)]
      run := some { r with cursor := r.cursor + 1, rest := r.rest.drop 1 } }

/-- R64. A running PUSH at a complete sync-checked header on which HEADER_DECODE returns an error: that error is raised at
the window's stream offset, the search goes on one byte later, and nothing else changes: no CONFIG, no FRAME_START, no
PAYLOAD, and CFG is not touched. -/
def Obligations.DecodeFailureEntersItsError : Prop :=
  ∀ (s : State) (r : PushRun) (h0 h1 h2 h3 h4 h5 h6 : Byte) (t : List Byte) (e : HeaderError), s.run = some r →
    s.streaming = false → headerPresent r.rest h0 h1 h2 h3 h4 h5 h6 t → headerDecode r.rest = some (.error e) →
    step s = .next { s with
      events := s.events ++ [.error e (s.totalIn - s.fill.zeroExtend 64 + BitVec.ofNat 64 r.cursor)]
      run := some { r with cursor := r.cursor + 1, rest := r.rest.drop 1 } }

/-- R63. A running PUSH at a complete sync-checked header that decodes as h: CONFIG first if the configuration is not the
stored one, then FRAME_START, the cursor past the L header bytes, REMAIN = frame_length - L; with payload to come STREAMING
is set, with none FRAME_COMPLETE follows at once. -/
def Obligations.HeaderAtTheCursorIsDelivered : Prop :=
  ∀ (s : State) (r : PushRun) (h0 h1 h2 h3 h4 h5 h6 : Byte) (t : List Byte) (h : Header), s.run = some r →
    s.streaming = false → s.cfg.isSome = s.cfgValid → headerPresent r.rest h0 h1 h2 h3 h4 h5 h6 t →
    headerDecode r.rest = some (.header h) →
    let length := if protectionBit h1 then 7 else 9
    ∃ u, step s = .next u
      ∧ u = { s with
          events := s.events
            ++ (if storedConfig s = some (configOf h) then [] else [.config (configOf h)])
            ++ (if h.frameLength.toNat = length then [.frameStart h, .frameComplete] else [.frameStart h])
          run := some { r with cursor := r.cursor + length, rest := r.rest.drop length }
          cfg := some (packConfig (configOf h))
          cfgValid := true
          remain := u.remain
          streaming := if h.frameLength.toNat = length then false else true }
      ∧ u.remain.toNat = h.frameLength.toNat - length

/-- R63, R74, for ADTS_HDR7 and ADTS_HDR9 in a running PUSH: CONFIG first if the configuration is not the stored one, then
FRAME_START, the cursor past the header, the configuration stored, REMAIN = frame_length - L; with payload to come
STREAMING is set, with none FRAME_COMPLETE follows at once. -/
def Obligations.HeadersAreDelivered : Prop :=
  ∀ (s : State) (r : PushRun), s.run = some r → s.cfg.isSome = s.cfgValid →
    let delivers := fun (i : Instr) (h : Header) (length : Nat) =>
      ∃ t, exec i s = .next t
        ∧ t = { s with
            events := s.events
              ++ (if storedConfig s = some (configOf h) then [] else [.config (configOf h)])
              ++ (if h.frameLength.toNat = length then [.frameStart h, .frameComplete] else [.frameStart h])
            run := some { r with cursor := r.cursor + length, rest := r.rest.drop length }
            cfg := some (packConfig (configOf h))
            cfgValid := true
            remain := t.remain
            streaming := if h.frameLength.toNat = length then s.streaming else true }
        ∧ t.remain.toNat = h.frameLength.toNat - length
    (∀ f, (Instr.adtsHdr7 f).wf = true → delivers (.adtsHdr7 f) (headerOf true f none) 7)
      ∧ (∀ f crc, (Instr.adtsHdr9 f crc).wf = true → delivers (.adtsHdr9 f crc) (headerOf false f (some crc)) 9)

/-- R60, R62, R65. A running PUSH ends when it is looking for a header and has fewer than 2 bytes left, or a right sync
word and fewer than L bytes, and when it is delivering payload and has no byte left: what is left goes into CARRY, the chunk
is counted, no record is emitted. -/
def Obligations.IncompleteHeaderIsCarriedWithoutError : Prop :=
  ∀ (s : State) (r : PushRun), s.run = some r → s.Quiet →
    (s.streaming = false ∧ carriedOk r.rest = true) ∨ (s.streaming = true ∧ r.rest = []) →
    step s = .next { s with
      carry := carryOf r.rest
      fill := BitVec.ofNat 4 r.rest.length
      totalIn := s.totalIn + r.len.zeroExtend 64
      ibuf := []
      run := none
      result := none }

/-- R58, R59. A running PUSH that is delivering payload and has bytes left: one PAYLOAD record of
k = min(REMAIN, |Q| - p) bytes at IBUF address p - F, REMAIN and the cursor moved by k, and FRAME_COMPLETE and
STREAMING 0 when REMAIN reaches 0. -/
def Obligations.PayloadIsSlicedFromTheChunk : Prop :=
  ∀ (s : State) (r : PushRun), s.Inv → s.run = some r → s.streaming = true → r.rest ≠ [] →
    ∃ k offset length t, k = min s.remain.toNat r.rest.length ∧ 1 ≤ k ∧ k ≤ 8184
      ∧ offset.toNat = r.cursor - s.fill.toNat ∧ s.fill.toNat ≤ r.cursor ∧ length.toNat = k
      ∧ step s = .next t
      ∧ t = { s with
          events := s.events ++ (if s.remain.toNat = k then [.payload offset length, .frameComplete]
            else [.payload offset length])
          run := some { r with cursor := r.cursor + k, rest := r.rest.drop k }
          remain := t.remain
          streaming := if s.remain.toNat = k then false else true }
      ∧ t.remain.toNat = s.remain.toNat - k

/-- R25, R58. The slice a PAYLOAD record names is exactly the next k bytes of the stream, in IBUF. -/
def Obligations.PayloadSliceIsTheNextStreamBytes : Prop :=
  ∀ (s t : State) (r : PushRun), s.Inv → s.run = some r → s.streaming = true → r.rest ≠ [] → step s = .next t →
    ∃ offset length, t.events[s.events.length]? = some (.payload offset length)
      ∧ memoryReadN s.ibuf offset.toNat length.toNat = some (r.rest.take length.toNat)

/-! ## PUSH -/

/-- R56, R65, R66. PUSH of any chunk of fewer than 2^30 bytes completes in every legal state at rest: nothing is left
running, the chunk is counted modulo 2^64, the carried bytes are what is left of Q, records are only added, and neither
the outside nor what the consumer has read is touched. -/
def Obligations.PushCompletesAndConsumesItsChunk : Prop :=
  ∀ (s : State) (chunk : List Byte), s.Ready → chunk.length < 2 ^ 30 →
    ∃ t held used left, pushChunk chunk s = .next t ∧ t.AtRest ∧ t.ibuf = []
      ∧ t.totalIn = s.totalIn + BitVec.ofNat 64 chunk.length
      ∧ carried s = some held ∧ held ++ chunk = used ++ left ∧ carried t = some left ∧ left.length ≤ 8
      ∧ s.events <+: t.events ∧ t.port = s.port ∧ t.taken = s.taken ∧ t.result = none

/-- R66 (the spec's inference), as a count. Header bytes, payload bytes, one byte for every error, and what is left in CARRY
add up to the bytes that were carried and the chunk. Which bytes they are is RecordsStandForConsecutiveSegments. -/
def Obligations.EveryByteIsAccountedFor : Prop :=
  ∀ (s t : State) (chunk held left : List Byte), s.Inv → s.AtRest → chunk.length < 2 ^ 30 →
    pushChunk chunk s = .next t → carried s = some held → carried t = some left →
    held.length + chunk.length = ((newEvents s t).map spent).sum + left.length

/-- R66 (the spec's inference). Every byte of Q ends in exactly one place: the records of a PUSH stand, in order, for
consecutive segments of Q (a decoded header, a PAYLOAD slice, the first byte of a window that failed), from its first byte
on, and what follows the last of them is what is carried. -/
def Obligations.RecordsStandForConsecutiveSegments : Prop :=
  ∀ (s t : State) (chunk held : List Byte), s.Inv → s.AtRest → chunk.length < 2 ^ 30 →
    pushChunk chunk s = .next t → carried s = some held →
    ∃ p, cursorAfter (held ++ chunk) held.length (streamBase s) 0 (newEvents s t) = some p
      ∧ p ≤ (held ++ chunk).length ∧ carried t = some ((held ++ chunk).drop p)

/-- R68 (the spec's inference). The PUSH loop ends by itself. In every legal state it needs no more iterations than bytes are
left of Q, so at most FILL + LEN from the start; in any state whatever, two more (log 11: STREAMING 1 with REMAIN 0, which no
run reaches). -/
def Obligations.PushLoopAlwaysEnds : Prop :=
  (∀ (s : State) (r : PushRun), s.run = some r →
      ∃ r', (pushLoop (r.rest.length + 2) s).run = some r' ∧ pushIteration (pushLoop (r.rest.length + 2) s) r' = none)
    ∧ (∀ (s : State) (r : PushRun), s.Inv → s.run = some r →
        ∃ r', (pushLoop r.rest.length s).run = some r' ∧ pushIteration (pushLoop r.rest.length s) r' = none)

/-- R56, R65. An empty chunk emits nothing and changes nothing, not even TOTAL_IN. -/
def Obligations.EmptyPushChangesNothing : Prop :=
  ∀ s : State, s.Ready → pushChunk [] s = .next { s with result := none }

/-- R69 (the spec's inference from R57 to R65). Partition invariance: pushing two chunks one after the other leaves the
registers that pushing them as one leaves, and delivers the same records and payload bytes in the same order; only the
division of payload into PAYLOAD records may differ. -/
def Obligations.ChunkBoundariesDoNotChangeParsing : Prop :=
  ∀ (s s1 s2 : State) (a b : List Byte), s.Ready → a.length + b.length < 2 ^ 30 →
    pushChunk a s = .next s1 → pushChunk b s1 = .next s2 →
    ∃ t, pushChunk (a ++ b) s = .next t ∧ sameRegisters t s2
      ∧ transcript (a ++ b) (newEvents s t) = transcript a (newEvents s s1) ++ transcript b (newEvents s1 s2)

/-- R70, R63. Zero-copy fidelity for a frame inside one chunk, in both header classes: CONFIG if it changed, FRAME_START,
exactly the frame_length - L bytes after the header, FRAME_COMPLETE. -/
def Obligations.FramePayloadIsDeliveredExactly : Prop :=
  ∀ (s : State) (f : HeaderFields) (crc : Option (BitVec 16)) (payload tail : List Byte),
    let header := match crc with
      | none => headerBytes true f
      | some c => headerBytes false f ++ [c.extractLsb' 8 8, c.extractLsb' 0 8]
    let h := headerOf crc.isNone f crc
    s.Ready → s.streaming = false → s.fill = 0 → f.sfIndex.toNat ≤ 12 →
    f.frameLength.toNat = header.length + payload.length → (header ++ payload ++ tail).length < 2 ^ 30 →
    ∃ t later, pushChunk (header ++ payload ++ tail) s = .next t
      ∧ transcript (header ++ payload ++ tail) (newEvents s t) =
          (if storedConfig s = some (configOf h) then [] else [.record (.config (configOf h))])
            ++ [.record (.frameStart h)] ++ payload.map .byte ++ [.record .frameComplete] ++ later

/-- R67 (the spec's inference). Every PAYLOAD record of a PUSH lies inside the chunk and is not empty. -/
def Obligations.PayloadRecordsLieInTheChunk : Prop :=
  ∀ (s t : State) (chunk : List Byte) (offset : BitVec 30) (length : BitVec 13), s.Inv → s.AtRest →
    chunk.length < 2 ^ 30 → pushChunk chunk s = .next t → .payload offset length ∈ newEvents s t →
    1 ≤ length.toNat ∧ length.toNat ≤ 8184 ∧ offset.toNat + length.toNat ≤ chunk.length

/-- R83 (the spec's inference). The records of a PUSH come in order: per frame an optional CONFIG, FRAME_START, PAYLOAD
records, FRAME_COMPLETE; ERROR records only between frames; a frame may be open before the PUSH and after it. -/
def Obligations.RecordsComeInFrameOrder : Prop :=
  ∀ (s t : State) (chunk : List Byte), s.Inv → s.AtRest → chunk.length < 2 ^ 30 → pushChunk chunk s = .next t →
    phaseAfterAll s.channelPhase (newEvents s t) = some t.channelPhase

/-- R74 to R76. A CONFIG record comes exactly when the configuration differs from the last one emitted, before the
FRAME_START of the frame that brings it; the first frame after reset always has one; the last one emitted is the one
stored. -/
def Obligations.ConfigRecordsFollowTheConfiguration : Prop :=
  ∀ (s t : State) (chunk : List Byte), s.Inv → s.AtRest → chunk.length < 2 ^ 30 → pushChunk chunk s = .next t →
    configAfterAll (storedConfig s) (newEvents s t) = some (storedConfig t)

/-- R73. CFG_EQ compares all four fields, and NONE equals no configuration. -/
def Obligations.ConfigEqualityComparesAllFields : Prop :=
  (∀ c : EncoderConfig, configEq none c = false)
    ∧ ∀ a b : EncoderConfig, configEq (some a) b = true ↔
        a.mpegVersion = b.mpegVersion ∧ a.audioObjectType = b.audioObjectType ∧ a.sfIndex = b.sfIndex
          ∧ a.channelConfiguration = b.channelConfiguration

/-- R20 (the spec's inference). A PUSH that nothing overlaps reads only its chunk: what else a memory holds does not
matter. -/
def Obligations.PushReadsOnlyItsChunk : Prop :=
  ∀ (s : State) (len : BitVec 30) (m m' : Memory), s.Quiet →
    memoryReadN m 0 len.toNat = memoryReadN m' 0 len.toNat →
    exec (.push len) { s with ibuf := m } = exec (.push len) { s with ibuf := m' }

/-- R20 (the spec's inference). A payload byte's value is never read: chunks that differ only at addresses inside PAYLOAD
slices of the outcome, with whatever headers and other bytes before and after them, give the same outcome; in particular so
do chunks that are all payload of the frame being delivered, whatever their bytes. -/
def Obligations.PayloadValuesAreNeverRead : Prop :=
  (∀ (s t : State) (a b : List Byte), s.Ready → a.length = b.length → a.length < 2 ^ 30 → pushChunk a s = .next t →
      (∀ i, a[i]? ≠ b[i]? → inSlice (newEvents s t) i) → pushChunk b s = .next t)
    ∧ (∀ (s : State) (a b : List Byte), s.Ready → s.streaming = true → a.length = b.length →
        a.length ≤ s.remain.toNat → a.length < 2 ^ 30 → pushChunk a s = pushChunk b s)

/-! ## References and the outside -/

/-- R26. A read through a PAYLOAD reference after its PUSH has completed is a fault, whether no PUSH runs or a later one
does. -/
def Obligations.StaleReferencesFault : Prop :=
  (∀ (s : State) (o : Bool) (record index : Nat) (later : List HostAction), s.AtRest →
      s.port = { overlaps := o, act := .readPayload record index } :: later →
      step s = .fault .stalePayloadReference)
    ∧ (∀ (s : State) (chunk : List Byte) (record index : Nat) (later : List HostAction), s.Inv → s.AtRest →
        chunk.length < 2 ^ 30 → record < s.events.length →
        s.port = { overlaps := true, act := .readPayload record index } :: later →
        pushChunk chunk s = .fault .stalePayloadReference)

/-- R25, R26. While its PUSH runs, a reference reads the chunk's own byte: byte `index` of a slice is
IBUF[offset + index]. -/
def Obligations.LiveReferencesReadTheChunk : Prop :=
  ∀ (s t : State) (chunk : List Byte) (record index : Nat) (later : List HostAction) (offset : BitVec 30)
    (length : BitVec 13), s.Inv → s.AtRest → chunk.length < 2 ^ 30 →
    pushChunk chunk { s with port := [] } = .next t → s.events.length ≤ record →
    t.events[record]? = some (.payload offset length) → index < length.toNat →
    s.port = [{ overlaps := true, act := .readPayload record index }] ++ later →
    later.takeWhile (·.overlaps) = [] →
    ∃ b, chunk[offset.toNat + index]? = some b
      ∧ pushChunk chunk s = .next { t with taken := s.taken ++ [b], port := later }

/-- R95 (D25). A consumer that takes fewer records than a PUSH emits leaves it stuck; one that takes as many does not. -/
def Obligations.PushWaitsForItsConsumer : Prop :=
  ∀ (s t : State) (chunk : List Byte) (count : Nat), s.Inv → s.AtRest → chunk.length < 2 ^ 30 → s.port = [] →
    pushChunk chunk s = .next t →
    pushChunk chunk { s with port := [{ overlaps := true, act := .takeOnly count }] } =
      if count < (newEvents s t).length then .fault .consumerNeverTakes else .next t

/-- R22. The channel is append-only: no step reorders, drops or withdraws a record. -/
def Obligations.ChannelIsAppendOnly : Prop :=
  ∀ s t : State, step s = .next t → s.events <+: t.events

/-- R21. Nothing but the host writes IBUF: inside a PUSH every byte of it reads as before until the PUSH completes, and
then IBUF is gone. -/
def Obligations.BlockNeverWritesIbuf : Prop :=
  ∀ (s t : State) (r : PushRun), s.run = some r → step s = .next t →
    (t.run.isSome = true → ∀ a, memoryRead t.ibuf a = memoryRead s.ibuf a) ∧ (t.run = none → t.ibuf = [])

/-- R3, R90. A step of one instance leaves every other instance as it is, and depends on that instance alone. -/
def Obligations.InstancesShareNothing : Prop :=
  (∀ (units units' : List Slot) (k : Nat), unitStep units k = .next units' →
      units'.length = units.length ∧ ∀ j, j ≠ k → units'[j]? = units[j]?)
    ∧ (∀ (units units' others : List Slot) (k : Nat), unitStep units k = .next units' → others[k]? = units[k]? →
        ∃ others', unitStep others k = .next others' ∧ others'[k]? = units'[k]?)

/-- R92. Removing an instance emits nothing and touches no other; the events it has emitted stay as they are, through every
later step; a read through one of its PAYLOAD references faults (R26). That a removed instance keeps its place in the list is
the model's choice (log 14). -/
def Obligations.RemovalKeepsEmittedEvents : Prop :=
  ∀ (units : List Slot) (k : Nat) (s : State), units[k]? = some (.live s) →
    (∀ j, j ≠ k → (removeUnit units k)[j]? = units[j]?)
      ∧ ((removeUnit units k)[k]?).map slotEvents = some s.events
      ∧ (∀ units', unitStep (removeUnit units k) k = .next units' → (units'[k]?).map slotEvents = some s.events)
      ∧ (∀ (o : Bool) (record index : Nat) (later : List HostAction),
          s.port = { overlaps := o, act := .readPayload record index } :: later →
          unitStep (removeUnit units k) k = .fault .stalePayloadReference)

/-! ## The invariant -/

/-- Every step keeps the invariant: legal registers, memories in canonical form, a legal phase. -/
def Obligations.StepKeepsTheInvariant : Prop :=
  ∀ s t : State, s.Inv → step s = .next t → t.Inv

/-- The reset state meets the invariant. -/
def Obligations.ResetStateMeetsTheInvariant : Prop := State.reset.Inv

/-- R16 (the spec's inference). After every command that completes in a legal state: FILL is at most 8; a frame being
delivered has no carried byte and 1 to 8184 bytes to come; otherwise two or more carried bytes begin with a sync word and
are fewer than their header. -/
def Obligations.CommandsLeaveTheRestInvariant : Prop :=
  ∀ (s t : State) (i : Instr), s.Inv → s.AtRest → (∃ len, i = .push len) ∨ i = .reset →
    (∃ m, exec i { s with ibuf := m } = .next t) →
    t.AtRest ∧ t.fill.toNat ≤ 8
      ∧ (t.streaming = true → t.fill = 0 ∧ 1 ≤ t.remain.toNat ∧ t.remain.toNat ≤ 8184)
      ∧ (t.streaming = false → 2 ≤ t.fill.toNat → ∃ b0 b1, t.carry[0] = some b0 ∧ t.carry[1] = some b1
          ∧ b0 = 0xFF ∧ b1.extractLsb' 4 4 = 0xF ∧ t.fill.toNat < if b1.getLsbD 0 then 7 else 9)
end

