-- ==== Sys2Proof/Laws/Decode.lean ====
section
/-! SUPPORT. What the decoder can answer. -/
namespace Sys2Proof

/-- Under two bytes nothing is decoded (R60). -/
theorem decodeWindow_short {bytes : List Byte} (h : bytes.length < 2) : decodeWindow bytes = none := by
  match bytes, h with
  | [], _ => rfl
  | [_], _ => rfl

/-- A pair that is no sync word is SYNC_MISS, whatever follows it (R61). -/
theorem decodeWindow_miss {b0 b1 : Byte} (h : syncCheck b0 b1 = false) (t : List Byte) :
    decodeWindow (b0 :: b1 :: t) = some (.syncMiss (syncBits b0 b1) (b1.extractLsb' 0 4)) := by
  simp [decodeWindow, h]

/-- A sync-checked window shorter than its header is SYNC_CHECK (R62). -/
theorem decodeWindow_wait {b0 b1 : Byte} {t : List Byte} (h : syncCheck b0 b1 = true)
    (hl : t.length + 2 < headerLength (protectionBit b1)) :
    decodeWindow (b0 :: b1 :: t) = some (.syncCheck (b1.extractLsb' 0 4)) := by
  unfold headerLength at hl
  cases hp : protectionBit b1 <;> simp only [hp, ↓reduceIte, Bool.false_eq_true] at hl
  · match t, hl with
    | [], _ => simp [decodeWindow, h]
    | [_], _ => simp [decodeWindow, h]
    | [_, _], _ => simp [decodeWindow, h]
    | [_, _, _], _ => simp [decodeWindow, h]
    | [_, _, _, _], _ => simp [decodeWindow, h]
    | [_, _, _, _, _], _ => simp [decodeWindow, h, hp]
    | [_, _, _, _, _, _], _ => simp [decodeWindow, h, hp]
    | _ :: _ :: _ :: _ :: _ :: _ :: _ :: _, hl => simp only [List.length_cons] at hl; omega
  · match t, hl with
    | [], _ => simp [decodeWindow, h]
    | [_], _ => simp [decodeWindow, h]
    | [_, _], _ => simp [decodeWindow, h]
    | [_, _, _], _ => simp [decodeWindow, h]
    | [_, _, _, _], _ => simp [decodeWindow, h]
    | _ :: _ :: _ :: _ :: _ :: _, hl => simp only [List.length_cons] at hl; omega

/-- A complete sync-checked header without CRC (R62, R63). -/
theorem decodeWindow_seven {b0 b1 b2 b3 b4 b5 b6 : Byte} {t : List Byte} (h : syncCheck b0 b1 = true)
    (hp : protectionBit b1 = true) :
    decodeWindow (b0 :: b1 :: b2 :: b3 :: b4 :: b5 :: b6 :: t) =
      some (headerRow b1 b2 b3 b4 b5 b6 (.adtsHdr7 (fieldsOf b1 b2 b3 b4 b5 b6))) := by
  simp [decodeWindow, h, hp]

/-- A complete sync-checked header with CRC (R62, R63). -/
theorem decodeWindow_nine {b0 b1 b2 b3 b4 b5 b6 c0 c1 : Byte} {t : List Byte} (h : syncCheck b0 b1 = true)
    (hp : protectionBit b1 = false) :
    decodeWindow (b0 :: b1 :: b2 :: b3 :: b4 :: b5 :: b6 :: c0 :: c1 :: t) =
      some (headerRow b1 b2 b3 b4 b5 b6 (.adtsHdr9 (fieldsOf b1 b2 b3 b4 b5 b6) (c0 ++ c1))) := by
  simp [decodeWindow, h, hp]

/-- Every window is one of: under two bytes, SYNC_MISS, SYNC_CHECK with its header incomplete, a complete 7-byte header,
a complete 9-byte header. -/
theorem window_cases (bytes : List Byte) :
    bytes.length < 2
      ∨ (∃ b0 b1 t, bytes = b0 :: b1 :: t ∧ syncCheck b0 b1 = false)
      ∨ (∃ b0 b1 t, bytes = b0 :: b1 :: t ∧ syncCheck b0 b1 = true ∧ t.length + 2 < headerLength (protectionBit b1))
      ∨ (∃ b0 b1 b2 b3 b4 b5 b6 t, bytes = b0 :: b1 :: b2 :: b3 :: b4 :: b5 :: b6 :: t ∧ syncCheck b0 b1 = true
          ∧ protectionBit b1 = true)
      ∨ (∃ b0 b1 b2 b3 b4 b5 b6 c0 c1 t, bytes = b0 :: b1 :: b2 :: b3 :: b4 :: b5 :: b6 :: c0 :: c1 :: t
          ∧ syncCheck b0 b1 = true ∧ protectionBit b1 = false) := by
  match bytes with
  | [] => exact .inl (by simp)
  | [_] => exact .inl (by simp)
  | b0 :: b1 :: t =>
    refine .inr ?_
    cases hs : syncCheck b0 b1 with
    | false => exact .inl ⟨b0, b1, t, rfl, hs⟩
    | true =>
      refine .inr ?_
      by_cases hl : t.length + 2 < headerLength (protectionBit b1)
      · exact .inl ⟨b0, b1, t, rfl, hs, hl⟩
      · refine .inr ?_
        unfold headerLength at hl
        cases hp : protectionBit b1 with
        | true =>
          simp only [hp, ↓reduceIte, not_lt] at hl
          match t, hl with
          | b2 :: b3 :: b4 :: b5 :: b6 :: u, _ => exact .inl ⟨b0, b1, b2, b3, b4, b5, b6, u, rfl, hs, hp⟩
        | false =>
          simp only [hp, Bool.false_eq_true, ↓reduceIte, not_lt] at hl
          match t, hl with
          | b2 :: b3 :: b4 :: b5 :: b6 :: c0 :: c1 :: u, _ =>
            exact .inr ⟨b0, b1, b2, b3, b4, b5, b6, c0, c1, u, rfl, hs, hp⟩

/-- A complete header is one of the error rows, or the header row handed in, which then passes both checks (R41). -/
theorem headerRow_cases (h1 h2 h3 h4 h5 h6 : Byte) (good : Instr) :
    ((fieldsOf h1 h2 h3 h4 h5 h6).sfIndex = 13
        ∧ headerRow h1 h2 h3 h4 h5 h6 good = .adtsErrSf13 (highBits h1 h2) (lowBits h2 h3 h4 h5 h6))
      ∨ ((fieldsOf h1 h2 h3 h4 h5 h6).sfIndex.extractLsb' 1 3 = 7
        ∧ headerRow h1 h2 h3 h4 h5 h6 good = .adtsErrSf1415 (highBits h1 h2)
            ((fieldsOf h1 h2 h3 h4 h5 h6).sfIndex.extractLsb' 0 1) (lowBits h2 h3 h4 h5 h6))
      ∨ ((fieldsOf h1 h2 h3 h4 h5 h6).sfIndex.toNat ≤ 12
        ∧ (fieldsOf h1 h2 h3 h4 h5 h6).frameLength.toNat < headerLength (protectionBit h1)
        ∧ headerRow h1 h2 h3 h4 h5 h6 good = .adtsErrShort (protectionBit h1) (fieldsOf h1 h2 h3 h4 h5 h6))
      ∨ ((fieldsOf h1 h2 h3 h4 h5 h6).sfIndex.toNat ≤ 12
        ∧ headerLength (protectionBit h1) ≤ (fieldsOf h1 h2 h3 h4 h5 h6).frameLength.toNat
        ∧ headerRow h1 h2 h3 h4 h5 h6 good = good) := by
  have low : ∀ v : BitVec 4, v ≠ 13 → v.extractLsb' 1 3 ≠ 7 → v.toNat ≤ 12 := by decide
  unfold headerRow
  dsimp only
  split
  · exact .inl ⟨‹_›, rfl⟩
  · split
    · exact .inr (.inl ⟨‹_›, rfl⟩)
    · have := low _ ‹_› ‹_›
      split
      · exact .inr (.inr (.inl ⟨this, ‹_›, rfl⟩))
      · exact .inr (.inr (.inr ⟨this, by omega, rfl⟩))

/-- More bytes never change what a window is, unless it was waiting for them (R69). -/
theorem decodeWindow_append {bytes : List Byte} {i : Instr} (h : decodeWindow bytes = some i)
    (hw : ∀ low, i ≠ .syncCheck low) (more : List Byte) : decodeWindow (bytes ++ more) = some i := by
  obtain hl | ⟨b0, b1, t, rfl, hs⟩ | ⟨b0, b1, t, rfl, hs, hl⟩ | ⟨b0, b1, b2, b3, b4, b5, b6, t, rfl, hs, hp⟩ |
    ⟨b0, b1, b2, b3, b4, b5, b6, c0, c1, t, rfl, hs, hp⟩ := window_cases bytes
  · rw [decodeWindow_short hl] at h; cases h
  · rw [decodeWindow_miss hs] at h; rw [← h]; exact decodeWindow_miss hs _
  · rw [decodeWindow_wait hs hl] at h; cases h; exact absurd rfl (hw _)
  · rw [decodeWindow_seven hs hp] at h; rw [← h]; exact decodeWindow_seven hs hp
  · rw [decodeWindow_nine hs hp] at h; rw [← h]; exact decodeWindow_nine hs hp

/-- A row of a complete header is one of the rows of that class. -/
theorem decodeWindow_hdr7 {bytes : List Byte} {f : HeaderFields} (h : decodeWindow bytes = some (.adtsHdr7 f)) :
    7 ≤ bytes.length ∧ f.sfIndex.toNat ≤ 12 ∧ 7 ≤ f.frameLength.toNat
      ∧ ∃ b0 b1 t, bytes = b0 :: b1 :: t ∧ protectionBit b1 = true := by
  obtain hl | ⟨b0, b1, t, rfl, hs⟩ | ⟨b0, b1, t, rfl, hs, hl⟩ | ⟨b0, b1, b2, b3, b4, b5, b6, t, rfl, hs, hp⟩ |
    ⟨b0, b1, b2, b3, b4, b5, b6, c0, c1, t, rfl, hs, hp⟩ := window_cases bytes
  · rw [decodeWindow_short hl] at h; cases h
  · rw [decodeWindow_miss hs] at h; cases h
  · rw [decodeWindow_wait hs hl] at h; cases h
  · rw [decodeWindow_seven hs hp] at h
    obtain ⟨_, hr⟩ | ⟨_, hr⟩ | ⟨_, _, hr⟩ | ⟨h1, h2, hr⟩ :=
      headerRow_cases b1 b2 b3 b4 b5 b6 (.adtsHdr7 (fieldsOf b1 b2 b3 b4 b5 b6)) <;> rw [hr] at h <;> cases h
    exact ⟨by simp, h1, by simpa [hp, headerLength] using h2, b0, b1, _, rfl, hp⟩
  · rw [decodeWindow_nine hs hp] at h
    obtain ⟨_, hr⟩ | ⟨_, hr⟩ | ⟨_, _, hr⟩ | ⟨h1, h2, hr⟩ :=
      headerRow_cases b1 b2 b3 b4 b5 b6 (.adtsHdr9 (fieldsOf b1 b2 b3 b4 b5 b6) (c0 ++ c1)) <;> rw [hr] at h <;> cases h

theorem decodeWindow_hdr9 {bytes : List Byte} {f : HeaderFields} {crc : BitVec 16}
    (h : decodeWindow bytes = some (.adtsHdr9 f crc)) :
    9 ≤ bytes.length ∧ f.sfIndex.toNat ≤ 12 ∧ 9 ≤ f.frameLength.toNat
      ∧ ∃ b0 b1 t, bytes = b0 :: b1 :: t ∧ protectionBit b1 = false := by
  obtain hl | ⟨b0, b1, t, rfl, hs⟩ | ⟨b0, b1, t, rfl, hs, hl⟩ | ⟨b0, b1, b2, b3, b4, b5, b6, t, rfl, hs, hp⟩ |
    ⟨b0, b1, b2, b3, b4, b5, b6, c0, c1, t, rfl, hs, hp⟩ := window_cases bytes
  · rw [decodeWindow_short hl] at h; cases h
  · rw [decodeWindow_miss hs] at h; cases h
  · rw [decodeWindow_wait hs hl] at h; cases h
  · rw [decodeWindow_seven hs hp] at h
    obtain ⟨_, hr⟩ | ⟨_, hr⟩ | ⟨_, _, hr⟩ | ⟨h1, h2, hr⟩ :=
      headerRow_cases b1 b2 b3 b4 b5 b6 (.adtsHdr7 (fieldsOf b1 b2 b3 b4 b5 b6)) <;> rw [hr] at h <;> cases h
  · rw [decodeWindow_nine hs hp] at h
    obtain ⟨_, hr⟩ | ⟨_, hr⟩ | ⟨_, _, hr⟩ | ⟨h1, h2, hr⟩ :=
      headerRow_cases b1 b2 b3 b4 b5 b6 (.adtsHdr9 (fieldsOf b1 b2 b3 b4 b5 b6) (c0 ++ c1)) <;> rw [hr] at h <;> cases h
    exact ⟨by simp, h1, by simpa [hp, headerLength] using h2, b0, b1, _, rfl, hp⟩

/-- SYNC_CHECK is decoded only where the header is incomplete (R62): the window is what may be carried. -/
theorem decodeWindow_syncCheck {bytes : List Byte} {low : BitVec 4} (h : decodeWindow bytes = some (.syncCheck low)) :
    ∃ b0 b1 t, bytes = b0 :: b1 :: t ∧ syncCheck b0 b1 = true ∧ t.length + 2 < headerLength (protectionBit b1) := by
  obtain hl | ⟨b0, b1, t, rfl, hs⟩ | ⟨b0, b1, t, rfl, hs, hl⟩ | ⟨b0, b1, b2, b3, b4, b5, b6, t, rfl, hs, hp⟩ |
    ⟨b0, b1, b2, b3, b4, b5, b6, c0, c1, t, rfl, hs, hp⟩ := window_cases bytes
  · rw [decodeWindow_short hl] at h; cases h
  · rw [decodeWindow_miss hs] at h; cases h
  · exact ⟨b0, b1, t, rfl, hs, hl⟩
  · rw [decodeWindow_seven hs hp] at h
    obtain ⟨_, hr⟩ | ⟨_, hr⟩ | ⟨_, _, hr⟩ | ⟨h1, h2, hr⟩ :=
      headerRow_cases b1 b2 b3 b4 b5 b6 (.adtsHdr7 (fieldsOf b1 b2 b3 b4 b5 b6)) <;> rw [hr] at h <;> cases h
  · rw [decodeWindow_nine hs hp] at h
    obtain ⟨_, hr⟩ | ⟨_, hr⟩ | ⟨_, _, hr⟩ | ⟨h1, h2, hr⟩ :=
      headerRow_cases b1 b2 b3 b4 b5 b6 (.adtsHdr9 (fieldsOf b1 b2 b3 b4 b5 b6) (c0 ++ c1)) <;> rw [hr] at h <;> cases h

end Sys2Proof
end

