-- ==== Sys2Proof/Laws/Memory.lean ====
section
/-! SUPPORT. Memory: every operation keeps the canonical form; a read after a write; reading a placed chunk. -/
namespace Sys2Proof.Machine

theorem memoryWf_tail {c : Host.Cell} {m : Memory} (h : memoryWf (c :: m) = true) : memoryWf m = true := by
  cases m with
  | nil => rfl
  | cons d t =>
    simp only [memoryWf, Bool.and_eq_true] at h
    exact h.2

/-- Writing keeps the form, and the first address is the smaller of the two. -/
theorem memoryWrite_wf (m : Memory) (a : Nat) (b : Byte) (h : memoryWf m = true) :
    memoryWf (memoryWrite m a b) = true := by
  induction m with
  | nil => rfl
  | cons c t ih =>
    have ht := ih (memoryWf_tail h)
    by_cases hlt : c.1 < a
    · cases t with
      | nil => simp [memoryWrite, hlt, memoryWf]
      | cons d u =>
        simp only [memoryWf, Bool.and_eq_true, decide_eq_true_eq] at h
        by_cases hd : d.1 < a
        · simp only [memoryWrite, hlt, hd, ↓reduceIte, memoryWf, Bool.and_eq_true, decide_eq_true_eq] at ht ⊢
          exact ⟨h.1, ht⟩
        · by_cases he : d.1 = a
          · simp only [memoryWrite, hlt, he, ↓reduceIte, memoryWf, Bool.and_eq_true, decide_eq_true_eq,
              lt_self_iff_false] at ht ⊢
            exact ⟨trivial, ht⟩
          · simp only [memoryWrite, hlt, hd, he, ↓reduceIte, memoryWf, Bool.and_eq_true, decide_eq_true_eq] at ht ⊢
            exact ⟨trivial, ht⟩
    · by_cases he : c.1 = a
      · cases t with
        | nil => simp [memoryWrite, he, memoryWf]
        | cons d u =>
          simp only [memoryWf, Bool.and_eq_true, decide_eq_true_eq] at h
          simp only [memoryWrite, he, ↓reduceIte, memoryWf, Bool.and_eq_true, decide_eq_true_eq,
            lt_self_iff_false]
          exact ⟨by omega, h.2⟩
      · simp only [memoryWrite, hlt, he, ↓reduceIte, memoryWf, Bool.and_eq_true, decide_eq_true_eq]
        exact ⟨by omega, h⟩

/-- A read after a write to the same address gives the byte written. -/
theorem memoryRead_write_same (m : Memory) (a : Nat) (b : Byte) : memoryRead (memoryWrite m a b) a = some b := by
  induction m with
  | nil => simp [memoryWrite, memoryRead]
  | cons c t ih =>
    by_cases hlt : c.1 < a
    · simp [memoryWrite, hlt, memoryRead, show c.1 ≠ a by omega, ih]
    · by_cases he : c.1 = a <;> simp [memoryWrite, hlt, he, memoryRead]

/-- A write leaves every other address alone. -/
theorem memoryRead_write_other (m : Memory) (a a' : Nat) (b : Byte) (h : a' ≠ a) :
    memoryRead (memoryWrite m a b) a' = memoryRead m a' := by
  induction m with
  | nil => simp [memoryWrite, memoryRead, h.symm]
  | cons c t ih =>
    by_cases hlt : c.1 < a
    · simp [memoryWrite, hlt, memoryRead, ih]
    · by_cases he : c.1 = a
      · simp [memoryWrite, he, memoryRead, h.symm]
      · simp [memoryWrite, hlt, he, memoryRead, h.symm]

theorem memoryFrom_wf (bytes : List Byte) (a : Nat) : memoryWf (memoryFrom a bytes) = true := by
  induction bytes generalizing a with
  | nil => rfl
  | cons b bs ih =>
    have := ih (a + 1)
    cases bs with
    | nil => rfl
    | cons b' bs' => simp [memoryFrom, memoryWf] at this ⊢; exact this

/-- A placed chunk is in canonical form. -/
theorem memoryOf_wf (chunk : List Byte) : memoryWf (memoryOf chunk) = true := memoryFrom_wf chunk 0

/-- Byte `i` of bytes placed from an address on is at that address plus `i`. -/
theorem memoryRead_from (bytes : List Byte) (a i : Nat) : memoryRead (memoryFrom a bytes) (a + i) = bytes[i]? := by
  induction bytes generalizing a i with
  | nil => simp [memoryFrom, memoryRead]
  | cons b bs ih =>
    cases i with
    | zero => simp [memoryFrom, memoryRead]
    | succ j =>
      have := ih (a + 1) j
      simp only [memoryFrom, memoryRead, show a ≠ a + (j + 1) by omega, ↓reduceIte, List.getElem?_cons_succ]
      rw [← this]; congr 1; omega

/-- Byte `a` of a placed chunk. -/
theorem memoryRead_of (chunk : List Byte) (a : Nat) : memoryRead (memoryOf chunk) a = chunk[a]? := by
  have := memoryRead_from chunk 0 a
  simpa [memoryOf] using this

theorem memoryReadN_length {m : Memory} {a n : Nat} {bs : List Byte} (h : memoryReadN m a n = some bs) :
    bs.length = n := by
  induction n generalizing a bs with
  | zero => simp [memoryReadN] at h; simp [← h]
  | succ n ih =>
    simp only [memoryReadN] at h
    split at h
    · rename_i b t hb ht
      simp only [Option.some.injEq] at h
      simp [← h, ih ht]
    · simp at h

/-- A byte of a range read is the byte read at its address. -/
theorem memoryReadN_getElem {m : Memory} {a n : Nat} {bs : List Byte} (h : memoryReadN m a n = some bs) (i : Nat)
    (hi : i < n) : memoryRead m (a + i) = bs[i]? := by
  induction n generalizing a bs i with
  | zero => omega
  | succ n ih =>
    simp only [memoryReadN] at h
    split at h
    · rename_i b t hb ht
      simp only [Option.some.injEq] at h
      subst h
      cases i with
      | zero => simpa using hb
      | succ j =>
        have := ih ht j (by omega)
        simp only [List.getElem?_cons_succ, ← this]; congr 1; omega
    · simp at h

theorem memoryReadN_from (bytes rest : List Byte) (a : Nat) :
    memoryReadN (memoryFrom a (bytes ++ rest)) a bytes.length = some bytes := by
  suffices h : ∀ (pre bytes rest : List Byte),
      memoryReadN (memoryFrom a (pre ++ (bytes ++ rest))) (a + pre.length) bytes.length = some bytes by
    simpa using h [] bytes rest
  intro pre bytes
  induction bytes generalizing pre with
  | nil => intro rest; rfl
  | cons b bs ih =>
    intro rest
    have h1 := ih (pre ++ [b]) rest
    have h2 := memoryRead_from (pre ++ (b :: bs ++ rest)) a pre.length
    simp only [List.append_assoc, List.cons_append, List.nil_append, List.length_append, List.length_cons,
      List.length_nil, Nat.zero_add, ← Nat.add_assoc] at h1
    simp only [List.length_cons, memoryReadN, List.cons_append] at h2 ⊢
    rw [h2, h1]
    simp

/-- `MemRead(0, LEN)` of a placed chunk is the chunk. -/
theorem memoryReadN_of (chunk : List Byte) : memoryReadN (memoryOf chunk) 0 chunk.length = some chunk := by
  simpa [memoryOf] using memoryReadN_from chunk [] 0

end Sys2Proof.Machine
end

