-- ==== Sys2Proof/Laws/State.lean ====
section
/-! SUPPORT. What each named update does to each field of State: one lemma a field, so that no proof unfolds a record
update. -/
namespace Sys2Proof.Machine

/-! ## emit -/

@[simp] theorem State.emit_carry (s : State) (e : Event) : (s.emit e).carry = s.carry := rfl
@[simp] theorem State.emit_fill (s : State) (e : Event) : (s.emit e).fill = s.fill := rfl
@[simp] theorem State.emit_streaming (s : State) (e : Event) : (s.emit e).streaming = s.streaming := rfl
@[simp] theorem State.emit_remain (s : State) (e : Event) : (s.emit e).remain = s.remain := rfl
@[simp] theorem State.emit_cfgValid (s : State) (e : Event) : (s.emit e).cfgValid = s.cfgValid := rfl
@[simp] theorem State.emit_cfg (s : State) (e : Event) : (s.emit e).cfg = s.cfg := rfl
@[simp] theorem State.emit_totalIn (s : State) (e : Event) : (s.emit e).totalIn = s.totalIn := rfl
@[simp] theorem State.emit_ibuf (s : State) (e : Event) : (s.emit e).ibuf = s.ibuf := rfl
@[simp] theorem State.emit_events (s : State) (e : Event) : (s.emit e).events = s.events ++ [e] := rfl
@[simp] theorem State.emit_run (s : State) (e : Event) : (s.emit e).run = s.run := rfl
@[simp] theorem State.emit_port (s : State) (e : Event) : (s.emit e).port = s.port := rfl
@[simp] theorem State.emit_result (s : State) (e : Event) : (s.emit e).result = s.result := rfl
@[simp] theorem State.emit_taken (s : State) (e : Event) : (s.emit e).taken = s.taken := rfl

/-! ## withRun -/

@[simp] theorem State.withRun_carry (s : State) (r : PushRun) : (s.withRun r).carry = s.carry := rfl
@[simp] theorem State.withRun_fill (s : State) (r : PushRun) : (s.withRun r).fill = s.fill := rfl
@[simp] theorem State.withRun_streaming (s : State) (r : PushRun) : (s.withRun r).streaming = s.streaming := rfl
@[simp] theorem State.withRun_remain (s : State) (r : PushRun) : (s.withRun r).remain = s.remain := rfl
@[simp] theorem State.withRun_cfgValid (s : State) (r : PushRun) : (s.withRun r).cfgValid = s.cfgValid := rfl
@[simp] theorem State.withRun_cfg (s : State) (r : PushRun) : (s.withRun r).cfg = s.cfg := rfl
@[simp] theorem State.withRun_totalIn (s : State) (r : PushRun) : (s.withRun r).totalIn = s.totalIn := rfl
@[simp] theorem State.withRun_ibuf (s : State) (r : PushRun) : (s.withRun r).ibuf = s.ibuf := rfl
@[simp] theorem State.withRun_events (s : State) (r : PushRun) : (s.withRun r).events = s.events := rfl
@[simp] theorem State.withRun_run (s : State) (r : PushRun) : (s.withRun r).run = some r := rfl
@[simp] theorem State.withRun_port (s : State) (r : PushRun) : (s.withRun r).port = s.port := rfl
@[simp] theorem State.withRun_result (s : State) (r : PushRun) : (s.withRun r).result = s.result := rfl
@[simp] theorem State.withRun_taken (s : State) (r : PushRun) : (s.withRun r).taken = s.taken := rfl

/-! ## returns -/

@[simp] theorem State.returns_carry (s : State) (c : CodecResult) : (s.returns c).carry = s.carry := rfl
@[simp] theorem State.returns_fill (s : State) (c : CodecResult) : (s.returns c).fill = s.fill := rfl
@[simp] theorem State.returns_streaming (s : State) (c : CodecResult) : (s.returns c).streaming = s.streaming := rfl
@[simp] theorem State.returns_remain (s : State) (c : CodecResult) : (s.returns c).remain = s.remain := rfl
@[simp] theorem State.returns_cfgValid (s : State) (c : CodecResult) : (s.returns c).cfgValid = s.cfgValid := rfl
@[simp] theorem State.returns_cfg (s : State) (c : CodecResult) : (s.returns c).cfg = s.cfg := rfl
@[simp] theorem State.returns_totalIn (s : State) (c : CodecResult) : (s.returns c).totalIn = s.totalIn := rfl
@[simp] theorem State.returns_ibuf (s : State) (c : CodecResult) : (s.returns c).ibuf = s.ibuf := rfl
@[simp] theorem State.returns_events (s : State) (c : CodecResult) : (s.returns c).events = s.events := rfl
@[simp] theorem State.returns_run (s : State) (c : CodecResult) : (s.returns c).run = s.run := rfl
@[simp] theorem State.returns_port (s : State) (c : CodecResult) : (s.returns c).port = s.port := rfl
@[simp] theorem State.returns_result (s : State) (c : CodecResult) : (s.returns c).result = some c := rfl
@[simp] theorem State.returns_taken (s : State) (c : CodecResult) : (s.returns c).taken = s.taken := rfl

/-! ## raiseError -/

@[simp] theorem raiseError_carry (e : HeaderError) (s : State) (r : PushRun) : (raiseError e s r).carry = s.carry := rfl
@[simp] theorem raiseError_fill (e : HeaderError) (s : State) (r : PushRun) : (raiseError e s r).fill = s.fill := rfl
@[simp] theorem raiseError_streaming (e : HeaderError) (s : State) (r : PushRun) : (raiseError e s r).streaming = s.streaming := rfl
@[simp] theorem raiseError_remain (e : HeaderError) (s : State) (r : PushRun) : (raiseError e s r).remain = s.remain := rfl
@[simp] theorem raiseError_cfgValid (e : HeaderError) (s : State) (r : PushRun) : (raiseError e s r).cfgValid = s.cfgValid := rfl
@[simp] theorem raiseError_cfg (e : HeaderError) (s : State) (r : PushRun) : (raiseError e s r).cfg = s.cfg := rfl
@[simp] theorem raiseError_totalIn (e : HeaderError) (s : State) (r : PushRun) : (raiseError e s r).totalIn = s.totalIn := rfl
@[simp] theorem raiseError_ibuf (e : HeaderError) (s : State) (r : PushRun) : (raiseError e s r).ibuf = s.ibuf := rfl
@[simp] theorem raiseError_events (e : HeaderError) (s : State) (r : PushRun) : (raiseError e s r).events = s.events ++ [.error e (streamBase s + BitVec.ofNat 64 r.cursor)] := rfl
@[simp] theorem raiseError_run (e : HeaderError) (s : State) (r : PushRun) : (raiseError e s r).run = some (r.advance 1) := rfl
@[simp] theorem raiseError_port (e : HeaderError) (s : State) (r : PushRun) : (raiseError e s r).port = s.port := rfl
@[simp] theorem raiseError_result (e : HeaderError) (s : State) (r : PushRun) : (raiseError e s r).result = s.result := rfl
@[simp] theorem raiseError_taken (e : HeaderError) (s : State) (r : PushRun) : (raiseError e s r).taken = s.taken := rfl

/-! ## frameDone -/

@[simp] theorem frameDone_carry (s : State) : (frameDone s).carry = s.carry := rfl
@[simp] theorem frameDone_fill (s : State) : (frameDone s).fill = s.fill := rfl
@[simp] theorem frameDone_streaming (s : State) : (frameDone s).streaming = false := rfl
@[simp] theorem frameDone_remain (s : State) : (frameDone s).remain = s.remain := rfl
@[simp] theorem frameDone_cfgValid (s : State) : (frameDone s).cfgValid = s.cfgValid := rfl
@[simp] theorem frameDone_cfg (s : State) : (frameDone s).cfg = s.cfg := rfl
@[simp] theorem frameDone_totalIn (s : State) : (frameDone s).totalIn = s.totalIn := rfl
@[simp] theorem frameDone_ibuf (s : State) : (frameDone s).ibuf = s.ibuf := rfl
@[simp] theorem frameDone_events (s : State) : (frameDone s).events = s.events ++ [.frameComplete] := rfl
@[simp] theorem frameDone_run (s : State) : (frameDone s).run = s.run := rfl
@[simp] theorem frameDone_port (s : State) : (frameDone s).port = s.port := rfl
@[simp] theorem frameDone_result (s : State) : (frameDone s).result = s.result := rfl
@[simp] theorem frameDone_taken (s : State) : (frameDone s).taken = s.taken := rfl

/-! ## startPush -/

@[simp] theorem startPush_carry (len : BitVec 30) (q : List Byte) (s : State) : (startPush len q s).carry = s.carry := rfl
@[simp] theorem startPush_fill (len : BitVec 30) (q : List Byte) (s : State) : (startPush len q s).fill = s.fill := rfl
@[simp] theorem startPush_streaming (len : BitVec 30) (q : List Byte) (s : State) : (startPush len q s).streaming = s.streaming := rfl
@[simp] theorem startPush_remain (len : BitVec 30) (q : List Byte) (s : State) : (startPush len q s).remain = s.remain := rfl
@[simp] theorem startPush_cfgValid (len : BitVec 30) (q : List Byte) (s : State) : (startPush len q s).cfgValid = s.cfgValid := rfl
@[simp] theorem startPush_cfg (len : BitVec 30) (q : List Byte) (s : State) : (startPush len q s).cfg = s.cfg := rfl
@[simp] theorem startPush_totalIn (len : BitVec 30) (q : List Byte) (s : State) : (startPush len q s).totalIn = s.totalIn := rfl
@[simp] theorem startPush_ibuf (len : BitVec 30) (q : List Byte) (s : State) : (startPush len q s).ibuf = s.ibuf := rfl
@[simp] theorem startPush_events (len : BitVec 30) (q : List Byte) (s : State) : (startPush len q s).events = s.events := rfl
@[simp] theorem startPush_run (len : BitVec 30) (q : List Byte) (s : State) : (startPush len q s).run = some { len := len, cursor := 0, rest := q, firstEvent := s.events.length } := rfl
@[simp] theorem startPush_port (len : BitVec 30) (q : List Byte) (s : State) : (startPush len q s).port = s.port := rfl
@[simp] theorem startPush_result (len : BitVec 30) (q : List Byte) (s : State) : (startPush len q s).result = s.result := rfl
@[simp] theorem startPush_taken (len : BitVec 30) (q : List Byte) (s : State) : (startPush len q s).taken = s.taken := rfl

/-! ## finishPush -/

@[simp] theorem finishPush_carry (s : State) (r : PushRun) : (finishPush s r).carry = carryOf r.rest := rfl
@[simp] theorem finishPush_fill (s : State) (r : PushRun) : (finishPush s r).fill = BitVec.ofNat 4 r.rest.length := rfl
@[simp] theorem finishPush_streaming (s : State) (r : PushRun) : (finishPush s r).streaming = s.streaming := rfl
@[simp] theorem finishPush_remain (s : State) (r : PushRun) : (finishPush s r).remain = s.remain := rfl
@[simp] theorem finishPush_cfgValid (s : State) (r : PushRun) : (finishPush s r).cfgValid = s.cfgValid := rfl
@[simp] theorem finishPush_cfg (s : State) (r : PushRun) : (finishPush s r).cfg = s.cfg := rfl
@[simp] theorem finishPush_totalIn (s : State) (r : PushRun) : (finishPush s r).totalIn = s.totalIn + r.len.zeroExtend 64 := rfl
@[simp] theorem finishPush_ibuf (s : State) (r : PushRun) : (finishPush s r).ibuf = [] := rfl
@[simp] theorem finishPush_events (s : State) (r : PushRun) : (finishPush s r).events = s.events := rfl
@[simp] theorem finishPush_run (s : State) (r : PushRun) : (finishPush s r).run = none := rfl
@[simp] theorem finishPush_port (s : State) (r : PushRun) : (finishPush s r).port = s.port := rfl
@[simp] theorem finishPush_result (s : State) (r : PushRun) : (finishPush s r).result = none := rfl
@[simp] theorem finishPush_taken (s : State) (r : PushRun) : (finishPush s r).taken = s.taken := rfl

/-! ## configDetect -/

@[simp] theorem configDetect_carry (h : Header) (s : State) : (configDetect h s).carry = s.carry := by
  unfold configDetect; split <;> rfl
@[simp] theorem configDetect_fill (h : Header) (s : State) : (configDetect h s).fill = s.fill := by
  unfold configDetect; split <;> rfl
@[simp] theorem configDetect_streaming (h : Header) (s : State) : (configDetect h s).streaming = s.streaming := by
  unfold configDetect; split <;> rfl
@[simp] theorem configDetect_remain (h : Header) (s : State) : (configDetect h s).remain = s.remain := by
  unfold configDetect; split <;> rfl
@[simp] theorem configDetect_totalIn (h : Header) (s : State) : (configDetect h s).totalIn = s.totalIn := by
  unfold configDetect; split <;> rfl
@[simp] theorem configDetect_ibuf (h : Header) (s : State) : (configDetect h s).ibuf = s.ibuf := by
  unfold configDetect; split <;> rfl
@[simp] theorem configDetect_run (h : Header) (s : State) : (configDetect h s).run = s.run := by
  unfold configDetect; split <;> rfl
@[simp] theorem configDetect_port (h : Header) (s : State) : (configDetect h s).port = s.port := by
  unfold configDetect; split <;> rfl
@[simp] theorem configDetect_result (h : Header) (s : State) : (configDetect h s).result = s.result := by
  unfold configDetect; split <;> rfl
@[simp] theorem configDetect_taken (h : Header) (s : State) : (configDetect h s).taken = s.taken := by
  unfold configDetect; split <;> rfl

/-! ## deliverHeader -/

@[simp] theorem deliverHeader_carry (h : Header) (s : State) (r : PushRun) : (deliverHeader h s r).carry = s.carry := by
  unfold deliverHeader; dsimp only; split <;> simp
@[simp] theorem deliverHeader_fill (h : Header) (s : State) (r : PushRun) : (deliverHeader h s r).fill = s.fill := by
  unfold deliverHeader; dsimp only; split <;> simp
@[simp] theorem deliverHeader_totalIn (h : Header) (s : State) (r : PushRun) : (deliverHeader h s r).totalIn = s.totalIn := by
  unfold deliverHeader; dsimp only; split <;> simp
@[simp] theorem deliverHeader_ibuf (h : Header) (s : State) (r : PushRun) : (deliverHeader h s r).ibuf = s.ibuf := by
  unfold deliverHeader; dsimp only; split <;> simp
@[simp] theorem deliverHeader_port (h : Header) (s : State) (r : PushRun) : (deliverHeader h s r).port = s.port := by
  unfold deliverHeader; dsimp only; split <;> simp
@[simp] theorem deliverHeader_result (h : Header) (s : State) (r : PushRun) : (deliverHeader h s r).result = s.result := by
  unfold deliverHeader; dsimp only; split <;> simp
@[simp] theorem deliverHeader_taken (h : Header) (s : State) (r : PushRun) : (deliverHeader h s r).taken = s.taken := by
  unfold deliverHeader; dsimp only; split <;> simp
@[simp] theorem deliverHeader_run (h : Header) (s : State) (r : PushRun) :
    (deliverHeader h s r).run = some (r.advance (headerLength h.protectionAbsent)) := by
  unfold deliverHeader; dsimp only; split <;> simp
@[simp] theorem deliverHeader_remain (h : Header) (s : State) (r : PushRun) :
    (deliverHeader h s r).remain = h.frameLength - BitVec.ofNat 13 (headerLength h.protectionAbsent) := by
  unfold deliverHeader; dsimp only; split <;> simp
@[simp] theorem deliverHeader_cfg (h : Header) (s : State) (r : PushRun) :
    (deliverHeader h s r).cfg = (configDetect h s).cfg := by
  unfold deliverHeader; dsimp only; split <;> simp
@[simp] theorem deliverHeader_cfgValid (h : Header) (s : State) (r : PushRun) :
    (deliverHeader h s r).cfgValid = (configDetect h s).cfgValid := by
  unfold deliverHeader; dsimp only; split <;> simp

@[simp] theorem deliverHeader_streaming (h : Header) (s : State) (r : PushRun) :
    (deliverHeader h s r).streaming =
      if h.frameLength - BitVec.ofNat 13 (headerLength h.protectionAbsent) = 0 then s.streaming else true := by
  unfold deliverHeader; dsimp only; split <;> simp
@[simp] theorem deliverHeader_events (h : Header) (s : State) (r : PushRun) :
    (deliverHeader h s r).events = (configDetect h s).events ++
      if h.frameLength - BitVec.ofNat 13 (headerLength h.protectionAbsent) = 0 then [.frameStart h, .frameComplete]
      else [.frameStart h] := by
  unfold deliverHeader; dsimp only; split <;> simp

/-! ## stepPayload -/

@[simp] theorem stepPayload_carry (s : State) (r : PushRun) : (stepPayload s r).carry = s.carry := by
  unfold stepPayload; dsimp only; split <;> simp
@[simp] theorem stepPayload_fill (s : State) (r : PushRun) : (stepPayload s r).fill = s.fill := by
  unfold stepPayload; dsimp only; split <;> simp
@[simp] theorem stepPayload_cfgValid (s : State) (r : PushRun) : (stepPayload s r).cfgValid = s.cfgValid := by
  unfold stepPayload; dsimp only; split <;> simp
@[simp] theorem stepPayload_cfg (s : State) (r : PushRun) : (stepPayload s r).cfg = s.cfg := by
  unfold stepPayload; dsimp only; split <;> simp
@[simp] theorem stepPayload_totalIn (s : State) (r : PushRun) : (stepPayload s r).totalIn = s.totalIn := by
  unfold stepPayload; dsimp only; split <;> simp
@[simp] theorem stepPayload_ibuf (s : State) (r : PushRun) : (stepPayload s r).ibuf = s.ibuf := by
  unfold stepPayload; dsimp only; split <;> simp
@[simp] theorem stepPayload_port (s : State) (r : PushRun) : (stepPayload s r).port = s.port := by
  unfold stepPayload; dsimp only; split <;> simp
@[simp] theorem stepPayload_result (s : State) (r : PushRun) : (stepPayload s r).result = s.result := by
  unfold stepPayload; dsimp only; split <;> simp
@[simp] theorem stepPayload_taken (s : State) (r : PushRun) : (stepPayload s r).taken = s.taken := by
  unfold stepPayload; dsimp only; split <;> simp
@[simp] theorem stepPayload_run (s : State) (r : PushRun) :
    (stepPayload s r).run = some (r.advance (min s.remain.toNat r.rest.length)) := by
  unfold stepPayload; dsimp only; split <;> simp
@[simp] theorem stepPayload_remain (s : State) (r : PushRun) :
    (stepPayload s r).remain = s.remain - BitVec.ofNat 13 (min s.remain.toNat r.rest.length) := by
  unfold stepPayload; dsimp only; split <;> simp

@[simp] theorem stepPayload_streaming (s : State) (r : PushRun) :
    (stepPayload s r).streaming =
      if s.remain - BitVec.ofNat 13 (min s.remain.toNat r.rest.length) = 0 then false else s.streaming := by
  unfold stepPayload; dsimp only; split <;> simp
@[simp] theorem stepPayload_events (s : State) (r : PushRun) :
    (stepPayload s r).events = s.events
      ++ .payload (BitVec.ofNat 30 (r.cursor - s.fill.toNat)) (BitVec.ofNat 13 (min s.remain.toNat r.rest.length))
      :: if s.remain - BitVec.ofNat 13 (min s.remain.toNat r.rest.length) = 0 then [.frameComplete] else [] := by
  unfold stepPayload; dsimp only; split <;> simp

/-! ## advance -/

@[simp] theorem advance_len (r : PushRun) (n : Nat) : (r.advance n).len = r.len := rfl
@[simp] theorem advance_cursor (r : PushRun) (n : Nat) : (r.advance n).cursor = r.cursor + n := rfl
@[simp] theorem advance_rest (r : PushRun) (n : Nat) : (r.advance n).rest = r.rest.drop n := rfl
@[simp] theorem advance_firstEvent (r : PushRun) (n : Nat) : (r.advance n).firstEvent = r.firstEvent := rfl

end Sys2Proof.Machine
end

