-- ==== Sys2Proof/Laws/Ops.lean ====
section
/-! SUPPORT. Each shared operation once: everything it can do. -/
namespace Sys2Proof.Machine

/-! ## CARRY -/

theorem readCarryN_length {carry : Vector (Option Byte) 9} {fill a n : Nat} {bs : List Byte}
    (h : readCarryN carry fill a n = some bs) : bs.length = n := by
  induction n generalizing a bs with
  | zero => simp [readCarryN] at h; simp [← h]
  | succ n ih =>
    simp only [readCarryN] at h
    split at h
    · rename_i b t hb ht
      simp only [Option.some.injEq] at h
      simp [← h, ih ht]
    · simp at h

/-- There are FILL carried bytes (R10). -/
theorem carried_length {s : State} {held : List Byte} (h : carried s = some held) : held.length = s.fill.toNat :=
  readCarryN_length h

/-- The carried bytes depend on CARRY and FILL alone. -/
theorem carried_congr {s t : State} (hc : s.carry = t.carry) (hf : s.fill = t.fill) : carried s = carried t := by
  simp only [carried, hf, hc]

theorem carryOf_getElem? (bytes : List Byte) (h : bytes.length ≤ 9) (i : Nat) :
    ((carryOf bytes)[i]?).join = bytes[i]? := by
  unfold carryOf
  by_cases hi : i < 9
  · simp [hi]
  · simp [hi, List.getElem?_eq_none (show bytes.length ≤ i by omega)]

/-- Bytes saved in CARRY are the bytes carried (R57, R65). -/
theorem carried_carryOf {s : State} {bytes : List Byte} (hl : bytes.length ≤ 9) (hc : s.carry = carryOf bytes)
    (hf : s.fill = BitVec.ofNat 4 bytes.length) : carried s = some bytes := by
  have hfill : s.fill.toNat = bytes.length := by rw [hf, BitVec.toNat_ofNat]; omega
  have h : ∀ n a, a + n = bytes.length →
      readCarryN (carryOf bytes) bytes.length a n = some (bytes.drop a) := by
    intro n
    induction n with
    | zero => intro a ha; simp only [readCarryN, List.drop_eq_nil_of_le (show bytes.length ≤ a by omega)]
    | succ n ih =>
      intro a ha
      have hlt : a < bytes.length := by omega
      simp only [readCarryN, readCarry, hlt, ↓reduceIte, carryOf_getElem? bytes hl, ih (a + 1) (by omega),
        List.getElem?_eq_getElem hlt]
      rw [List.drop_eq_getElem_cons hlt]
  simpa [carried, hfill, hc] using h bytes.length 0 (by omega)

/-! ## The configuration -/

/-- A configuration survives its packing into CFG (R13). -/
@[simp] theorem unpackConfig_packConfig (c : EncoderConfig) : unpackConfig (packConfig c) = c := by
  obtain ⟨m, a, f, ch⟩ := c
  simp only [unpackConfig, packConfig, EncoderConfig.mk.injEq]
  refine ⟨?_, ?_, ?_, ?_⟩
  · simp only [BitVec.getLsbD_append]
    simp
  all_goals
    apply BitVec.eq_of_getLsbD_eq
    intro i hi
    interval_cases i <;> simp only [BitVec.getLsbD_append, BitVec.getLsbD_extractLsb'] <;> simp

/-- CFG_EQ is equality with a configuration that is there (R73). -/
theorem configEq_iff (held : Option EncoderConfig) (c : EncoderConfig) : configEq held c = true ↔ held = some c := by
  cases held with
  | none => simp [configEq]
  | some a => cases a; cases c; simp [configEq, and_assoc]

/-- CONFIG_DETECT on the configuration already stored: nothing (R74). -/
theorem configDetect_same {h : Header} {s : State} (hc : storedConfig s = some (configOf h)) : configDetect h s = s := by
  simp [configDetect, (configEq_iff _ _).2 hc]

/-- CONFIG_DETECT on any other: a CONFIG record, and the new configuration stored (R74). -/
theorem configDetect_new {h : Header} {s : State} (hc : storedConfig s ≠ some (configOf h)) :
    configDetect h s =
      { s.emit (.config (configOf h)) with cfg := some (packConfig (configOf h)), cfgValid := true } := by
  have : configEq (storedConfig s) (configOf h) = false := by
    rw [Bool.eq_false_iff, ne_eq, configEq_iff]; exact hc
  simp [configDetect, this]

/-- After CONFIG_DETECT the stored configuration is the header's (R74). -/
@[simp] theorem storedConfig_configDetect (h : Header) (s : State) :
    storedConfig (configDetect h s) = some (configOf h) := by
  by_cases hc : storedConfig s = some (configOf h)
  · rw [configDetect_same hc, hc]
  · rw [configDetect_new hc]; simp [storedConfig]

/-! ## Windows -/

theorem failingWindow_running {s : State} {r : PushRun} (h : s.run = some r) (e : HeaderError) :
    failingWindow e s = raiseError e s r := by simp [failingWindow, h]

theorem failingWindow_direct {s : State} (h : s.run = none) (e : HeaderError) :
    failingWindow e s = s.returns (.error e) := by simp [failingWindow, h]

theorem headerWindow_running {s : State} {r : PushRun} (h : s.run = some r) (hdr : Header) :
    headerWindow hdr s = deliverHeader hdr s r := by simp [headerWindow, h]

theorem headerWindow_direct {s : State} (h : s.run = none) (hdr : Header) :
    headerWindow hdr s = s.returns (.header hdr) := by simp [headerWindow, h]

/-! ## The end of a PUSH -/

/-- An overlapping act that lets the PUSH complete changes at most what the consumer has read. -/
theorem overlapAct_next {a : Act} {s t : State} {r : PushRun} (h : overlapAct a s r = .next t) :
    ∃ bytes, t = { s with taken := s.taken ++ bytes } := by
  have same : ∀ {x : State}, Host.Outcome.next x = Host.Outcome.next (φ := Fault) (ρ := Refusal) t →
      x = s → ∃ bytes, t = { s with taken := s.taken ++ bytes } := by
    intro x hx hs
    cases hx
    exact ⟨[], by simp [hs]⟩
  cases a with
  | command w m => simp [overlapAct] at h
  | writeIbuf addr value =>
    simp only [overlapAct] at h
    split at h
    · cases h
    · exact same h rfl
  | readPayload k i =>
    simp only [overlapAct] at h
    split at h
    · cases h; exact ⟨_, rfl⟩
    · cases h
  | takeOnly n =>
    simp only [overlapAct] at h
    split at h
    · cases h
    · exact same h rfl
  | window bytes => exact same h rfl
  | classify raw => exact same h rfl

theorem overlapActs_next {acts : List HostAction} {s t : State} {r : PushRun} (h : overlapActs acts s r = .next t) :
    ∃ bytes, t = { s with taken := s.taken ++ bytes } := by
  induction acts generalizing s with
  | nil => simp only [overlapActs, Host.Outcome.next.injEq] at h; exact ⟨[], by simp [h]⟩
  | cons a rest ih =>
    simp only [overlapActs] at h
    split at h
    · rename_i u hu
      obtain ⟨b1, rfl⟩ := overlapAct_next hu
      obtain ⟨b2, rfl⟩ := ih h
      exact ⟨b1 ++ b2, by simp⟩
    · cases h
    · cases h

/-- A PUSH that ends: what overlapped it is gone from the port, the consumer may have read bytes, and FINISH_PUSH has
run. -/
theorem endPush_next {s t : State} {r : PushRun} (h : endPush s r = .next t) :
    ∃ bytes, t = finishPush { s with port := s.port.dropWhile (·.overlaps), taken := s.taken ++ bytes } r := by
  simp only [endPush] at h
  split at h
  · rename_i u hu
    obtain ⟨b, rfl⟩ := overlapActs_next hu
    cases h
    exact ⟨b, rfl⟩
  · cases h
  · cases h

theorem dropWhile_of_takeWhile_nil {α : Type} {p : α → Bool} {l : List α} (h : l.takeWhile p = []) :
    l.dropWhile p = l := by
  have := List.takeWhile_append_dropWhile (p := p) (l := l)
  rw [h] at this; simpa using this

/-- With nothing overlapping, a PUSH whose loop has ended finishes. -/
theorem endPush_quiet {s : State} {r : PushRun} (h : s.port.takeWhile (·.overlaps) = []) :
    endPush s r = .next (finishPush s r) := by
  simp only [endPush, h, overlapActs, dropWhile_of_takeWhile_nil h]

/-! ## The loop -/

/-- What the loop's body does with a window it does not wait on: error entry, or the header decoded is delivered. -/
theorem windowStep_cases {i : Instr} {s t : State} {r : PushRun} (hr : s.run = some r) (h : windowStep i s = some t) :
    (∃ e, t = raiseError e s r)
      ∨ (∃ f, i = .adtsHdr7 f ∧ t = deliverHeader (headerOf true f none) s r)
      ∨ (∃ f crc, i = .adtsHdr9 f crc ∧ t = deliverHeader (headerOf false f (some crc)) s r) := by
  cases i <;> simp only [windowStep, Option.some.injEq, reduceCtorEq] at h
  · exact .inl ⟨_, by rw [← h]; exact failingWindow_running hr _⟩
  · exact .inl ⟨_, by rw [← h]; exact failingWindow_running hr _⟩
  · exact .inl ⟨_, by rw [← h]; exact failingWindow_running hr _⟩
  · exact .inl ⟨_, by rw [← h]; exact failingWindow_running hr _⟩
  · exact .inr (.inl ⟨_, rfl, by rw [← h]; exact headerWindow_running hr _⟩)
  · exact .inr (.inr ⟨_, _, rfl, by rw [← h]; exact headerWindow_running hr _⟩)

/-- One iteration of the PUSH loop is a payload slice, an error, or a header. -/
theorem pushIteration_cases {s t : State} {r : PushRun} (hr : s.run = some r) (h : pushIteration s r = some t) :
    (s.streaming = true ∧ r.rest ≠ [] ∧ t = stepPayload s r)
      ∨ (s.streaming = false ∧ ∃ i, decodeWindow r.rest = some i ∧ windowStep i s = some t
          ∧ ((∃ e, t = raiseError e s r)
            ∨ (∃ f, i = .adtsHdr7 f ∧ t = deliverHeader (headerOf true f none) s r)
            ∨ (∃ f crc, i = .adtsHdr9 f crc ∧ t = deliverHeader (headerOf false f (some crc)) s r))) := by
  unfold pushIteration at h
  cases hs : s.streaming <;> simp only [hs, ↓reduceIte, Bool.false_eq_true] at h
  · split at h
    · rename_i i hi
      exact .inr ⟨rfl, i, hi, h, windowStep_cases hr h⟩
    · cases h
  · split at h
    · cases h
    · rename_i hne
      cases h
      exact .inl ⟨rfl, by simpa [List.isEmpty_iff] using hne, rfl⟩

theorem pushLoop_stop {s : State} {r : PushRun} (hr : s.run = some r) (h : pushIteration s r = none) (fuel : Nat) :
    pushLoop fuel s = s := by
  cases fuel <;> simp [pushLoop, hr, h]

theorem pushLoop_more {s t : State} {r : PushRun} (hr : s.run = some r) (h : pushIteration s r = some t) (fuel : Nat) :
    pushLoop (fuel + 1) s = pushLoop fuel t := by
  simp [pushLoop, hr, h]

/-- A PUSH is still in progress after an iteration. -/
theorem pushIteration_run {s t : State} {r : PushRun} (hr : s.run = some r) (h : pushIteration s r = some t) :
    ∃ n, t.run = some (r.advance n) := by
  obtain ⟨_, _, rfl⟩ | ⟨_, _, _, _, ⟨e, rfl⟩ | ⟨f, _, rfl⟩ | ⟨f, crc, _, rfl⟩⟩ := pushIteration_cases hr h
  · exact ⟨_, stepPayload_run s r⟩
  · exact ⟨1, rfl⟩
  · exact ⟨_, deliverHeader_run _ s r⟩
  · exact ⟨_, deliverHeader_run _ s r⟩

/-- A property that every iteration keeps holds after the loop. -/
theorem pushLoop_induct {P : State → Prop}
    (keep : ∀ s r t, s.run = some r → P s → pushIteration s r = some t → P t) (fuel : Nat) {s : State} (h : P s) :
    P (pushLoop fuel s) := by
  induction fuel generalizing s with
  | zero => exact h
  | succ n ih =>
    simp only [pushLoop]
    split
    · exact h
    · rename_i r hr
      split
      · exact h
      · rename_i t ht
        exact ih (keep s r t hr h ht)

/-- A PUSH is still in progress after the loop. -/
theorem pushLoop_run (fuel : Nat) {s : State} {r : PushRun} (hr : s.run = some r) :
    ∃ r', (pushLoop fuel s).run = some r' := by
  refine pushLoop_induct (P := fun s => ∃ r', s.run = some r') ?_ fuel ⟨r, hr⟩
  intro s r t hr _ ht
  obtain ⟨n, hn⟩ := pushIteration_run hr ht
  exact ⟨_, hn⟩

/-! ## The commands -/

/-- A PUSH that completes: the carried bytes and the chunk are there, and the loop's end is followed by the end of the
PUSH. -/
theorem execPush_next {len : BitVec 30} {s t : State} (h : execPush len s = .next t) :
    s.run = none ∧ cfgMissing s = false ∧ ∃ held chunk r, carried s = some held
      ∧ memoryReadN s.ibuf 0 len.toNat = some chunk
      ∧ (pushLoop ((held ++ chunk).length + 2) (startPush len (held ++ chunk) s)).run = some r
      ∧ endPush (pushLoop ((held ++ chunk).length + 2) (startPush len (held ++ chunk) s)) r = .next t := by
  unfold execPush at h
  split at h
  · cases h
  · rename_i hrun
    split at h
    · cases h
    · rename_i hcfg
      split at h
      · cases h
      · cases h
      · rename_i held chunk hheld hchunk
        obtain ⟨r, hr⟩ := pushLoop_run ((held ++ chunk).length + 2) (startPush_run len (held ++ chunk) s)
        simp only [hr] at h
        refine ⟨?_, by simpa using hcfg, held, chunk, r, hheld, hchunk, hr, h⟩
        cases hs : s.run <;> simp_all

/-- A PUSH at rest with its bytes in place and nothing overlapping: START_PUSH, the loop, FINISH_PUSH. -/
theorem execPush_quiet {len : BitVec 30} {s : State} {held chunk : List Byte} (hrun : s.run = none)
    (hcfg : cfgMissing s = false) (hheld : carried s = some held)
    (hchunk : memoryReadN s.ibuf 0 len.toNat = some chunk) (hq : s.port.takeWhile (·.overlaps) = []) :
    ∃ r, (pushLoop ((held ++ chunk).length + 2) (startPush len (held ++ chunk) s)).run = some r
      ∧ execPush len s =
          .next (finishPush (pushLoop ((held ++ chunk).length + 2) (startPush len (held ++ chunk) s)) r) := by
  obtain ⟨r, hr⟩ := pushLoop_run ((held ++ chunk).length + 2) (startPush_run len (held ++ chunk) s)
  refine ⟨r, hr, ?_⟩
  have hport : (pushLoop ((held ++ chunk).length + 2) (startPush len (held ++ chunk) s)).port = s.port := by
    refine pushLoop_induct (P := fun t => t.port = s.port) ?_ _ (by simp)
    intro u r t hr hp ht
    obtain ⟨_, _, rfl⟩ | ⟨_, _, _, _, ⟨e, rfl⟩ | ⟨f, _, rfl⟩ | ⟨f, crc, _, rfl⟩⟩ := pushIteration_cases hr ht <;>
      simpa using hp
  unfold execPush
  simp only [hrun, Option.isSome_none, Bool.false_eq_true, ↓reduceIte, hcfg, hheld, hchunk, hr]
  exact endPush_quiet (by rw [hport]; exact hq)

/-! ## step -/

theorem step_running {s : State} {r : PushRun} (h : s.run = some r) : step s = runStep s r := by simp [step, h]

theorem step_idle {s : State} (h : s.run = none) (hp : s.port = []) : step s = .next s := by simp [step, h, hp]

theorem step_act {s : State} {a : HostAction} {later : List HostAction} (h : s.run = none) (hp : s.port = a :: later) :
    step s = restAct a.act { s with port := later } := by simp [step, h, hp]

end Sys2Proof.Machine
end

