-- ==== Sys2Proof/Laws/PerInstr.lean ====
section
/-! SUPPORT. Per instruction: the code has the width of the row's format (opcode_table.json: CMD32, PAIR16, ADTS56, ADTS7,
ADTS9, BF11). -/
namespace Sys2Proof.Laws.Format

/-- The width of a code in bits. -/
def bits : Code → Nat
  | .command _ => 32
  | .window bytes => 8 * bytes.length
  | .fullness _ => 11

/-- The width of a row's format in bits. -/
def rowBits : Instr → Nat
  | .push _ => 32
  | .reset => 32
  | .cmdReserved _ => 32
  | .cmdResetBadlen _ => 32
  | .syncCheck _ => 16
  | .syncMiss _ _ => 16
  | .adtsErrSf13 _ _ => 56
  | .adtsErrSf1415 _ _ _ => 56
  | .adtsErrShort _ _ => 56
  | .adtsHdr7 _ => 56
  | .adtsHdr9 _ _ => 72
  | .bfVbr => 11
  | .bfCbr _ => 11

/-- The encoder gives the row's width. -/
def Statement (i : Instr) : Prop := bits (encode i) = rowBits i

theorem push (len : BitVec 30) : Statement (.push len) := rfl
theorem reset : Statement .reset := rfl
theorem cmdReserved (rest : BitVec 31) : Statement (.cmdReserved rest) := rfl
theorem cmdResetBadlen (len : BitVec 30) : Statement (.cmdResetBadlen len) := rfl
theorem syncCheck (low : BitVec 4) : Statement (.syncCheck low) := rfl
theorem syncMiss (sync : BitVec 12) (low : BitVec 4) : Statement (.syncMiss sync low) := rfl
theorem adtsErrSf13 (high : BitVec 6) (low : BitVec 34) : Statement (.adtsErrSf13 high low) := rfl
theorem adtsErrSf1415 (high : BitVec 6) (sfLow : BitVec 1) (low : BitVec 34) :
    Statement (.adtsErrSf1415 high sfLow low) := rfl
theorem adtsErrShort (protectionAbsent : Bool) (f : HeaderFields) : Statement (.adtsErrShort protectionAbsent f) := rfl
theorem adtsHdr7 (f : HeaderFields) : Statement (.adtsHdr7 f) := rfl
theorem adtsHdr9 (f : HeaderFields) (crc : BitVec 16) : Statement (.adtsHdr9 f crc) := rfl
theorem bfVbr : Statement .bfVbr := rfl
theorem bfCbr (level : BitVec 11) : Statement (.bfCbr level) := rfl

end Sys2Proof.Laws.Format
end

