-- ==== Sys2Proof/Laws/Safety.lean ====
section
/-! SUPPORT. The parts of the invariant: what legal registers give, and what a legal point of a PUSH is. -/
namespace Sys2Proof.Machine

/-- Legal registers hold every carried byte. -/
theorem carried_of_registersOk {s : State} (h : s.RegistersOk) : ∃ held, carried s = some held := by
  obtain ⟨h8, hc, _⟩ := h
  have all : ∀ n a, a + n ≤ s.fill.toNat → ∃ l, readCarryN s.carry s.fill.toNat a n = some l := by
    intro n
    induction n with
    | zero => intro a _; exact ⟨[], rfl⟩
    | succ n ih =>
      intro a ha
      obtain ⟨l, hl⟩ := ih (a + 1) (by omega)
      have ha9 : a < 9 := by omega
      have h1 := hc ⟨a, ha9⟩
      simp only [Fin.getElem_fin, show a < s.fill.toNat by omega, decide_true] at h1
      obtain ⟨b, hb⟩ := Option.isSome_iff_exists.1 h1
      exact ⟨b :: l, by simp [readCarryN, readCarry, show a < s.fill.toNat by omega, ha9, hb, hl]⟩
  exact all s.fill.toNat 0 (by omega)

/-- Legal registers never lack a configuration they should hold. -/
theorem cfgMissing_of_registersOk {s : State} (h : s.RegistersOk) : cfgMissing s = false := by
  have := h.2.2.1
  unfold cfgMissing; cases hv : s.cfg <;> simp_all

/-- Legality of the registers depends on the registers alone. -/
theorem registersOk_congr {s t : State} (h : s.RegistersOk) (hc : t.carry = s.carry) (hf : t.fill = s.fill)
    (hv : t.cfgValid = s.cfgValid) (hg : t.cfg = s.cfg) (hr : t.remain.toNat ≤ 8184) : t.RegistersOk := by
  obtain ⟨a, b, c, d, e, f⟩ := h
  refine ⟨by rw [hf]; exact a, by rw [hf, hc]; exact b, by rw [hg, hv]; exact c, ?_, hr, ?_⟩
  · simpa [storedConfig, hg, hv] using d
  · rw [carried_congr hc hf]; exact f

/-- At a legal point of a PUSH the carried bytes and the chunk are there. -/
theorem runOk_bytes {s : State} {r : PushRun} (h : runOk s r = true) :
    ∃ held chunk, carried s = some held ∧ memoryReadN s.ibuf 0 r.len.toNat = some chunk := by
  unfold runOk at h
  split at h
  · rename_i a b; exact ⟨_, _, a, b⟩
  · cases h

/-- What a legal point of a PUSH is, clause by clause. -/
theorem runOk_iff {s : State} {r : PushRun} {held chunk : List Byte} (hh : carried s = some held)
    (hc : memoryReadN s.ibuf 0 r.len.toNat = some chunk) :
    runOk s r = true ↔
      r.cursor ≤ held.length + chunk.length ∧ r.rest = (held ++ chunk).drop r.cursor
        ∧ (s.streaming = true → held.length ≤ r.cursor ∧ 1 ≤ s.remain.toNat) ∧ r.firstEvent ≤ s.events.length := by
  simp only [runOk, hh, hc, Bool.and_eq_true, decide_eq_true_eq, beq_iff_eq, Bool.or_eq_true, Bool.not_eq_true']
  constructor
  · rintro ⟨⟨⟨a, b⟩, c⟩, d⟩
    refine ⟨a, b, ?_, d⟩
    intro hs
    simpa [hs] using c
  · rintro ⟨a, b, c, d⟩
    refine ⟨⟨⟨a, b⟩, ?_⟩, d⟩
    cases hs : s.streaming <;> simp_all

/-- The segments of records that come after others begin where those ended. -/
theorem cursorAfter_append (queue : List Byte) (held : Nat) (base : BitVec 64) (es es' : List Event) (p : Nat) :
    cursorAfter queue held base p (es ++ es') =
      (cursorAfter queue held base p es).bind (cursorAfter queue held base · es') := by
  induction es generalizing p with
  | nil => rfl
  | cons e es ih =>
    cases e with
    | config c => exact ih p
    | frameComplete => exact ih p
    | frameStart h =>
      simp only [List.cons_append, cursorAfter]
      split
      · exact ih _
      · rfl
    | payload offset length =>
      simp only [List.cons_append, cursorAfter]
      split
      · exact ih _
      · rfl
    | error e offset =>
      simp only [List.cons_append, cursorAfter]
      split
      · exact ih _
      · rfl

/-- A frame's remaining length after its header does not wrap (R71). -/
theorem frameLength_sub {v : BitVec 13} {length : Nat} (h9 : length ≤ 9) (h : length ≤ v.toNat) :
    (v - BitVec.ofNat 13 length).toNat = v.toNat - length := by
  rw [BitVec.toNat_sub_of_le]
  · rw [BitVec.toNat_ofNat]; congr 1; omega
  · rw [BitVec.le_def, BitVec.toNat_ofNat]; omega

/-- REMAIN after a slice of at most REMAIN bytes does not wrap (R71). -/
theorem remain_sub {v : BitVec 13} {k : Nat} (h : k ≤ v.toNat) : (v - BitVec.ofNat 13 k).toNat = v.toNat - k := by
  have := v.isLt
  rw [BitVec.toNat_sub_of_le]
  · rw [BitVec.toNat_ofNat]; congr 1; omega
  · rw [BitVec.le_def, BitVec.toNat_ofNat]; omega

end Sys2Proof.Machine
end

