-- ==== Sys2Proof/Laws/Units.lean ====
section
/-! SUPPORT. Systems of several instances: what a step and a removal can do. -/
namespace Sys2Proof.Machine

theorem onNext_eq_next {α β : Type} {f : α → β} {o : Host.Outcome α Fault Refusal} {b : β} :
    onNext f o = .next b ↔ ∃ t, o = .next t ∧ b = f t := by
  cases o <;> simp [onNext, eq_comm]

/-- A step of an instance of a system: the instance steps, the others stand still. -/
theorem unitStep_next {units units' : List Slot} {k : Nat} (h : unitStep units k = .next units') :
    (units[k]? = none ∧ units' = units)
      ∨ ∃ u v, units[k]? = some u ∧ slotStep u = .next v ∧ units' = units.set k v := by
  unfold unitStep at h
  split at h
  · rename_i hk
    cases h
    exact .inl ⟨hk, rfl⟩
  · rename_i u hu
    obtain ⟨v, hv, rfl⟩ := onNext_eq_next.1 h
    exact .inr ⟨u, v, hu, hv, rfl⟩

/-- An act on a removed instance leaves its channel. -/
theorem removedAct_next {a : Act} {r t : RemovedInstance} (h : removedAct a r = .next t) : t = r := by
  cases a <;> simp_all [removedAct]

/-- A removed instance emits nothing more. -/
theorem slotStep_removed {r : RemovedInstance} {v : Slot} (h : slotStep (.removed r) = .next v) :
    slotEvents v = r.events := by
  simp only [slotStep] at h
  split at h
  · cases h; rfl
  · obtain ⟨t, ht, rfl⟩ := onNext_eq_next.1 h
    simp [slotEvents, removedAct_next ht]

@[simp] theorem slotEvents_live (s : State) : slotEvents (.live s) = s.events := rfl

@[simp] theorem slotEvents_removed (r : RemovedInstance) : slotEvents (.removed r) = r.events := rfl

/-- Removing an instance emits nothing and withdraws nothing (R92). -/
@[simp] theorem slotEvents_removeSlot (u : Slot) : slotEvents (removeSlot u) = slotEvents u := by cases u <;> rfl

end Sys2Proof.Machine
end

