-- ==== Sys2Proof/Machine/Assembler.lean ====
section
/-! DEFINITION. The syntax of test programs (R39): one command a line, bytes as two hex digits, comments after a
semicolon. -/
namespace Sys2Proof.Machine

/-- A line's command. -/
inductive AsmCommand where
  | reset
  | push (chunk : List Byte)
deriving DecidableEq, Repr

/-- The value of a hex digit. -/
def hexDigit (c : Char) : Option (BitVec 4) :=
  let n := c.toNat
  if 48 ≤ n ∧ n ≤ 57 then some (BitVec.ofNat 4 (n - 48))
  else if 65 ≤ n ∧ n ≤ 70 then some (BitVec.ofNat 4 (n - 55))
  else if 97 ≤ n ∧ n ≤ 102 then some (BitVec.ofNat 4 (n - 87))
  else none

/-- The words of a line up to its comment, from the word read so far on. -/
def asmWords (word : List Char) : List Char → List (List Char)
  | [] => if word.isEmpty then [] else [word]
  | c :: cs =>
    if c = ';' then (if word.isEmpty then [] else [word])
    else if c = ' ' then (if word.isEmpty then asmWords [] cs else word :: asmWords [] cs)
    else asmWords (word ++ [c]) cs

/-- Bytes of two hex digits each. -/
def asmBytes : List (List Char) → Option (List Byte)
  | [] => some []
  | [hi, lo] :: ws =>
    match hexDigit hi, hexDigit lo, asmBytes ws with
    | some h, some l, some bs => some ((h ++ l) :: bs)
    | _, _, _ => none
  | _ :: _ => none

/-- One line: a command, nothing (a blank line or a comment), or no line of the language. A chunk of
2^30 bytes or more has no encoding (U22). -/
def asmLine (line : List Char) : Option (List AsmCommand) :=
  match asmWords [] line with
  | [] => some []
  | ['R', 'E', 'S', 'E', 'T'] :: [] => some [.reset]
  | ['P', 'U', 'S', 'H'] :: bytes =>
    match asmBytes bytes with
    | some bs => if bs.length < 2 ^ 30 then some [.push bs] else none
    | none => none
  | _ => none

/-- A line's command as the host issues it (R39): `CMD = 0x40000000`, or `0x00000000 | n` with the n bytes in IBUF. -/
def AsmCommand.action : AsmCommand → HostAction
  | .reset => { overlaps := false, act := .command 0x40000000 [] }
  | .push chunk => { overlaps := false, act := .command (BitVec.ofNat 32 chunk.length) (memoryOf chunk) }

end Sys2Proof.Machine
end

