-- ==== Sys2Proof/Tests/Slice0.lean ====
section
/-! SUPPORT. Tests: what WellFormed refuses, decoding of words written out from the spec, one step on small states with the
results of 95_test_vectors.md, and a witness for the hypotheses of every statement. -/
namespace Sys2Proof.Tests
open Sys2Proof.Machine

/-! ## Outcomes as data -/

/-- The next state, if there is one. -/
def nextOf (o : Host.Outcome State Fault Refusal) : Option State :=
  match o with
  | .next t => some t
  | .fault _ => none
  | .refused _ => none

/-- The refusal, if there is one. -/
def refusalOf (o : Host.Outcome State Fault Refusal) : Option Refusal :=
  match o with
  | .next _ => none
  | .fault _ => none
  | .refused q => some q

/-- The fault, if there is one. -/
def faultOf (o : Host.Outcome State Fault Refusal) : Option Fault :=
  match o with
  | .next _ => none
  | .fault f => some f
  | .refused _ => none

theorem eq_next_of_nextOf {o : Host.Outcome State Fault Refusal} {t : State} (h : nextOf o = some t) : o = .next t := by
  cases o <;> simp_all [nextOf]

/-- The state after a PUSH that completes. -/
def pushed (chunk : List Byte) (s : State) : State := (nextOf (pushChunk chunk s)).getD s

/-- The state after a step that completes. -/
def stepped (s : State) : State := (nextOf (step s)).getD s

/-! ## Small states -/

/-- Frame B of 95_test_vectors.md: 7 header bytes and 1 payload byte. -/
def frameB : List Byte := [0xFF, 0xF1, 0x50, 0x40, 0x01, 0x1F, 0xFC, 0x55]

/-- B's fields. -/
def fieldsB : HeaderFields where
  mpegVersion := false
  layer := 0
  profile := 1
  sfIndex := 4
  privateBit := false
  channelConfiguration := 1
  originalCopy := false
  home := false
  copyrightBit := false
  copyrightStart := false
  frameLength := 8
  bufferFullness := 2047
  rawBlocks := 0

/-- B's configuration, CONFIG(0, 1, 4, 1). -/
def configB : EncoderConfig where
  mpegVersion := false
  audioObjectType := 1
  sfIndex := 4
  channelConfiguration := 1

/-- A state inside a PUSH of `chunk` on a block just reset, before its first iteration. -/
def running (chunk : List Byte) : State :=
  startPush (BitVec.ofNat 30 chunk.length) chunk { State.reset with ibuf := memoryOf chunk }

/-- The PUSH in progress of `running chunk`. -/
def runOf (chunk : List Byte) : PushRun where
  len := BitVec.ofNat 30 chunk.length
  cursor := 0
  rest := chunk
  firstEvent := 0

/-- Inside a PUSH of frame B, its header delivered, its one payload byte left. -/
def streamingB : State := stepped (running frameB)

/-- The PUSH in progress of `streamingB`. -/
def runB : PushRun where
  len := 8
  cursor := 7
  rest := [0x55]
  firstEvent := 0

/-- At rest in the middle of frame B: only its header has been pushed. -/
def midB : State := pushed (frameB.take 7) State.reset

/-- Reset, with acts in the port. -/
def withPort (acts : List HostAction) : State := { State.reset with port := acts }

/-! ## WellFormed refuses -/

theorem test_wf_refuses_reset_badlen_zero : (Instr.cmdResetBadlen 0).wf = false := by decide
theorem test_wf_refuses_miss_of_the_sync_word : (Instr.syncMiss 0xFFF 0).wf = false := by decide
theorem test_wf_refuses_short_with_reserved_index :
    (Instr.adtsErrShort true { fieldsB with sfIndex := 13, frameLength := 6 }).wf = false := by decide
theorem test_wf_refuses_short_of_7 : (Instr.adtsErrShort true { fieldsB with frameLength := 7 }).wf = false := by decide
theorem test_wf_refuses_short_of_9 : (Instr.adtsErrShort false { fieldsB with frameLength := 9 }).wf = false := by decide
theorem test_wf_refuses_hdr7_with_reserved_index : (Instr.adtsHdr7 { fieldsB with sfIndex := 13 }).wf = false := by decide
theorem test_wf_refuses_hdr7_of_6 : (Instr.adtsHdr7 { fieldsB with frameLength := 6 }).wf = false := by decide
theorem test_wf_refuses_hdr9_with_reserved_index :
    (Instr.adtsHdr9 { fieldsB with sfIndex := 15, frameLength := 9 } 0).wf = false := by decide
theorem test_wf_refuses_hdr9_of_8 : (Instr.adtsHdr9 fieldsB 0).wf = false := by decide
theorem test_wf_refuses_cbr_2047 : (Instr.bfCbr 2047).wf = false := by decide

/-! ## Decoding words written out from the spec's encodings -/

/-- V-K3. -/
theorem test_decode_push : decodeTableWord 32 0x3FFFFFFF = some (.push 0x3FFFFFFF) := by decide
/-- V-K4. -/
theorem test_decode_reset : decodeTableWord 32 0x40000000 = some .reset := by decide
/-- OP = 01, the largest LEN (R36). -/
theorem test_decode_reset_badlen : decodeTableWord 32 0x7FFFFFFF = some (.cmdResetBadlen 0x3FFFFFFF) := by decide
/-- V-K6. -/
theorem test_decode_reserved : decodeTableWord 32 0x80000000 = some (.cmdReserved 0) := by decide
/-- V-S3. -/
theorem test_decode_sync_check : decodeTableWord 16 0xFFFF = some (.syncCheck 0xF) := by decide
/-- V-S6. -/
theorem test_decode_sync_miss : decodeTableWord 16 0x0FFF = some (.syncMiss 0x0FF 0xF) := by decide
/-- ID 1, protection_absent 1, profile 2, sf_index 13 by R31: 1111 1001, 10 1101 00. -/
theorem test_decode_sf13 : decodeTableWord 56 0xFFF9B400000001 = some (.adtsErrSf13 0x26 1) := by decide
/-- V-C3b. -/
theorem test_decode_sf14 : decodeTableWord 56 0xFFF17880021FFC = some (.adtsErrSf1415 5 0 0x80021FFC) := by decide
/-- V-C4b. -/
theorem test_decode_short : decodeTableWord 56 0xFFF05080011FFC =
    some (.adtsErrShort false { fieldsB with channelConfiguration := 2 }) := by decide
/-- V-C7: every flag bit of byte 3 set. -/
theorem test_decode_hdr7 : decodeTableWord 56 0xFFF153FC021FFC = some (.adtsHdr7 { fieldsB with
    privateBit := true, channelConfiguration := 7, originalCopy := true, home := true, copyrightBit := true,
    copyrightStart := true, frameLength := 16 }) := by decide
/-- V-C11. -/
theorem test_decode_hdr9 : decodeTableWord 72 0xFFF8C183FFF001FFFF = some (.adtsHdr9 { fieldsB with
    mpegVersion := true, profile := 3, sfIndex := 0, channelConfiguration := 6, frameLength := 8191,
    bufferFullness := 1024, rawBlocks := 1 } 0xFFFF) := by decide
/-- V-B6, in whole bytes. -/
theorem test_decode_vbr : decodeTableWord 16 0x07FF = some .bfVbr := by decide
/-- V-B5. -/
theorem test_decode_cbr : decodeTableWord 11 0x7FE = some (.bfCbr 2046) := by decide
/-- V-C9: layer 3 is accepted, the other fields as they are. -/
theorem test_decode_layer : decodeTableWord 56 0xFFF75040011FFC = some (.adtsHdr7 { fieldsB with layer := 3 }) := by decide
/-- Fewer than two bytes decode to nothing. -/
theorem test_decode_one_byte : decodeWindow [0xFF] = none := by decide

/-! ## Single steps -/

/-- Frame B in one PUSH, as V-F1: CONFIG, FRAME_START, PAYLOAD(7, 1), FRAME_COMPLETE. -/
theorem test_push_frame : (pushed frameB State.reset).events =
    [.config configB, .frameStart (headerOf true fieldsB none), .payload 7 1, .frameComplete] := by decide
/-- V-F16: zeros give one ERROR a window, and the last byte waits. -/
theorem test_push_zeros : (pushed [0, 0, 0] State.reset).events =
      [.error (.invalidSyncWord 0) 0, .error (.invalidSyncWord 0) 1]
    ∧ carried (pushed [0, 0, 0] State.reset) = some [0] := by decide
/-- V-R3: RESET in the middle of a frame. -/
theorem test_reset_mid_frame : (nextOf (exec .reset midB)).map
    (fun t => (t.streaming, t.remain, t.cfgValid, t.totalIn, t.events.length)) = some (false, 0, false, 0, 2) := by decide
/-- V-R2: the carried bytes are dropped with no record. -/
theorem test_reset_drops_carry : (nextOf (exec .reset (pushed [0xFF, 0xFF, 0xFF, 0xFF] State.reset))).map
    (fun t => (t.fill, t.events)) = some (0, []) := by decide
/-- V-K7. -/
theorem test_reserved_refused :
    refusalOf (step (State.reset.withFetchWord 32 0xC0000010)) = some .reservedCommand := by decide
/-- V-K5. -/
theorem test_reset_badlen_refused :
    refusalOf (step (State.reset.withFetchWord 32 0x40000001)) = some .resetWithLength := by decide
/-- V-S1, called directly. -/
theorem test_sync_check_direct :
    (stepped (withPort [⟨false, .window [0xFF, 0xF1]⟩])).result = some (.sync true) := by decide
/-- V-F15: a right sync word without its header waits in CARRY. -/
theorem test_sync_check_waits : (pushed [0xFF, 0xFF, 0xFF, 0xFF] State.reset).events = []
    ∧ carried (pushed [0xFF, 0xFF, 0xFF, 0xFF] State.reset) = some [0xFF, 0xFF, 0xFF, 0xFF] := by decide
/-- V-C13: the codec's own sync check. -/
theorem test_sync_miss_direct : (stepped (withPort [⟨false, .window [0xFE, 0xF1, 0x50, 0x80, 0x02, 0x1F, 0xFC]⟩])).result =
    some (.error (.invalidSyncWord 0xFEF)) := by decide
/-- V-F8's first window: ERROR(1, 0, 0x00F), one byte on. -/
theorem test_sync_miss_in_push : (stepped (running [0x00, 0xFF, 0x12])).events = [.error (.invalidSyncWord 0x00F) 0]
    ∧ ((stepped (running [0x00, 0xFF, 0x12])).run.map (·.rest)) = some [0xFF, 0x12] := by decide
/-- V-C3a. -/
theorem test_sf13_direct : (stepped (withPort [⟨false, .window [0xFF, 0xF1, 0x74, 0x80, 0x02, 0x1F, 0xFC]⟩])).result =
    some (.error (.reservedFieldValue 13)) := by decide
/-- V-F11's first window. -/
theorem test_sf13_in_push : (stepped (running [0xFF, 0xF1, 0x74, 0x80, 0x02, 0x1F, 0xFC])).events =
    [.error (.reservedFieldValue 13) 0] := by decide
/-- V-C5 and V-F19: index 15 with frame_length 0 reports the index. -/
theorem test_sf15_first : (stepped (running [0xFF, 0xF1, 0x7C, 0x80, 0x00, 0x1F, 0xFC])).events =
    [.error (.reservedFieldValue 15) 0] := by decide
/-- V-C4a. -/
theorem test_short_of_7 : (stepped (running [0xFF, 0xF1, 0x50, 0x80, 0x00, 0xDF, 0xFC])).events =
    [.error (.frameTooShort 6 7) 0] := by decide
/-- V-C4b: 8 is too short for a 9-byte header. -/
theorem test_short_of_9 : (stepped (running [0xFF, 0xF0, 0x50, 0x80, 0x01, 0x1F, 0xFC, 0xAB, 0xCD])).events =
    [.error (.frameTooShort 8 9) 0] := by decide
/-- V-C1, field by field. -/
theorem test_hdr7_record : (stepped (withPort [⟨false, .window [0xFF, 0xF1, 0x50, 0x80, 0x02, 0x1F, 0xFC]⟩])).result =
    some (.header {
      mpegVersion := false, protectionAbsent := true, audioObjectType := 1, sfIndex := 4, privateBit := false,
      channelConfiguration := 2, isOriginal := false, home := false, copyrightIdentifier := .absent,
      copyrightNumber := .absent, frameLength := 16, bufferFullness := .variableBitRate, numberOfBlocks := 1,
      crc := none }) := by decide
/-- Frame Z (V-F7): a frame without payload completes at once. -/
theorem test_hdr7_empty_frame : (pushed [0xFF, 0xF1, 0x50, 0x80, 0x00, 0xFF, 0xFC] State.reset).events.map Event.tag =
      [0, 1, 3]
    ∧ (pushed [0xFF, 0xF1, 0x50, 0x80, 0x00, 0xFF, 0xFC] State.reset).streaming = false := by decide
/-- V-C2, field by field. -/
theorem test_hdr9_record :
    (stepped (withPort [⟨false, .window [0xFF, 0xF8, 0x0C, 0x40, 0x01, 0x20, 0x03, 0x12, 0x34]⟩])).result =
    some (.header {
      mpegVersion := true, protectionAbsent := false, audioObjectType := 0, sfIndex := 3, privateBit := false,
      channelConfiguration := 1, isOriginal := false, home := false, copyrightIdentifier := .absent,
      copyrightNumber := .absent, frameLength := 9, bufferFullness := .constantBitRate 0, numberOfBlocks := 4,
      crc := some 0x1234 }) := by decide
/-- V-F3's second PUSH: the header's last byte comes alone, REMAIN 3. -/
theorem test_hdr9_split :
    let t := pushed [0xEF] (pushed [0xFF, 0xF0, 0x50, 0x80, 0x01, 0x9F, 0xFC, 0xBE] State.reset)
    (t.fill, t.streaming, t.remain, t.totalIn) = (0, true, 3, 9) := by decide
/-- V-B6. -/
theorem test_vbr : (stepped (State.reset.withFetchWord 11 0x7FF)).result = some (.fullness .variableBitRate) := by decide
/-- V-B3: bit 8 is kept. -/
theorem test_cbr_256 : (stepped (State.reset.withFetchWord 11 0x100)).result =
    some (.fullness (.constantBitRate 256)) := by decide
/-! ## CONFIG_DETECT and STEP_PAYLOAD -/

/-- V-G2 and V-G3: the same configuration gives no CONFIG, another one does. -/
theorem test_config_change : (pushed frameB (pushed frameB State.reset)).events.map Event.tag = [0, 1, 2, 3, 1, 2, 3]
    ∧ (pushed [0xFF, 0xF1, 0x50, 0x80, 0x00, 0xFF, 0xFC] (pushed frameB State.reset)).events.map Event.tag =
        [0, 1, 2, 3, 0, 1, 3] := by decide
/-- A frame's payload over two PUSHes counts from each chunk's own start (V-F4). -/
theorem test_payload_offset : (pushed [0x55] midB).events.drop 2 = [.payload 0 1, .frameComplete] := by decide

/-! ## The outside -/

/-- A read through a live reference gets the chunk's byte; the same read after the PUSH faults (R26). -/
theorem test_payload_reference :
    (pushed frameB (withPort [⟨true, .readPayload 2 0⟩])).taken = [0x55]
    ∧ faultOf (step { pushed frameB State.reset with port := [⟨false, .readPayload 2 0⟩] }) =
        some .stalePayloadReference := by decide
/-- A consumer that takes three of four records leaves the PUSH stuck (R95). -/
theorem test_consumer_stuck : faultOf (pushChunk frameB (withPort [⟨true, .takeOnly 3⟩])) = some .consumerNeverTakes
    ∧ (nextOf (pushChunk frameB (withPort [⟨true, .takeOnly 4⟩]))).isSome = true := by decide
/-- A chunk the host did not place cannot be read. -/
theorem test_missing_chunk : faultOf (exec (.push 1) State.reset) = some .ibufNoValue := by decide
/-- R94: with nothing in the port the block stays as it is. -/
theorem test_idle : nextOf (step State.reset) = some State.reset := by decide
/-- R38: CONFIG and FRAME_START have a frequency, SF_HZ of their index, and no other record has. -/
theorem test_record_frequency : (Event.config configB).samplingFrequency = some (Config.sfHz 4)
    ∧ (Event.frameStart (headerOf true fieldsB none)).samplingFrequency = some (Config.sfHz 4)
    ∧ Event.frameComplete.samplingFrequency = none := ⟨rfl, rfl, rfl⟩
/-- R92: after removal the channel is kept, a payload read faults, and a command has no instance to act on. -/
theorem test_removed_instance :
    (removeUnit [.live (pushed frameB State.reset)] 0).map (fun u => (slotEvents u).map Event.tag) = [[0, 1, 2, 3]]
    ∧ unitStep (removeUnit [.live (withPort [⟨false, .readPayload 0 0⟩])] 0) 0 = .fault .stalePayloadReference
    ∧ unitStep (removeUnit [.live (withPort [⟨false, .command 0x40000000 []⟩])] 0) 0 = .refused .instanceRemoved :=
  ⟨by decide, by rfl, by rfl⟩
/-- R39: a line, its comment, its bytes. -/
theorem test_assembler : asmLine ['P', 'U', 'S', 'H', ' ', 'F', 'F', ' ', 'f', '1', ' ', ';', 'x'] =
      some [.push [0xFF, 0xF1]]
    ∧ asmLine [';', 'x'] = some [] ∧ asmLine ['P', 'U', 'S', 'H', ' ', 'F'] = none := by decide
/-- Placing a byte keeps the order of addresses. -/
theorem test_memory_write : memoryWrite (memoryOf [1, 2]) 1 7 = [(0, 1), (1, 7)]
    ∧ memoryWrite [(0, 1), (2, 3)] 1 7 = [(0, 1), (1, 7), (2, 3)] := by decide

/-! ## Witnesses: each statement's hypotheses, clause by clause, met together -/

theorem nextOf_push_B : nextOf (pushChunk frameB State.reset) = some (pushed frameB State.reset) := by decide
theorem push_B : pushChunk frameB State.reset = .next (pushed frameB State.reset) := eq_next_of_nextOf nextOf_push_B
theorem reset_ready : State.reset.Ready := by decide
theorem midB_ready : midB.Ready ∧ midB.streaming = true ∧ midB.remain = 1 := by decide
theorem runningB_run : (running frameB).run = some (runOf frameB) ∧ (running frameB).Inv := by decide
theorem streamingB_run : streamingB.run = some runB ∧ streamingB.Inv ∧ streamingB.streaming = true := by decide

theorem witness_ResetRestoresEveryRegister_rest : midB.AtRest ∧ midB.streaming = true := by decide
theorem witness_ResetRestoresEveryRegister_running : (running frameB).run.isSome = true := by decide
theorem witness_ResetRestoresEveryRegister_badlen : (1 : BitVec 30) ≠ 0 ∧ (0x3FFFFFFF : BitVec 30) ≠ 0 := by decide
theorem witness_ResetStateHasTheStatedValues : midB.AtRest := by decide

theorem witness_CommandWordsHaveTheirMeaning_push :
    (0x00000000 : BitVec 32).extractLsb' 30 2 = 0 ∧ (0x3FFFFFFF : BitVec 32).extractLsb' 30 2 = 0 := by decide
theorem witness_CommandWordsHaveTheirMeaning_badlen :
    (0x40000001 : BitVec 32).extractLsb' 30 2 = 1 ∧ (0x40000001 : BitVec 32) ≠ 0x40000000
      ∧ (0x7FFFFFFF : BitVec 32).extractLsb' 30 2 = 1 ∧ (0x7FFFFFFF : BitVec 32) ≠ 0x40000000 := by decide
theorem witness_CommandWordsHaveTheirMeaning_reserved :
    2 ≤ ((0x80000000 : BitVec 32).extractLsb' 30 2).toNat ∧ 2 ≤ ((0xFFFFFFFF : BitVec 32).extractLsb' 30 2).toNat := by
  decide

/-- Reset with a command that overlaps the next PUSH. -/
theorem witness_MeaninglessCommandsAreRefused_overlap :
    (withPort [⟨true, .command 0x40000000 []⟩]).Inv ∧ (withPort [⟨true, .command 0x40000000 []⟩]).AtRest
      ∧ frameB.length < 2 ^ 30 := by decide
/-- Reset with a host write that changes the last byte of the chunk while the PUSH runs. -/
theorem witness_MeaninglessCommandsAreRefused_ibuf :
    (withPort [⟨true, .writeIbuf 7 0x56⟩]).Inv ∧ (withPort [⟨true, .writeIbuf 7 0x56⟩]).AtRest
      ∧ frameB.length < 2 ^ 30 ∧ frameB[(7 : BitVec 30).toNat]? = some 0x55 ∧ (0x55 : Byte) ≠ 0x56 := by decide

theorem witness_StepRunsTheDecodedInstruction_rest :
    State.reset.AtRest ∧ State.reset.port = [] ∧ (withPort [⟨false, .command 0x40000000 []⟩]).AtRest
      ∧ (withPort [⟨false, .classify 2047⟩]).AtRest ∧ (withPort [⟨false, .window [0xFF, 0xF1]⟩]).AtRest
      ∧ decodeWindow [0xFF, 0xF1] = some (.syncCheck 1) := by decide
theorem witness_StepRunsTheDecodedInstruction_window :
    (running frameB).run = some (runOf frameB) ∧ (running frameB).streaming = false
      ∧ decodeWindow (runOf frameB).rest = some (.adtsHdr7 fieldsB) ∧ (∀ low, Instr.adtsHdr7 fieldsB ≠ .syncCheck low) := by
  refine ⟨by decide, by decide, by decide, ?_⟩
  intro low h
  cases h
theorem witness_StepRunsTheDecodedInstruction_wait :
    (running [0xFF, 0xF1]).run = some (runOf [0xFF, 0xF1]) ∧ (running [0xFF, 0xF1]).streaming = false
      ∧ decodeWindow (runOf [0xFF, 0xF1]).rest = some (.syncCheck 1)
      ∧ (nextOf (exec (.syncCheck 1) (running [0xFF, 0xF1]))).isSome = true := by decide
theorem witness_StepRunsTheDecodedInstruction_payload :
    streamingB.run = some runB ∧ streamingB.streaming = true ∧ runB.rest ≠ [] := by decide
theorem witness_AtomicPushIsItsStepsInOrder :
    exec (.push 8) { State.reset with ibuf := memoryOf frameB } = .next (pushed frameB State.reset) := push_B

/-- One instruction of every constructor, with the longest or shortest tail its code admits. -/
theorem witness_DecodeOfEncodeIsTheInstruction :
    ((Instr.push 0x3FFFFFFF).wf && (Instr.push 0x3FFFFFFF).tailOk []
      && Instr.reset.wf && Instr.reset.tailOk [] && (Instr.cmdReserved 0).wf && (Instr.cmdReserved 0).tailOk []
      && (Instr.cmdResetBadlen 1).wf && (Instr.cmdResetBadlen 1).tailOk []
      && (Instr.syncCheck 1).wf && (Instr.syncCheck 1).tailOk [0, 0, 0, 0]
      && (Instr.syncCheck 0).wf && (Instr.syncCheck 0).tailOk [0, 0, 0, 0, 0, 0]
      && (Instr.syncMiss 0xFFE 1).wf && (Instr.syncMiss 0xFFE 1).tailOk []
      && (Instr.adtsErrSf13 5 0).wf && (Instr.adtsErrSf13 5 0).tailOk []
      && (Instr.adtsErrSf1415 1 1 0).wf && (Instr.adtsErrSf1415 1 1 0).tailOk [0, 0]
      && (Instr.adtsErrShort false fieldsB).wf && (Instr.adtsErrShort false fieldsB).tailOk [0, 0]
      && (Instr.adtsHdr7 { fieldsB with frameLength := 7 }).wf && (Instr.adtsHdr7 fieldsB).tailOk []
      && (Instr.adtsHdr9 { fieldsB with frameLength := 9 } 0xFFFF).wf && (Instr.adtsHdr9 fieldsB 0).tailOk [0]
      && Instr.bfVbr.wf && Instr.bfVbr.tailOk [] && (Instr.bfCbr 2046).wf && (Instr.bfCbr 2046).tailOk []) = true := by
  decide
theorem witness_EncodeOfDecodeIsTheCode : decodeWindow frameB = some (.adtsHdr7 fieldsB) := by decide
theorem witness_DecodeGivesWellFormedInstructions : decode (.window frameB) = .ok (.adtsHdr7 fieldsB) := by rfl

theorem witness_SyncCheckPassesExactlyTheSyncPairs : syncCheck 0xFF 0xEF = false ∧ syncCheck 0xFE 0xFF = false := by decide
/-- Both header classes at exactly L bytes. -/
theorem witness_DirectCodecCallsReturnHeaderDecode :
    State.reset.AtRest ∧ headerLength (protectionBit 0xF1) ≤ ([] : List Byte).length + 7
      ∧ headerLength (protectionBit 0xF0) ≤ ([0xAB, 0xCD] : List Byte).length + 7 := by decide
/-- V-C7 decodes. -/
theorem witness_DecodedFieldsComeFromTheirBits :
    headerDecode [0xFF, 0xF1, 0x53, 0xFC, 0x02, 0x1F, 0xFC] = some (.header (headerOf true { fieldsB with
      privateBit := true, channelConfiguration := 7, originalCopy := true, home := true, copyrightBit := true,
      copyrightStart := true, frameLength := 16 } none)) := by decide
/-- V-C7c and V-C4d: is_original with no CRC, and a header with one. -/
theorem witness_OriginalFlagAndCrcAsTheSpecDecides :
    headerDecode [0xFF, 0xF1, 0x50, 0x60, 0x02, 0x1F, 0xFC] = some (.header (headerOf true { fieldsB with
        originalCopy := true, frameLength := 16 } none)) ∧ (0xF1 : Byte).getLsbD 0 = true
      ∧ headerDecode [0xFF, 0xF0, 0x50, 0x80, 0x01, 0x3F, 0xFC, 0x00, 0x00] = some (.header (headerOf false { fieldsB with
        channelConfiguration := 2, frameLength := 9 } (some 0))) ∧ (0xF0 : Byte).getLsbD 0 = false := by decide
/-- Index 13 and index 12 (V-C3a, V-C3d). -/
theorem witness_SfIndexIsCheckedAndReported :
    syncCheck 0xFF 0xF1 = true ∧ headerLength (protectionBit 0xF1) ≤ ([] : List Byte).length + 7
      ∧ 13 ≤ ((0x74 : Byte).extractLsb' 2 4).toNat
      ∧ headerDecode [0xFF, 0xF1, 0x70, 0x80, 0x02, 0x1F, 0xFC] = some (.header (headerOf true { fieldsB with
          sfIndex := 12, channelConfiguration := 2, frameLength := 16 } none)) := by decide
/-- frame_length 6 (V-C4a), 8 with CRC (V-C4b), and 8191 (V-C10). -/
theorem witness_FrameLengthIsCheckedAndReported :
    syncCheck 0xFF 0xF1 = true ∧ ((0x50 : Byte).extractLsb' 2 4).toNat ≤ 12
      ∧ ((0x80 : Byte).extractLsb' 0 2 ++ (0x00 : Byte) ++ (0xDF : Byte).extractLsb' 5 3 : BitVec 13).toNat < 7
      ∧ ((0x80 : Byte).extractLsb' 0 2 ++ (0x01 : Byte) ++ (0x1F : Byte).extractLsb' 5 3 : BitVec 13).toNat < 9
      ∧ headerDecode [0xFF, 0xF1, 0x50, 0x83, 0xFF, 0xFF, 0xFE] = some (.header (headerOf true { fieldsB with
          channelConfiguration := 2, frameLength := 8191, rawBlocks := 2 } none)) := by decide
theorem witness_FullnessRowsClassify : (0 : BitVec 11) ≠ 2047 ∧ (2046 : BitVec 11) ≠ 2047 := by decide
theorem witness_BufferFullnessLosesNothing :
    bfClassify 2046 = bfClassify 2046 ∧ bfClassify 2046 = .constantBitRate 2046 := by decide

theorem witness_FailingWindowsEnterTheirError : (running [0, 0]).run = some (runOf [0, 0]) := by decide
theorem witness_DirectWindowsOnlyReturnTheirValue : midB.AtRest := by decide
theorem witness_BadPairRaisesInvalidSyncWord :
    (running [0xFF, 0xEF]).run = some (runOf [0xFF, 0xEF]) ∧ (running [0xFF, 0xEF]).streaming = false
      ∧ (runOf [0xFF, 0xEF]).rest = 0xFF :: 0xEF :: []
      ∧ ¬((0xFF : Byte) = 0xFF ∧ 0xF0 ≤ (0xEF : Byte).toNat) := by decide
/-- V-F19: index 15 and frame_length 0. -/
theorem witness_ReservedSfIndexIsReportedFirst :
    let w : List Byte := [0xFF, 0xF1, 0x7C, 0x80, 0x00, 0x1F, 0xFC]
    (running w).run = some (runOf w) ∧ (running w).streaming = false
      ∧ headerPresent (runOf w).rest 0xFF 0xF1 0x7C 0x80 0x00 0x1F 0xFC []
      ∧ 13 ≤ ((0x7C : Byte).extractLsb' 2 4).toNat := by decide
/-- V-C4b: frame_length 8 with CRC. -/
theorem witness_ShortFrameIsReported :
    let w : List Byte := [0xFF, 0xF0, 0x50, 0x80, 0x01, 0x1F, 0xFC, 0xAB, 0xCD]
    (running w).run = some (runOf w) ∧ (running w).streaming = false
      ∧ headerPresent (runOf w).rest 0xFF 0xF0 0x50 0x80 0x01 0x1F 0xFC [0xAB, 0xCD]
      ∧ ((0x50 : Byte).extractLsb' 2 4).toNat ≤ 12
      ∧ ((0x80 : Byte).extractLsb' 0 2 ++ (0x01 : Byte) ++ (0x1F : Byte).extractLsb' 5 3 : BitVec 13).toNat <
          headerLength (protectionBit 0xF0) := by decide
theorem witness_DecodeFailureEntersItsError :
    let w : List Byte := [0xFF, 0xF1, 0x50, 0x80, 0x00, 0xDF, 0xFC]
    (running w).run = some (runOf w) ∧ (running w).streaming = false
      ∧ headerPresent (runOf w).rest 0xFF 0xF1 0x50 0x80 0x00 0xDF 0xFC []
      ∧ headerDecode (runOf w).rest = some (.error (.frameTooShort 6 7)) := by decide
/-- Frame B (payload to come) and frame Z (none). -/
theorem witness_HeaderAtTheCursorIsDelivered :
    let z : List Byte := [0xFF, 0xF1, 0x50, 0x80, 0x00, 0xFF, 0xFC]
    (running frameB).run = some (runOf frameB) ∧ (running frameB).streaming = false
      ∧ (running frameB).cfg.isSome = (running frameB).cfgValid
      ∧ headerPresent (runOf frameB).rest 0xFF 0xF1 0x50 0x40 0x01 0x1F 0xFC [0x55]
      ∧ headerDecode (runOf frameB).rest = some (.header (headerOf true fieldsB none))
      ∧ (running z).run = some (runOf z) ∧ headerPresent (runOf z).rest 0xFF 0xF1 0x50 0x80 0x00 0xFF 0xFC []
      ∧ headerDecode (runOf z).rest = some (.header (headerOf true { fieldsB with
          channelConfiguration := 2, frameLength := 7 } none)) := by decide
theorem witness_HeadersAreDelivered :
    (running frameB).run = some (runOf frameB) ∧ (running frameB).cfg.isSome = (running frameB).cfgValid
      ∧ (Instr.adtsHdr7 { fieldsB with frameLength := 7 }).wf = true
      ∧ (Instr.adtsHdr9 { fieldsB with frameLength := 9 } 0).wf = true := by decide
/-- No byte, one byte, 8 bytes of a 9-byte header; and payload exhausted. -/
theorem witness_IncompleteHeaderIsCarriedWithoutError :
    let w : List Byte := [0xFF, 0xF0, 0x50, 0x80, 0x01, 0x9F, 0xFC, 0xBE]
    (running w).run = some (runOf w) ∧ (running w).Quiet ∧ (running w).streaming = false ∧ carriedOk w = true
      ∧ carriedOk [] = true ∧ carriedOk [0x12] = true
      ∧ { streamingB with run := some { runB with rest := [] } }.Quiet
      ∧ { streamingB with run := some { runB with rest := [] } }.streaming = true := by decide
theorem witness_PayloadIsSlicedFromTheChunk :
    streamingB.Inv ∧ streamingB.run = some runB ∧ streamingB.streaming = true ∧ runB.rest ≠ [] := by decide
theorem witness_PayloadSliceIsTheNextStreamBytes :
    streamingB.Inv ∧ streamingB.run = some runB ∧ streamingB.streaming = true ∧ runB.rest ≠ []
      ∧ nextOf (step streamingB) = some (stepped streamingB) := by decide

theorem witness_PushCompletesAndConsumesItsChunk : midB.Ready ∧ frameB.length < 2 ^ 30 := by decide
theorem witness_EveryByteIsAccountedFor :
    (pushed [0xFF] State.reset).Inv ∧ (pushed [0xFF] State.reset).AtRest ∧ ([0xF1, 0x50] : List Byte).length < 2 ^ 30
      ∧ nextOf (pushChunk [0xF1, 0x50] (pushed [0xFF] State.reset)) =
          some (pushed [0xF1, 0x50] (pushed [0xFF] State.reset))
      ∧ carried (pushed [0xFF] State.reset) = some [0xFF]
      ∧ carried (pushed [0xF1, 0x50] (pushed [0xFF] State.reset)) = some [0xFF, 0xF1, 0x50] := by decide
/-- Frame B, then a right sync word without its header, on a block that carries nothing. -/
theorem witness_RecordsStandForConsecutiveSegments :
    State.reset.Inv ∧ State.reset.AtRest ∧ frameB.length < 2 ^ 30
      ∧ nextOf (pushChunk frameB State.reset) = some (pushed frameB State.reset)
      ∧ carried State.reset = some [] := by decide
/-- V-F8's three errors, and frame B after them: bytes 0 to 2, 3 to 9, and 10. -/
theorem test_segments : cursorAfter ([0x00, 0xFF, 0x12] ++ frameB) 0 0 0
    (pushed ([0x00, 0xFF, 0x12] ++ frameB) State.reset).events = some 11 := by decide
/-- The same records do not stand for another stream. -/
theorem test_segments_of_another_stream : cursorAfter ([0x00, 0xFF, 0x13] ++ frameB) 0 0 0
    (pushed ([0x00, 0xFF, 0x12] ++ frameB) State.reset).events = none := by decide
theorem witness_PushLoopAlwaysEnds :
    (running frameB).run = some (runOf frameB) ∧ (running frameB).Inv := by decide
theorem witness_EmptyPushChangesNothing : midB.Ready := by decide
/-- Frame B split inside its header. -/
theorem witness_ChunkBoundariesDoNotChangeParsing :
    State.reset.Ready ∧ (frameB.take 3).length + (frameB.drop 3).length < 2 ^ 30
      ∧ nextOf (pushChunk (frameB.take 3) State.reset) = some (pushed (frameB.take 3) State.reset)
      ∧ nextOf (pushChunk (frameB.drop 3) (pushed (frameB.take 3) State.reset)) =
          some (pushed (frameB.drop 3) (pushed (frameB.take 3) State.reset)) := by decide
/-- Frame B, and a 9-byte header with no payload. -/
theorem witness_FramePayloadIsDeliveredExactly :
    State.reset.Ready ∧ State.reset.streaming = false ∧ State.reset.fill = 0 ∧ fieldsB.sfIndex.toNat ≤ 12
      ∧ fieldsB.frameLength.toNat = (headerBytes true fieldsB).length + ([0x55] : List Byte).length
      ∧ (headerBytes true fieldsB ++ [0x55] ++ [0xFF]).length < 2 ^ 30
      ∧ (9 : BitVec 13).toNat = (headerBytes false { fieldsB with frameLength := 9 } ++ [0, 0]).length
          + ([] : List Byte).length := by decide
theorem witness_PayloadRecordsLieInTheChunk :
    State.reset.Inv ∧ State.reset.AtRest ∧ frameB.length < 2 ^ 30
      ∧ nextOf (pushChunk frameB State.reset) = some (pushed frameB State.reset)
      ∧ Event.payload 7 1 ∈ newEvents State.reset (pushed frameB State.reset) := by decide
theorem witness_RecordsComeInFrameOrder :
    midB.Inv ∧ midB.AtRest ∧ frameB.length < 2 ^ 30
      ∧ nextOf (pushChunk frameB midB) = some (pushed frameB midB) := by decide
theorem witness_ConfigRecordsFollowTheConfiguration :
    (pushed frameB State.reset).Inv ∧ (pushed frameB State.reset).AtRest ∧ frameB.length < 2 ^ 30
      ∧ nextOf (pushChunk frameB (pushed frameB State.reset)) = some (pushed frameB (pushed frameB State.reset)) := by
  decide
/-- Two memories that differ only beyond the chunk. -/
theorem witness_PushReadsOnlyItsChunk :
    State.reset.Quiet ∧ memoryReadN [(0, 1)] 0 (1 : BitVec 30).toNat =
      memoryReadN [(0, 1), (1, 2)] 0 (1 : BitVec 30).toNat := by decide
/-- Frame B with another payload byte, between its header and a carried byte. -/
theorem witness_PayloadValuesAreNeverRead_slices :
    State.reset.Ready ∧ (frameB ++ [0xFF]).length = (frameB.set 7 0x56 ++ [0xFF]).length
      ∧ (frameB ++ [0xFF]).length < 2 ^ 30
      ∧ nextOf (pushChunk (frameB ++ [0xFF]) State.reset) = some (pushed (frameB ++ [0xFF]) State.reset)
      ∧ (∀ i, (frameB ++ [0xFF])[i]? ≠ (frameB.set 7 0x56 ++ [0xFF])[i]? →
          inSlice (newEvents State.reset (pushed (frameB ++ [0xFF]) State.reset)) i) := by
  refine ⟨by decide, by decide, by decide, by decide, ?_⟩
  intro i hi
  have h7 : i = 7 := by
    by_contra hne
    refine hi ?_
    rw [List.getElem?_append, List.getElem?_append, List.length_set, List.getElem?_set_ne (Ne.symm hne)]
  exact ⟨7, 1, by decide, by subst h7; decide, by subst h7; decide⟩
theorem witness_PayloadValuesAreNeverRead :
    midB.Ready ∧ midB.streaming = true ∧ ([0xFF] : List Byte).length = ([0x00] : List Byte).length
      ∧ ([0xFF] : List Byte).length ≤ midB.remain.toNat ∧ ([0xFF] : List Byte).length < 2 ^ 30 := by decide

theorem witness_StaleReferencesFault :
    let t := { pushed frameB State.reset with port := [⟨true, .readPayload 2 0⟩] }
    t.Inv ∧ t.AtRest ∧ ([0] : List Byte).length < 2 ^ 30 ∧ 2 < t.events.length := by decide
theorem witness_LiveReferencesReadTheChunk :
    let s := withPort [⟨true, .readPayload 2 0⟩]
    s.Inv ∧ s.AtRest ∧ frameB.length < 2 ^ 30
      ∧ nextOf (pushChunk frameB { s with port := [] }) = some (pushed frameB State.reset)
      ∧ s.events.length ≤ 2 ∧ (pushed frameB State.reset).events[2]? = some (.payload 7 1)
      ∧ 0 < (1 : BitVec 13).toNat ∧ s.port = [⟨true, .readPayload 2 0⟩] ++ []
      ∧ ([] : List HostAction).takeWhile (·.overlaps) = [] := by decide
theorem witness_PushWaitsForItsConsumer :
    State.reset.Inv ∧ State.reset.AtRest ∧ frameB.length < 2 ^ 30 ∧ State.reset.port = []
      ∧ nextOf (pushChunk frameB State.reset) = some (pushed frameB State.reset)
      ∧ (newEvents State.reset (pushed frameB State.reset)).length = 4 := by decide
theorem witness_ChannelIsAppendOnly : nextOf (step (running frameB)) = some streamingB := by decide
/-- A PUSH that goes on, and one that ends. -/
theorem witness_BlockNeverWritesIbuf :
    (running frameB).run = some (runOf frameB) ∧ nextOf (step (running frameB)) = some streamingB
      ∧ streamingB.run.isSome = true ∧ (running []).run = some (runOf [])
      ∧ nextOf (step (running [])) = some (stepped (running [])) ∧ (stepped (running [])).run = none := by decide
theorem witness_InstancesShareNothing :
    unitStep [.live (running frameB), .live State.reset] 0 = .next [.live streamingB, .live State.reset]
      ∧ ([.live (running frameB), .live midB] : List Slot)[0]? =
        ([.live (running frameB), .live State.reset] : List Slot)[0]? :=
  ⟨by rfl, by rfl⟩
/-- An instance that has emitted frame B's records, with a payload read to come. -/
theorem witness_RemovalKeepsEmittedEvents :
    let s := { pushed frameB State.reset with port := [⟨false, .readPayload 2 0⟩] }
    ([.live State.reset, .live s] : List Slot)[1]? = some (.live s)
      ∧ s.port = ⟨false, .readPayload 2 0⟩ :: [] ∧ s.events.length = 4
      ∧ unitStep (removeUnit [.live State.reset, .live (pushed frameB State.reset)] 1) 1 =
          .next (removeUnit [.live State.reset, .live (pushed frameB State.reset)] 1) :=
  ⟨by rfl, by rfl, by decide, by rfl⟩
theorem witness_StepKeepsTheInvariant :
    (running frameB).Inv ∧ nextOf (step (running frameB)) = some streamingB := by decide
/-- PUSH, its chunk placed, and RESET. -/
theorem witness_CommandsLeaveTheRestInvariant :
    midB.Inv ∧ midB.AtRest ∧ (nextOf (exec (.push 8) { midB with ibuf := memoryOf frameB })).isSome = true
      ∧ (nextOf (exec .reset { midB with ibuf := [] })).isSome = true := by decide
/-- The cases of its conclusion: payload to come, and two carried bytes. -/
theorem witness_CommandsLeaveTheRestInvariant_cases :
    midB.streaming = true ∧ (pushed [0xFF, 0xF1] State.reset).streaming = false
      ∧ 2 ≤ (pushed [0xFF, 0xF1] State.reset).fill.toNat := by decide

end Sys2Proof.Tests
end

section
/-! PROOFS. Systems of several instances share nothing (R3, R90). -/
namespace Sys2Proof.Machine

/-! ## A step of one instance, read forwards -/

theorem unitStep_of_getElem?_none {units : List Slot} {k : Nat} (h : units[k]? = none) :
    unitStep units k = .next units := by
  simp [unitStep, h]

theorem unitStep_of_slotStep {units : List Slot} {k : Nat} {u v : Slot} (hu : units[k]? = some u)
    (hv : slotStep u = .next v) : unitStep units k = .next (units.set k v) := by
  simp [unitStep, onNext, hu, hv]

/-! ## The frame of a step, and what it depends on -/

theorem unitStep_length {units units' : List Slot} {k : Nat} (h : unitStep units k = .next units') :
    units'.length = units.length := by
  obtain ⟨-, rfl⟩ | ⟨u, v, -, -, rfl⟩ := unitStep_next h
  · rfl
  · exact List.length_set

theorem unitStep_getElem?_ne {units units' : List Slot} {k j : Nat} (h : unitStep units k = .next units')
    (hj : j ≠ k) : units'[j]? = units[j]? := by
  obtain ⟨-, rfl⟩ | ⟨u, v, -, -, rfl⟩ := unitStep_next h
  · rfl
  · exact List.getElem?_set_ne hj.symm

/-- Two systems that agree on instance `k` both step it, to the same slot, whatever else they hold. -/
theorem unitStep_congr {units units' others : List Slot} {k : Nat} (h : unitStep units k = .next units')
    (hk : others[k]? = units[k]?) : ∃ others', unitStep others k = .next others' ∧ others'[k]? = units'[k]? := by
  obtain ⟨hnone, rfl⟩ | ⟨u, v, hu, hv, rfl⟩ := unitStep_next h
  · exact ⟨others, unitStep_of_getElem?_none (hk.trans hnone), hk⟩
  · refine ⟨others.set k v, unitStep_of_slotStep (hk.trans hu) hv, ?_⟩
    simp only [List.getElem?_set_self', hk]

/-- Settles O48: a step is a `set` at the stepping instance's own place, with a slot computed from that instance alone. -/
theorem instancesShareNothing : Obligations.InstancesShareNothing :=
  ⟨fun _ _ _ h => ⟨unitStep_length h, fun _ hj => unitStep_getElem?_ne h hj⟩,
    fun _ _ _ _ h hk => unitStep_congr h hk⟩

end Sys2Proof.Machine
end

section
/-! PROOFS. The state after reset and after RESET (R18, R91). -/
namespace Sys2Proof.Machine

/-- Settles O50: every clause is about one fixed state. -/
theorem resetStateMeetsTheInvariant : Obligations.ResetStateMeetsTheInvariant := by
  unfold Obligations.ResetStateMeetsTheInvariant
  decide

/-- RESET at rest: the reset state, with the channel and the outside as they were (R91). -/
theorem exec_reset_atRest {s : State} (h : s.AtRest) :
    exec .reset s =
      .next { State.reset with events := s.events, port := s.port, result := s.result, taken := s.taken } := by
  simp only [exec, execReset, h, Option.isSome_none, Bool.false_eq_true, ↓reduceIte, State.reset]

/-- A new one comes last, in the reset state (R92). -/
theorem instantiate_getElem?_length (units : List Slot) :
    (instantiate units)[units.length]? = some (.live State.reset) := by
  simp [instantiate]

/-- Settles O2: the reset values are read off the definition; RESET leaves that very state but for the channel and the
outside. -/
theorem resetStateHasTheStatedValues : Obligations.ResetStateHasTheStatedValues := by
  refine ⟨rfl, rfl, rfl, rfl, rfl, by decide, rfl, instantiate_getElem?_length, fun s h => ?_⟩
  exact ⟨_, exec_reset_atRest h, rfl, rfl, rfl, rfl, rfl, rfl, rfl⟩

end Sys2Proof.Machine
end

section
/-! PROOFS. What the decoder reads at the cursor of a PUSH, and what carried bytes are (R16, R60 to R63). -/
namespace Sys2Proof.Machine

/-- Two bytes are enough for an instruction (R60). -/
theorem length_lt_two_of_decodeWindow_none {bytes : List Byte} (h : decodeWindow bytes = none) : bytes.length < 2 := by
  obtain hl | ⟨b0, b1, t, rfl, hs⟩ | ⟨b0, b1, t, rfl, hs, hl⟩ | ⟨b0, b1, b2, b3, b4, b5, b6, t, rfl, hs, hp⟩ |
    ⟨b0, b1, b2, b3, b4, b5, b6, c0, c1, t, rfl, hs, hp⟩ := window_cases bytes
  · exact hl
  · rw [decodeWindow_miss hs] at h; cases h
  · rw [decodeWindow_wait hs hl] at h; cases h
  · rw [decodeWindow_seven hs hp] at h; cases h
  · rw [decodeWindow_nine hs hp] at h; cases h

theorem two_le_length_of_decodeWindow {bytes : List Byte} {i : Instr} (h : decodeWindow bytes = some i) :
    2 ≤ bytes.length := by
  by_contra hl
  rw [decodeWindow_short (by omega)] at h
  cases h

theorem seven_le_headerLength (protectionAbsent : Bool) : 7 ≤ headerLength protectionAbsent := by
  cases protectionAbsent <;> decide

theorem headerLength_le_nine (protectionAbsent : Bool) : headerLength protectionAbsent ≤ 9 := by
  cases protectionAbsent <;> decide

theorem carriedOk_cons_cons (b0 b1 : Byte) (t : List Byte) :
    carriedOk (b0 :: b1 :: t) = true ↔
      syncCheck b0 b1 = true ∧ t.length + 2 < headerLength (protectionBit b1) := by
  simp only [carriedOk, Bool.and_eq_true, decide_eq_true_eq]

theorem carriedOk_of_length_lt_two {bytes : List Byte} (h : bytes.length < 2) : carriedOk bytes = true := by
  match bytes, h with
  | [], _ => rfl
  | [_], _ => rfl

/-- A complete header steps if the row it passes on to does. -/
theorem windowStep_headerRow_isSome (h1 h2 h3 h4 h5 h6 : Byte) {good : Instr} {s : State}
    (hg : (windowStep good s).isSome = true) : (windowStep (headerRow h1 h2 h3 h4 h5 h6 good) s).isSome = true := by
  obtain ⟨_, hr⟩ | ⟨_, hr⟩ | ⟨_, _, hr⟩ | ⟨_, _, hr⟩ := headerRow_cases h1 h2 h3 h4 h5 h6 good <;> rw [hr]
  · rfl
  · rfl
  · rfl
  · exact hg

/-- Of the rows the decoder reads from a window, a PUSH waits on SYNC_CHECK alone (R62). -/
theorem decodeWindow_waits_or_steps {bytes : List Byte} {i : Instr} (h : decodeWindow bytes = some i) (s : State) :
    (∃ low, i = .syncCheck low) ∨ ∃ t, windowStep i s = some t := by
  rw [← Option.isSome_iff_exists]
  obtain hl | ⟨b0, b1, t, rfl, hs⟩ | ⟨b0, b1, t, rfl, hs, hl⟩ | ⟨b0, b1, b2, b3, b4, b5, b6, t, rfl, hs, hp⟩ |
    ⟨b0, b1, b2, b3, b4, b5, b6, c0, c1, t, rfl, hs, hp⟩ := window_cases bytes
  · rw [decodeWindow_short hl] at h; cases h
  · rw [decodeWindow_miss hs] at h; cases h; exact .inr rfl
  · rw [decodeWindow_wait hs hl] at h; cases h; exact .inl ⟨_, rfl⟩
  · rw [decodeWindow_seven hs hp] at h; cases h; exact .inr (windowStep_headerRow_isSome _ _ _ _ _ _ rfl)
  · rw [decodeWindow_nine hs hp] at h; cases h; exact .inr (windowStep_headerRow_isSome _ _ _ _ _ _ rfl)

/-- The header `hdr` can stand at the start of `rest`: its L bytes are there, of the class that byte 1 says, and it passes
both checks of R41. -/
structure HeaderAt (rest : List Byte) (hdr : Header) : Prop where
  length_le : headerLength hdr.protectionAbsent ≤ rest.length
  sfIndex_le : hdr.sfIndex.toNat ≤ 12
  frameLength_ge : headerLength hdr.protectionAbsent ≤ hdr.frameLength.toNat
  protection : ∃ b0 b1 u, rest = b0 :: b1 :: u ∧ protectionBit b1 = hdr.protectionAbsent

theorem headerAt_of_hdr7 {rest : List Byte} {f : HeaderFields} (h : decodeWindow rest = some (.adtsHdr7 f)) :
    HeaderAt rest (headerOf true f none) := by
  obtain ⟨hl, hsf, hfl, hp⟩ := decodeWindow_hdr7 h
  exact ⟨hl, hsf, hfl, hp⟩

theorem headerAt_of_hdr9 {rest : List Byte} {f : HeaderFields} {crc : BitVec 16}
    (h : decodeWindow rest = some (.adtsHdr9 f crc)) : HeaderAt rest (headerOf false f (some crc)) := by
  obtain ⟨hl, hsf, hfl, hp⟩ := decodeWindow_hdr9 h
  exact ⟨hl, hsf, hfl, hp⟩

end Sys2Proof.Machine
end

section
/-! PROOFS. Legal points of a PUSH: every iteration of the loop keeps them, the loop ends at one (R57, R58, R63, R68). -/
namespace Sys2Proof.Machine

/-! ## A legal point of a PUSH, kept by every iteration -/

/-- A PUSH in progress at a legal point, with legal registers. -/
structure State.AtPoint (s : State) (r : PushRun) : Prop where
  running : s.run = some r
  registers : s.RegistersOk
  point : runOk s r = true

theorem atPoint_of_inv {s : State} {r : PushRun} (h : s.Inv) (hr : s.run = some r) : s.AtPoint r := by
  obtain ⟨hregs, ⟨-, hrun⟩, -, -⟩ := h
  exact ⟨hr, hregs, hrun r hr⟩

theorem State.AtPoint.inv {s : State} {r : PushRun} (h : s.AtPoint r) (hm : memoryWf s.ibuf = true)
    (hport : ∀ a ∈ s.port, actOk a.act = true) : s.Inv := by
  obtain ⟨hrun, hregs, hpoint⟩ := h
  refine ⟨hregs, ⟨fun hn => ?_, fun r' hr' => ?_⟩, hm, hport⟩
  · rw [hrun] at hn; cases hn
  · rw [hrun] at hr'; cases hr'; exact hpoint

/-- Inside a PUSH a frame being delivered has payload left, and its payload comes from the chunk (R67). -/
theorem State.AtPoint.payload {s : State} {r : PushRun} (h : s.AtPoint r) (hs : s.streaming = true) :
    s.fill.toNat ≤ r.cursor ∧ 1 ≤ s.remain.toNat := by
  obtain ⟨held, chunk, hheld, hchunk⟩ := runOk_bytes h.point
  obtain ⟨-, -, hstream, -⟩ := (runOk_iff hheld hchunk).1 h.point
  rw [← carried_length hheld]
  exact hstream hs

/-- The carried bytes end before the header at the cursor does: they are fewer than the header they begin (R16). -/
theorem State.AtPoint.fill_le_cursor_add_headerLength {s : State} {r : PushRun} (h : s.AtPoint r) {b0 b1 : Byte}
    {u : List Byte} (hrest : r.rest = b0 :: b1 :: u) :
    s.fill.toNat ≤ r.cursor + headerLength (protectionBit b1) := by
  obtain ⟨-, hregs, hpoint⟩ := h
  obtain ⟨held, chunk, hheld, hchunk⟩ := runOk_bytes hpoint
  obtain ⟨-, hq, -, -⟩ := (runOk_iff hheld hchunk).1 hpoint
  obtain ⟨hfill, -, -, -, -, hcarried⟩ := hregs
  have hlen := carried_length hheld
  have h7 := seven_le_headerLength (protectionBit b1)
  by_cases hcur : r.cursor = 0
  · rw [hrest, hcur, List.drop_zero] at hq
    match held, hlen, hcarried held hheld, hq with
    | [], hlen, _, _ => simp only [List.length_nil] at hlen; omega
    | [_], hlen, _, _ => simp only [List.length_singleton] at hlen; omega
    | c0 :: c1 :: v, hlen, hok, hq =>
      obtain ⟨rfl, rfl, -⟩ : b0 = c0 ∧ b1 = c1 ∧ u = v ++ chunk := by simpa using hq
      obtain ⟨-, hlt⟩ := (carriedOk_cons_cons b0 b1 v).1 hok
      simp only [List.length_cons] at hlen
      omega
  · omega

/-- The cursor moved on inside Q, all else that a legal point speaks of as it was. -/
theorem atPoint_advance {s t : State} {r : PushRun} {n : Nat} (h : s.AtPoint r) (hregs : t.RegistersOk)
    (hcarry : t.carry = s.carry) (hfill : t.fill = s.fill) (hibuf : t.ibuf = s.ibuf)
    (hrun : t.run = some (r.advance n)) (hn : n ≤ r.rest.length) (hevents : s.events.length ≤ t.events.length)
    (hstream : t.streaming = true → s.fill.toNat ≤ r.cursor + n ∧ 1 ≤ t.remain.toNat) :
    t.AtPoint (r.advance n) := by
  obtain ⟨-, -, hpoint⟩ := h
  obtain ⟨held, chunk, hheld, hchunk⟩ := runOk_bytes hpoint
  obtain ⟨hcur, hq, -, hfirst⟩ := (runOk_iff hheld hchunk).1 hpoint
  rw [hq, List.length_drop, List.length_append] at hn
  refine ⟨hrun, hregs, (runOk_iff (held := held) (chunk := chunk) ?_ ?_).2 ⟨?_, ?_, ?_, ?_⟩⟩
  · rw [carried_congr hcarry hfill, hheld]
  · rw [hibuf, advance_len, hchunk]
  · rw [advance_cursor]; omega
  · rw [advance_rest, advance_cursor, hq, List.drop_drop]
  · rwa [advance_cursor, carried_length hheld]
  · rw [advance_firstEvent]; omega

theorem one_le_toNat_of_ne_zero {v : BitVec 13} (h : v ≠ 0) : 1 ≤ v.toNat :=
  Nat.one_le_iff_ne_zero.2 fun h0 => h (BitVec.eq_of_toNat_eq h0)

/-- STEP_PAYLOAD reaches the next legal point: REMAIN goes down by the slice, and the frame is over when it is 0 (R58,
R59). -/
theorem atPoint_stepPayload {s : State} {r : PushRun} (h : s.AtPoint r) (hs : s.streaming = true) :
    (stepPayload s r).AtPoint (r.advance (min s.remain.toNat r.rest.length)) := by
  have hremain := remain_sub (Nat.min_le_left s.remain.toNat r.rest.length)
  obtain ⟨hcur, -⟩ := h.payload hs
  obtain ⟨-, -, -, -, hmax, -⟩ := h.registers
  refine atPoint_advance h ?_ (by simp) (by simp) (by simp) (by simp) (Nat.min_le_right _ _) (by simp) fun ht => ?_
  · exact registersOk_congr h.registers (by simp) (by simp) (by simp) (by simp) (by rw [stepPayload_remain]; omega)
  · refine ⟨by omega, one_le_toNat_of_ne_zero fun h0 => ?_⟩
    rw [stepPayload_remain] at h0
    rw [stepPayload_streaming, if_pos h0] at ht
    cases ht

theorem atPoint_raiseError {s : State} {r : PushRun} (h : s.AtPoint r) (hs : s.streaming = false)
    (hrest : 1 ≤ r.rest.length) (e : HeaderError) : (raiseError e s r).AtPoint (r.advance 1) := by
  obtain ⟨-, -, -, -, hmax, -⟩ := h.registers
  refine atPoint_advance h ?_ rfl rfl rfl rfl hrest (by simp) fun ht => ?_
  · exact registersOk_congr h.registers rfl rfl rfl rfl hmax
  · rw [raiseError_streaming, hs] at ht; cases ht

/-- CONFIG_DETECT leaves a value in CFG exactly while CFG_VALID is 1 (R74). -/
theorem configDetect_cfg_isSome {s : State} (h : s.cfg.isSome = s.cfgValid) (hdr : Header) :
    (configDetect hdr s).cfg.isSome = (configDetect hdr s).cfgValid := by
  by_cases hc : storedConfig s = some (configOf hdr)
  · rw [configDetect_same hc, h]
  · rw [configDetect_new hc]; rfl

theorem configDetect_events_length_le (hdr : Header) (s : State) :
    s.events.length ≤ (configDetect hdr s).events.length := by
  by_cases hc : storedConfig s = some (configOf hdr)
  · rw [configDetect_same hc]
  · rw [configDetect_new hc]; simp

theorem storedConfig_deliverHeader (hdr : Header) (s : State) (r : PushRun) :
    storedConfig (deliverHeader hdr s r) = some (configOf hdr) := by
  rw [← storedConfig_configDetect hdr s]
  simp only [storedConfig, deliverHeader_cfg, deliverHeader_cfgValid]

theorem deliverHeader_remain_toNat {rest : List Byte} {hdr : Header} (hat : HeaderAt rest hdr) (s : State)
    (r : PushRun) :
    (deliverHeader hdr s r).remain.toNat = hdr.frameLength.toNat - headerLength hdr.protectionAbsent := by
  rw [deliverHeader_remain, frameLength_sub (headerLength_le_nine _) hat.frameLength_ge]

/-- A delivered header leaves legal registers: its sf_index was checked, and at most 8191 - 7 payload bytes follow it. -/
theorem registersOk_deliverHeader {s : State} {r : PushRun} {hdr : Header} (h : s.RegistersOk)
    (hat : HeaderAt r.rest hdr) : (deliverHeader hdr s r).RegistersOk := by
  obtain ⟨hfill, hcarry, hcfg, -, -, hcarried⟩ := h
  have h7 := seven_le_headerLength hdr.protectionAbsent
  have hmax := hdr.frameLength.isLt
  refine ⟨by simpa using hfill, by simpa using hcarry, ?_, ?_, ?_, ?_⟩
  · simpa using configDetect_cfg_isSome hcfg hdr
  · rw [storedConfig_deliverHeader]
    rintro c ⟨⟩
    exact hat.sfIndex_le
  · rw [deliverHeader_remain_toNat hat]; omega
  · rwa [carried_congr (deliverHeader_carry hdr s r) (deliverHeader_fill hdr s r)]

/-- Delivering a header reaches the next legal point: its bytes were there, its payload starts in the chunk (R63,
R67). -/
theorem atPoint_deliverHeader {s : State} {r : PushRun} {hdr : Header} (h : s.AtPoint r)
    (hs : s.streaming = false) (hat : HeaderAt r.rest hdr) :
    (deliverHeader hdr s r).AtPoint (r.advance (headerLength hdr.protectionAbsent)) := by
  obtain ⟨b0, b1, u, hrest, hp⟩ := hat.protection
  have hheld := h.fill_le_cursor_add_headerLength hrest
  rw [hp] at hheld
  have hevents : s.events.length ≤ (deliverHeader hdr s r).events.length := by
    rw [deliverHeader_events, List.length_append]
    exact Nat.le_add_right_of_le (configDetect_events_length_le hdr s)
  refine atPoint_advance h (registersOk_deliverHeader h.registers hat) (by simp) (by simp) (by simp) (by simp)
    hat.length_le hevents fun ht => ⟨hheld, one_le_toNat_of_ne_zero fun h0 => ?_⟩
  rw [deliverHeader_remain] at h0
  rw [deliverHeader_streaming, if_pos h0, hs] at ht
  cases ht

/-- Every iteration of the loop reaches another legal point, further on in Q (R57, R68). -/
theorem atPoint_pushIteration {s t : State} {r : PushRun} (h : s.AtPoint r) (ht : pushIteration s r = some t) :
    ∃ n, 0 < n ∧ 0 < r.rest.length ∧ t.AtPoint (r.advance n) := by
  obtain ⟨hs, hne, rfl⟩ | ⟨hs, i, hi, -, ⟨e, rfl⟩ | ⟨f, rfl, rfl⟩ | ⟨f, crc, rfl, rfl⟩⟩ :=
    pushIteration_cases h.running ht
  · obtain ⟨-, hremain⟩ := h.payload hs
    have hpos := List.length_pos_of_ne_nil hne
    exact ⟨_, Nat.lt_min.2 ⟨hremain, hpos⟩, hpos, atPoint_stepPayload h hs⟩
  · have hlen := two_le_length_of_decodeWindow hi
    exact ⟨1, by omega, by omega, atPoint_raiseError h hs (by omega) e⟩
  · have hlen := two_le_length_of_decodeWindow hi
    exact ⟨7, by omega, by omega, atPoint_deliverHeader h hs (headerAt_of_hdr7 hi)⟩
  · have hlen := two_le_length_of_decodeWindow hi
    exact ⟨9, by omega, by omega, atPoint_deliverHeader h hs (headerAt_of_hdr9 hi)⟩

/-- With more fuel than bytes left, the loop ends at a legal point where no iteration is left (R68). -/
theorem atPoint_pushLoop {s : State} {r : PushRun} (h : s.AtPoint r) {fuel : Nat} (hfuel : r.rest.length < fuel) :
    ∃ r', (pushLoop fuel s).AtPoint r' ∧ pushIteration (pushLoop fuel s) r' = none := by
  induction fuel generalizing s r with
  | zero => omega
  | succ fuel ih =>
    cases ht : pushIteration s r with
    | none => exact ⟨r, by rwa [pushLoop_stop h.running ht], by rwa [pushLoop_stop h.running ht]⟩
    | some t =>
      obtain ⟨n, hn, hpos, hat⟩ := atPoint_pushIteration h ht
      rw [pushLoop_more h.running ht]
      exact ih hat (by rw [advance_rest, List.length_drop]; omega)

theorem pushIteration_frame {s t : State} {r : PushRun} (hr : s.run = some r) (h : pushIteration s r = some t) :
    t.ibuf = s.ibuf ∧ t.port = s.port := by
  obtain ⟨_, _, rfl⟩ | ⟨_, _, _, _, ⟨e, rfl⟩ | ⟨f, _, rfl⟩ | ⟨f, crc, _, rfl⟩⟩ := pushIteration_cases hr h <;> simp

theorem pushLoop_port (fuel : Nat) {s : State} : (pushLoop fuel s).port = s.port := by
  refine pushLoop_induct (P := fun t => t.port = s.port) ?_ fuel rfl
  intro u r t hr hp ht
  rw [(pushIteration_frame hr ht).2, hp]

end Sys2Proof.Machine
end

section
/-! PROOFS. The rest invariant after every command (R15, R16, R65). -/
namespace Sys2Proof.Machine

/-! ## Legally at rest -/

/-- The rest invariant (R15, R16). -/
structure State.SoundAtRest (s : State) : Prop where
  atRest : s.AtRest
  registers : s.RegistersOk
  rest : s.RestOk

theorem soundAtRest_of_inv {s : State} (h : s.Inv) (hr : s.AtRest) : s.SoundAtRest := by
  obtain ⟨hregs, ⟨hrest, -⟩, -, -⟩ := h
  exact ⟨hr, hregs, hrest hr⟩

/-- At rest the memory is empty, so only the port is left to ask about. -/
theorem State.SoundAtRest.inv {s : State} (h : s.SoundAtRest) (hport : ∀ a ∈ s.port, actOk a.act = true) : s.Inv := by
  obtain ⟨hrun, hregs, hibuf, hstream⟩ := h
  refine ⟨hregs, ⟨fun _ => ⟨hibuf, hstream⟩, ?_⟩, by rw [hibuf]; rfl, hport⟩
  rw [hrun]
  intro r hr
  cases hr

/-! ## The end of a PUSH -/

/-- Where the loop ends, what is left of Q may be carried: nothing while a frame is being delivered, else the start of a
header (R16). -/
theorem carriable_of_pushIteration_none {s : State} {r : PushRun} (h : pushIteration s r = none) :
    r.rest.length ≤ 8 ∧ carriedOk r.rest = true ∧ (s.streaming = true → r.rest = []) := by
  unfold pushIteration at h
  split at h
  · split at h
    · rename_i hempty
      rw [List.isEmpty_iff] at hempty
      rw [hempty]
      exact ⟨by decide, rfl, fun _ => rfl⟩
    · cases h
  · rename_i hs
    refine and_assoc.1 ⟨?_, fun ht => absurd ht hs⟩
    split at h
    · rename_i i hi
      obtain ⟨low, rfl⟩ | ⟨t, ht⟩ := decodeWindow_waits_or_steps hi s
      · obtain ⟨b0, b1, u, hrest, hsync, hlt⟩ := decodeWindow_syncCheck hi
        have h9 := headerLength_le_nine (protectionBit b1)
        rw [hrest]
        exact ⟨by simp only [List.length_cons]; omega, (carriedOk_cons_cons b0 b1 u).2 ⟨hsync, hlt⟩⟩
      · rw [ht] at h; cases h
    · rename_i hnone
      have hlt := length_lt_two_of_decodeWindow_none hnone
      exact ⟨by omega, carriedOk_of_length_lt_two hlt⟩

/-- Saving at most 8 carriable bytes keeps the registers legal (R65). -/
theorem registersOk_finishPush {s : State} {r : PushRun} (h : s.RegistersOk) (hlen : r.rest.length ≤ 8)
    (hok : carriedOk r.rest = true) : (finishPush s r).RegistersOk := by
  obtain ⟨-, -, hcfg, hsf, hremain, -⟩ := h
  have hfill : (finishPush s r).fill.toNat = r.rest.length := by
    rw [finishPush_fill, BitVec.toNat_ofNat]; omega
  have hcarried : carried (finishPush s r) = some r.rest := carried_carryOf (by omega) rfl rfl
  refine ⟨by omega, fun i => ?_, hcfg, hsf, hremain, ?_⟩
  · rw [hfill, finishPush_carry, Bool.eq_iff_iff]
    simp [carryOf]
  · rw [hcarried]
    rintro held ⟨⟩
    exact hok

/-- FINISH_PUSH where the loop has nothing more to do leaves the block legally at rest (R16, R65). -/
theorem soundAtRest_finishPush {s : State} {r : PushRun} (h : s.AtPoint r) (hstop : pushIteration s r = none)
    (port : List HostAction) (taken : List Byte) :
    (finishPush { s with port := port, taken := taken } r).SoundAtRest := by
  obtain ⟨hlen, hok, hstream⟩ := carriable_of_pushIteration_none hstop
  refine ⟨rfl, registersOk_finishPush h.registers hlen hok, rfl, fun hs => ⟨?_, (h.payload hs).2⟩⟩
  rw [finishPush_fill, hstream hs]
  rfl

/-- START_PUSH makes a legal point: the cursor is at Q's first byte, and a frame being delivered has no carried byte
(R57). -/
theorem atPoint_startPush {s : State} {len : BitVec 30} {held chunk : List Byte} (hregs : s.RegistersOk)
    (hstream : s.streaming = true → s.fill = 0 ∧ 1 ≤ s.remain.toNat) (hheld : carried s = some held)
    (hchunk : memoryReadN s.ibuf 0 len.toNat = some chunk) :
    (startPush len (held ++ chunk) s).AtPoint
      { len := len, cursor := 0, rest := held ++ chunk, firstEvent := s.events.length } := by
  have hiff := runOk_iff (s := startPush len (held ++ chunk) s)
    (r := { len := len, cursor := 0, rest := held ++ chunk, firstEvent := s.events.length }) hheld hchunk
  refine ⟨rfl, hregs, hiff.2 ⟨Nat.zero_le _, rfl, fun hs => ?_, le_rfl⟩⟩
  obtain ⟨hfill, hremain⟩ := hstream hs
  refine ⟨?_, hremain⟩
  rw [carried_length hheld, hfill]; rfl

/-! ## The commands -/

/-- A PUSH that completes from legal registers leaves the block legally at rest, whatever IBUF it was given. -/
theorem soundAtRest_of_execPush {s t : State} {len : BitVec 30} (hregs : s.RegistersOk)
    (hstream : s.streaming = true → s.fill = 0 ∧ 1 ≤ s.remain.toNat) (h : execPush len s = .next t) :
    t.SoundAtRest ∧ t.port ⊆ s.port := by
  obtain ⟨-, -, held, chunk, r, hheld, hchunk, hrun, hend⟩ := execPush_next h
  obtain ⟨r', hat, hstop⟩ := atPoint_pushLoop (atPoint_startPush hregs hstream hheld hchunk)
    (fuel := (held ++ chunk).length + 2) (by simp)
  obtain rfl : r' = r := Option.some.inj (hat.running.symm.trans hrun)
  obtain ⟨bytes, rfl⟩ := endPush_next hend
  refine ⟨soundAtRest_finishPush hat hstop _ _, ?_⟩
  rw [finishPush_port, pushLoop_port, startPush_port]
  exact List.dropWhile_subset _

/-- RESET leaves the block legally at rest (R91). -/
theorem soundAtRest_of_reset {s t : State} (hs : s.AtRest) (h : exec .reset s = .next t) :
    t.SoundAtRest ∧ t.port ⊆ s.port := by
  rw [exec_reset_atRest hs] at h
  cases h
  obtain ⟨-, hregs, hrest⟩ := soundAtRest_of_inv resetStateMeetsTheInvariant rfl
  exact ⟨⟨rfl, hregs, hrest⟩, List.Subset.refl _⟩

/-- A command that completes, whatever IBUF it was given, leaves the block legally at rest and adds nothing to the
port. -/
theorem soundAtRest_of_command {s t : State} {i : Instr} {m : Memory} (h : s.SoundAtRest)
    (hi : (∃ len, i = .push len) ∨ i = .reset) (ht : exec i { s with ibuf := m } = .next t) :
    t.SoundAtRest ∧ t.port ⊆ s.port := by
  obtain ⟨hrun, hregs, -, hstream⟩ := h
  obtain ⟨len, rfl⟩ | rfl := hi
  · exact soundAtRest_of_execPush (s := { s with ibuf := m }) hregs hstream ht
  · exact soundAtRest_of_reset (s := { s with ibuf := m }) hrun ht

/-! ## The rest invariant in the terms of R16 -/

theorem readCarryN_succ {carry : Vector (Option Byte) 9} {fill a n : Nat} {bs : List Byte}
    (h : readCarryN carry fill a (n + 1) = some bs) :
    ∃ b u, bs = b :: u ∧ readCarry carry fill a = some b ∧ readCarryN carry fill (a + 1) n = some u := by
  simp only [readCarryN] at h
  split at h
  · rename_i b u hb hu
    exact ⟨b, u, (Option.some.inj h).symm, hb, hu⟩
  · cases h

theorem getElem_of_readCarry {carry : Vector (Option Byte) 9} {fill i : Nat} {b : Byte} (hi : i < 9)
    (h : readCarry carry fill i = some b) : carry[i] = some b := by
  unfold readCarry at h
  split at h
  · rwa [Vector.getElem?_eq_getElem hi, Option.join_some] at h
  · cases h

/-- The first two of the carried bytes stand in CARRY[0] and CARRY[1] (R10). -/
theorem carry_of_carried {s : State} {held : List Byte} (h : carried s = some held) (h2 : 2 ≤ s.fill.toNat) :
    ∃ b0 b1 u, held = b0 :: b1 :: u ∧ s.carry[0] = some b0 ∧ s.carry[1] = some b1 := by
  obtain ⟨n, hn⟩ := Nat.exists_eq_add_of_le' h2
  unfold carried at h
  rw [hn] at h
  obtain ⟨b0, u0, rfl, hb0, hu0⟩ := readCarryN_succ h
  obtain ⟨b1, u, rfl, hb1, -⟩ := readCarryN_succ hu0
  exact ⟨b0, b1, u, rfl, getElem_of_readCarry (by decide) hb0, getElem_of_readCarry (by decide) hb1⟩

/-- The two halves of the sync word (R34, R40). -/
theorem syncCheck_bytes {b0 b1 : Byte} (h : syncCheck b0 b1 = true) : b0 = 0xFF ∧ b1.extractLsb' 4 4 = 0xF := by
  have hbits : b0 ++ b1.extractLsb' 4 4 = 0xFFF#12 := by simpa [syncCheck, syncBits] using h
  exact ⟨BitVec.extractLsb'_append_eq_left.symm.trans (congrArg (BitVec.extractLsb' 4 8) hbits),
    BitVec.extractLsb'_append_eq_right.symm.trans (congrArg (BitVec.extractLsb' 0 4) hbits)⟩

/-- Carried bytes, seen in CARRY (R16 items 3 and 4). -/
theorem carry_startsHeader {s : State} (h : s.RegistersOk) (h2 : 2 ≤ s.fill.toNat) :
    ∃ b0 b1, s.carry[0] = some b0 ∧ s.carry[1] = some b1 ∧ b0 = 0xFF ∧ b1.extractLsb' 4 4 = 0xF
      ∧ s.fill.toNat < headerLength (protectionBit b1) := by
  obtain ⟨held, hheld⟩ := carried_of_registersOk h
  obtain ⟨-, -, -, -, -, hcarried⟩ := h
  obtain ⟨b0, b1, u, rfl, hc0, hc1⟩ := carry_of_carried hheld h2
  obtain ⟨hsync, hlt⟩ := (carriedOk_cons_cons b0 b1 u).1 (hcarried _ hheld)
  obtain ⟨hb0, hb1⟩ := syncCheck_bytes hsync
  exact ⟨b0, b1, hc0, hc1, hb0, hb1, by rwa [← carried_length hheld]⟩

/-- Settles O51: a completed command leaves the block legally at rest, which R16 says in terms of CARRY. -/
theorem commandsLeaveTheRestInvariant : Obligations.CommandsLeaveTheRestInvariant := by
  rintro s t i hinv hrest hi ⟨m, ht⟩
  obtain ⟨⟨hrun, hregs, -, hstream⟩, -⟩ := soundAtRest_of_command (soundAtRest_of_inv hinv hrest) hi ht
  have hcarry := carry_startsHeader hregs
  obtain ⟨hfill, -, -, -, hmax, -⟩ := hregs
  refine ⟨hrun, hfill, fun hs => ?_, fun _ => hcarry⟩
  obtain ⟨hfill0, hremain⟩ := hstream hs
  exact ⟨hfill0, hremain, hmax⟩

end Sys2Proof.Machine
end

section
/-! PROOFS. Every step keeps the invariant. -/
namespace Sys2Proof.Machine

/-! ## A step inside a PUSH -/

/-- What the loop does with the instruction at the cursor is exec of it; at rest, the direct codec call (R55, R61 to
R64). -/
theorem exec_of_windowStep {s t : State} {i : Instr} (hcfg : (s.run.isSome && cfgMissing s) = false)
    (h : windowStep i s = some t) : exec i s = .next t ∧ waits i = false := by
  have hheader (u : State) : headerOutcome s u = .next u := by
    simp only [headerOutcome, hcfg, Bool.false_eq_true, ↓reduceIte]
  cases i with
  | syncMiss sync low => cases h; exact ⟨rfl, rfl⟩
  | adtsErrSf13 high low => cases h; exact ⟨rfl, rfl⟩
  | adtsErrSf1415 high sfLow low => cases h; exact ⟨rfl, rfl⟩
  | adtsErrShort protectionAbsent f => cases h; exact ⟨rfl, rfl⟩
  | adtsHdr7 f => cases h; exact ⟨hheader _, rfl⟩
  | adtsHdr9 f crc => cases h; exact ⟨hheader _, rfl⟩
  | _ => cases h

/-- A step inside a PUSH whose loop goes on is one iteration of it. -/
theorem runStep_of_pushIteration {s t : State} {r : PushRun} (hcfg : cfgMissing s = false)
    (h : pushIteration s r = some t) : runStep s r = .next t := by
  unfold pushIteration at h
  unfold runStep
  split at h
  · rename_i hs
    split at h
    · cases h
    · rename_i hne
      cases h
      rw [if_pos hs, if_neg hne]
  · rename_i hs
    rw [if_neg hs]
    split at h
    · rename_i i hi
      obtain ⟨hexec, hwaits⟩ := exec_of_windowStep (by rw [hcfg, Bool.and_false]) h
      simp only [hi, afterWindow, hexec, hwaits, Bool.false_eq_true, ↓reduceIte]
    · cases h

/-- A step inside a PUSH whose loop has ended is the end of the PUSH. -/
theorem runStep_of_pushIteration_none {s t : State} {r : PushRun} (hstop : pushIteration s r = none)
    (h : runStep s r = .next t) :
    ∃ bytes, t = finishPush { s with port := s.port.dropWhile (·.overlaps), taken := s.taken ++ bytes } r := by
  unfold pushIteration at hstop
  unfold runStep at h
  split at h
  · rename_i hs
    split at h
    · exact endPush_next h
    · rename_i hne
      simp only [hs, hne, ↓reduceIte, Bool.false_eq_true, reduceCtorEq] at hstop
  · rename_i hs
    rw [if_neg hs] at hstop
    split at h
    · rename_i i hi
      simp only [hi] at hstop
      obtain ⟨low, rfl⟩ | ⟨u, hu⟩ := decodeWindow_waits_or_steps hi s
      · obtain ⟨bytes, rfl⟩ := endPush_next (s := s.returns (.sync true)) h
        exact ⟨bytes, rfl⟩
      · rw [hu] at hstop; cases hstop
    · exact endPush_next h

/-- A step inside a PUSH keeps the invariant: another legal point, or the block legally at rest. -/
theorem inv_of_runStep {s t : State} {r : PushRun} (h : s.Inv) (hr : s.run = some r) (ht : runStep s r = .next t) :
    t.Inv := by
  have hat := atPoint_of_inv h hr
  obtain ⟨hregs, -, hmem, hport⟩ := h
  cases hiter : pushIteration s r with
  | some u =>
    rw [runStep_of_pushIteration (cfgMissing_of_registersOk hregs) hiter] at ht
    cases ht
    obtain ⟨n, -, -, hnext⟩ := atPoint_pushIteration hat hiter
    obtain ⟨hibuf', hport'⟩ := pushIteration_frame hr hiter
    exact hnext.inv (by rwa [hibuf']) (by rwa [hport'])
  | none =>
    obtain ⟨bytes, rfl⟩ := runStep_of_pushIteration_none hiter ht
    exact (soundAtRest_finishPush hat hiter _ _).inv fun a ha => hport a (List.dropWhile_subset _ ha)

/-! ## A step at rest -/

theorem inv_returns {s : State} (h : s.Inv) (c : CodecResult) : (s.returns c).Inv := h

/-- At rest a window hands its value back and does nothing else (R55). -/
theorem windowStep_direct {s t : State} {i : Instr} (hs : s.AtRest) (h : windowStep i s = some t) :
    ∃ c, t = s.returns c := by
  cases i with
  | syncMiss sync low => cases h; exact ⟨_, failingWindow_direct hs _⟩
  | adtsErrSf13 high low => cases h; exact ⟨_, failingWindow_direct hs _⟩
  | adtsErrSf1415 high sfLow low => cases h; exact ⟨_, failingWindow_direct hs _⟩
  | adtsErrShort protectionAbsent f => cases h; exact ⟨_, failingWindow_direct hs _⟩
  | adtsHdr7 f => cases h; exact ⟨_, headerWindow_direct hs _⟩
  | adtsHdr9 f crc => cases h; exact ⟨_, headerWindow_direct hs _⟩
  | _ => cases h

theorem exec_window_direct {s t : State} {bytes : List Byte} {i : Instr} (hs : s.AtRest)
    (hi : decodeWindow bytes = some i) (h : exec i s = .next t) : ∃ c, t = s.returns c := by
  obtain ⟨low, rfl⟩ | ⟨u, hu⟩ := decodeWindow_waits_or_steps hi s
  · cases h; exact ⟨_, rfl⟩
  · obtain ⟨hexec, -⟩ := exec_of_windowStep (by rw [hs]; rfl) hu
    rw [hexec] at h
    cases h
    exact windowStep_direct hs hu

theorem exec_fullness_direct {s t : State} {raw : BitVec 11} (h : exec (decodeFullness raw) s = .next t) :
    ∃ c, t = s.returns c := by
  unfold decodeFullness at h
  split at h
  · cases h; exact ⟨_, rfl⟩
  · cases h; exact ⟨_, rfl⟩

/-- Every command word is one of the four rows (R37). -/
theorem decodeCommand_cases (w : BitVec 32) :
    (∃ rest, decodeCommand w = .cmdReserved rest) ∨ (∃ len, decodeCommand w = .cmdResetBadlen len)
      ∨ (∃ len, decodeCommand w = .push len) ∨ decodeCommand w = .reset := by
  unfold decodeCommand
  split
  · exact .inl ⟨_, rfl⟩
  · split
    · split
      · exact .inr (.inr (.inr rfl))
      · exact .inr (.inl ⟨_, rfl⟩)
    · exact .inr (.inr (.inl ⟨_, rfl⟩))

/-- Of the command words only PUSH and RESET complete (R37). -/
theorem exec_decodeCommand_next {s t : State} {w : BitVec 32} (h : exec (decodeCommand w) s = .next t) :
    (∃ len, decodeCommand w = .push len) ∨ decodeCommand w = .reset := by
  obtain ⟨rest, hw⟩ | ⟨len, hw⟩ | hw := decodeCommand_cases w
  · rw [hw] at h; cases h
  · rw [hw] at h; cases h
  · exact hw

/-- An act of the outside at rest is a command, or leaves the state as it is but for a codec value. -/
theorem restAct_next {a : Act} {s t : State} (hs : s.AtRest) (h : restAct a s = .next t) :
    t = s ∨ (∃ c, t = s.returns c) ∨ ∃ w m, exec (decodeCommand w) { s with ibuf := m } = .next t := by
  cases a with
  | command w m => exact .inr (.inr ⟨w, m, h⟩)
  | writeIbuf addr value => cases h; exact .inl rfl
  | readPayload record index => cases h
  | takeOnly count => cases h; exact .inl rfl
  | window bytes =>
    simp only [restAct] at h
    split at h
    · exact .inr (.inl (exec_window_direct hs ‹_› h))
    · cases h
  | classify raw => exact .inr (.inl (exec_fullness_direct h))

theorem inv_of_restAct {a : Act} {s t : State} (h : s.Inv) (hs : s.AtRest) (ht : restAct a s = .next t) : t.Inv := by
  obtain rfl | ⟨c, rfl⟩ | ⟨w, m, hw⟩ := restAct_next hs ht
  · exact h
  · exact inv_returns h c
  · obtain ⟨hsound, hport⟩ := soundAtRest_of_command (soundAtRest_of_inv h hs) (exec_decodeCommand_next hw) hw
    obtain ⟨-, -, -, hacts⟩ := h
    exact hsound.inv fun a ha => hacts a (hport ha)

/-- The outside's next act taken from the port. -/
theorem inv_later {s : State} {a : HostAction} {later : List HostAction} (h : s.Inv) (hp : s.port = a :: later) :
    State.Inv { s with port := later } := by
  obtain ⟨hregs, hphase, hmem, hacts⟩ := h
  refine ⟨hregs, hphase, hmem, fun b hb => hacts b ?_⟩
  rw [hp]
  exact List.mem_cons_of_mem a hb

/-- Settles O49, by what a step is: inside a PUSH an iteration of its loop or its end, at rest the outside's next act. -/
theorem stepKeepsTheInvariant : Obligations.StepKeepsTheInvariant := by
  intro s t h ht
  cases hr : s.run with
  | some r => exact inv_of_runStep h hr (step_running hr ▸ ht)
  | none =>
    cases hp : s.port with
    | nil =>
      rw [step_idle hr hp] at ht
      cases ht
      exact h
    | cons a later => exact inv_of_restAct (inv_later h hp) hr (step_act hr hp ▸ ht)

end Sys2Proof.Machine
end

section
/-! PROOFS. What a PUSH leaves alone: the records already in the channel, and IBUF (R19, R21, R22). -/
namespace Sys2Proof.Machine

/-! ## The channel inside a PUSH -/

theorem events_prefix_configDetect (hdr : Header) (s : State) : s.events <+: (configDetect hdr s).events := by
  by_cases hc : storedConfig s = some (configOf hdr)
  · rw [configDetect_same hc]
  · rw [configDetect_new hc]; exact List.prefix_append ..

theorem events_prefix_deliverHeader (hdr : Header) (s : State) (r : PushRun) :
    s.events <+: (deliverHeader hdr s r).events := by
  rw [deliverHeader_events]
  exact (events_prefix_configDetect hdr s).trans (List.prefix_append ..)

/-- An iteration of the loop only adds records. -/
theorem events_prefix_pushIteration {s t : State} {r : PushRun} (hr : s.run = some r)
    (h : pushIteration s r = some t) : s.events <+: t.events := by
  obtain ⟨_, _, rfl⟩ | ⟨_, _, _, _, ⟨e, rfl⟩ | ⟨f, _, rfl⟩ | ⟨f, crc, _, rfl⟩⟩ := pushIteration_cases hr h
  · rw [stepPayload_events]; exact List.prefix_append ..
  · rw [raiseError_events]; exact List.prefix_append ..
  · exact events_prefix_deliverHeader _ s r
  · exact events_prefix_deliverHeader _ s r

theorem events_prefix_pushLoop (fuel : Nat) (s : State) : s.events <+: (pushLoop fuel s).events :=
  pushLoop_induct (P := fun t => s.events <+: t.events)
    (fun _ _ _ hr hp ht => hp.trans (events_prefix_pushIteration hr ht)) fuel (List.prefix_refl _)

/-! ## A step, in any state whatever -/

/-- Where the loop goes on, exec of the window does what the loop does, or faults (U7). -/
theorem exec_next_of_windowStep {s t u : State} {i : Instr} (hu : windowStep i s = some u)
    (ht : exec i s = .next t) : t = u := by
  have hheader {v : State} (h : headerOutcome s v = .next t) : t = v := by
    unfold headerOutcome at h
    split at h
    · cases h
    · exact (Host.Outcome.next.inj h).symm
  cases i with
  | syncMiss sync low => cases hu; cases ht; rfl
  | adtsErrSf13 high low => cases hu; cases ht; rfl
  | adtsErrSf1415 high sfLow low => cases hu; cases ht; rfl
  | adtsErrShort protectionAbsent f => cases hu; cases ht; rfl
  | adtsHdr7 f => cases hu; exact hheader ht
  | adtsHdr9 f crc => cases hu; exact hheader ht
  | _ => cases hu

theorem waits_of_windowStep {s u : State} {i : Instr} (h : windowStep i s = some u) : waits i = false := by
  cases i with
  | syncCheck low => cases h
  | _ => rfl

theorem afterWindow_next {i : Instr} {r : PushRun} {o : Host.Outcome State Fault Refusal} {t : State}
    (hw : waits i = false) (h : afterWindow i r o = .next t) : o = .next t := by
  cases o with
  | next u => simpa only [afterWindow, hw, Bool.false_eq_true, ↓reduceIte] using h
  | fault f => cases h
  | refused q => cases h

/-- A step inside a PUSH whose loop goes on can only be that iteration. -/
theorem runStep_next_of_pushIteration {s t u : State} {r : PushRun} (hu : pushIteration s r = some u)
    (ht : runStep s r = .next t) : t = u := by
  unfold pushIteration at hu
  unfold runStep at ht
  split at hu
  · rename_i hs
    split at hu
    · cases hu
    · rename_i hne
      cases hu
      rw [if_pos hs, if_neg hne] at ht
      exact (Host.Outcome.next.inj ht).symm
  · rename_i hs
    rw [if_neg hs] at ht
    split at hu
    · rename_i i hi
      simp only [hi] at ht
      exact exec_next_of_windowStep hu (afterWindow_next (waits_of_windowStep hu) ht)
    · cases hu

/-- A step inside a PUSH is an iteration of its loop, or the end of the PUSH. -/
theorem step_next_of_run {s t : State} {r : PushRun} (hr : s.run = some r) (h : step s = .next t) :
    pushIteration s r = some t
      ∨ ∃ bytes, t = finishPush { s with port := s.port.dropWhile (·.overlaps), taken := s.taken ++ bytes } r := by
  rw [step_running hr] at h
  cases hiter : pushIteration s r with
  | some u => exact .inl (congrArg some (runStep_next_of_pushIteration hiter h).symm)
  | none => exact .inr (runStep_of_pushIteration_none hiter h)

/-! ## The channel over a whole command, and over a step -/

theorem events_prefix_execPush {s t : State} {len : BitVec 30} (h : execPush len s = .next t) :
    s.events <+: t.events := by
  obtain ⟨-, -, held, chunk, r, -, -, -, hend⟩ := execPush_next h
  obtain ⟨bytes, rfl⟩ := endPush_next hend
  exact events_prefix_pushLoop _ (startPush len (held ++ chunk) s)

/-- A command that completes only adds records, whatever IBUF it was given. -/
theorem events_prefix_command {s t : State} {w : BitVec 32} {m : Memory} (hs : s.AtRest)
    (h : exec (decodeCommand w) { s with ibuf := m } = .next t) : s.events <+: t.events := by
  obtain ⟨len, hw⟩ | hw := exec_decodeCommand_next h
  · rw [hw] at h
    exact events_prefix_execPush (s := { s with ibuf := m }) h
  · rw [hw, exec_reset_atRest (s := { s with ibuf := m }) hs] at h
    cases h
    exact List.prefix_refl _

theorem events_prefix_restAct {a : Act} {s t : State} (hs : s.AtRest) (h : restAct a s = .next t) :
    s.events <+: t.events := by
  obtain rfl | ⟨c, rfl⟩ | ⟨w, m, hw⟩ := restAct_next hs h
  · exact List.prefix_refl _
  · exact List.prefix_refl _
  · exact events_prefix_command hs hw

/-- Settles O46, by what a step is: only `emit` and CONFIG_DETECT touch the channel, and both add at its end. -/
theorem channelIsAppendOnly : Obligations.ChannelIsAppendOnly := by
  intro s t h
  cases hr : s.run with
  | some r =>
    obtain hiter | ⟨bytes, rfl⟩ := step_next_of_run hr h
    · exact events_prefix_pushIteration hr hiter
    · exact List.prefix_refl _
  | none =>
    cases hp : s.port with
    | nil =>
      rw [step_idle hr hp] at h
      cases h
      exact List.prefix_refl _
    | cons a later =>
      rw [step_act hr hp] at h
      exact events_prefix_restAct (s := { s with port := later }) hr h

/-- Settles O47: an iteration of the loop keeps IBUF and the PUSH, FINISH_PUSH ends both. -/
theorem blockNeverWritesIbuf : Obligations.BlockNeverWritesIbuf := by
  intro s t r hr h
  obtain hiter | ⟨bytes, rfl⟩ := step_next_of_run hr h
  · obtain ⟨hibuf, -⟩ := pushIteration_frame hr hiter
    obtain ⟨n, hrun⟩ := pushIteration_run hr hiter
    refine ⟨fun _ a => by rw [hibuf], fun hnone => ?_⟩
    rw [hrun] at hnone
    cases hnone
  · refine ⟨fun hsome => ?_, fun _ => rfl⟩
    cases hsome

end Sys2Proof.Machine
end

section
/-! PROOFS. What a PAYLOAD record names, and what a reference through it reads (R25, R26, R58, R67). -/
namespace Sys2Proof.Machine

/-! ## Reading a part of a chunk -/

/-- A part of a range read is the range read at that part's address (R20). -/
theorem memoryReadN_slice {m : Memory} {a n : Nat} {bs : List Byte} (h : memoryReadN m a n = some bs) (i k : Nat)
    (hik : i + k ≤ n) : memoryReadN m (a + i) k = some ((bs.drop i).take k) := by
  induction k generalizing i with
  | zero => rfl
  | succ k ih =>
    have hi : i < bs.length := by rw [memoryReadN_length h]; omega
    have hread := memoryReadN_getElem h i (by omega)
    rw [List.getElem?_eq_getElem hi] at hread
    rw [memoryReadN, hread, Nat.add_assoc, ih (i + 1) (by omega), List.drop_eq_getElem_cons hi, List.take_succ_cons]

/-! ## The slice of one iteration -/

/-- The cursor and what is left of Q make up Q (R57). -/
theorem State.AtPoint.cursor_add_rest {s : State} {r : PushRun} (h : s.AtPoint r) :
    r.cursor + r.rest.length = s.fill.toNat + r.len.toNat := by
  obtain ⟨held, chunk, hheld, hchunk⟩ := runOk_bytes h.point
  obtain ⟨hcur, hq, -, -⟩ := (runOk_iff hheld hchunk).1 h.point
  rw [← carried_length hheld, ← memoryReadN_length hchunk, hq, List.length_drop, List.length_append]
  omega

/-- What is left of Q while a frame is being delivered is what is left of the chunk (R57, R67). -/
theorem State.AtPoint.rest_of_streaming {s : State} {r : PushRun} (h : s.AtPoint r) (hs : s.streaming = true) :
    ∃ chunk, memoryReadN s.ibuf 0 r.len.toNat = some chunk ∧ r.rest = chunk.drop (r.cursor - s.fill.toNat) := by
  obtain ⟨hfill, -⟩ := h.payload hs
  obtain ⟨held, chunk, hheld, hchunk⟩ := runOk_bytes h.point
  obtain ⟨-, hq, -, -⟩ := (runOk_iff hheld hchunk).1 h.point
  rw [← carried_length hheld] at hfill ⊢
  exact ⟨chunk, hchunk, by rw [hq, List.drop_append, List.drop_eq_nil_of_le hfill, List.nil_append]⟩

theorem pushIteration_streaming {s : State} {r : PushRun} (hs : s.streaming = true) (hne : r.rest ≠ []) :
    pushIteration s r = some (stepPayload s r) := by
  simp only [pushIteration, hs, ↓reduceIte, List.isEmpty_iff, hne]

/-- The address and the length in a PAYLOAD record are the true ones: neither is cut off (R58, R71). -/
theorem State.AtPoint.slice_toNat {s : State} {r : PushRun} (h : s.AtPoint r) :
    (BitVec.ofNat 30 (r.cursor - s.fill.toNat)).toNat = r.cursor - s.fill.toNat
      ∧ (BitVec.ofNat 13 (min s.remain.toNat r.rest.length)).toNat = min s.remain.toNat r.rest.length := by
  have hq := h.cursor_add_rest
  have hlen := r.len.isLt
  have hremain := s.remain.isLt
  rw [BitVec.toNat_ofNat, BitVec.toNat_ofNat]
  omega

/-- Settles O30: at a legal point what is left of Q is the chunk from p - F on, which is the address that the record
gives. -/
theorem payloadSliceIsTheNextStreamBytes : Obligations.PayloadSliceIsTheNextStreamBytes := by
  intro s t r hinv hr hs hne ht
  have hat := atPoint_of_inv hinv hr
  obtain rfl := runStep_next_of_pushIteration (pushIteration_streaming hs hne) (step_running hr ▸ ht)
  obtain ⟨hfill, -⟩ := hat.payload hs
  obtain ⟨chunk, hchunk, hrest⟩ := hat.rest_of_streaming hs
  obtain ⟨hoffset, hlength⟩ := hat.slice_toNat
  refine ⟨_, _, by rw [stepPayload_events, List.getElem?_append_right le_rfl, Nat.sub_self]; rfl, ?_⟩
  have hq := hat.cursor_add_rest
  have hread := memoryReadN_slice hchunk (r.cursor - s.fill.toNat) (min s.remain.toNat r.rest.length) (by omega)
  rw [hoffset, hlength]
  rwa [Nat.zero_add, ← hrest] at hread

/-! ## The slices of the whole loop -/

theorem newEvents_self (s : State) : newEvents s s = [] := List.drop_length

theorem newEvents_trans {s t u : State} (hst : s.events <+: t.events) (htu : t.events <+: u.events) :
    newEvents s u = newEvents s t ++ newEvents t u := by
  obtain ⟨es, hes⟩ := hst
  obtain ⟨fs, hfs⟩ := htu
  simp only [newEvents, ← hfs, ← hes, List.append_assoc, List.drop_left]
  rw [← List.append_assoc, List.drop_left]

/-- The records of a loop that goes on: those of its next iteration, then the others. -/
theorem newEvents_pushLoop_more {s t : State} {r : PushRun} (hr : s.run = some r) (ht : pushIteration s r = some t)
    (fuel : Nat) :
    newEvents s (pushLoop (fuel + 1) s) = newEvents s t ++ newEvents t (pushLoop fuel t) := by
  rw [pushLoop_more hr ht]
  exact newEvents_trans (events_prefix_pushIteration hr ht) (events_prefix_pushLoop fuel t)

theorem pushIteration_fill_taken {s t : State} {r : PushRun} (hr : s.run = some r) (h : pushIteration s r = some t) :
    t.fill = s.fill ∧ t.taken = s.taken := by
  obtain ⟨_, _, rfl⟩ | ⟨_, _, _, _, ⟨e, rfl⟩ | ⟨f, _, rfl⟩ | ⟨f, crc, _, rfl⟩⟩ := pushIteration_cases hr h <;> simp

theorem payload_notMem_newEvents_deliverHeader (hdr : Header) (s : State) (r : PushRun) (offset : BitVec 30)
    (length : BitVec 13) : .payload offset length ∉ newEvents s (deliverHeader hdr s r) := by
  by_cases hc : storedConfig s = some (configOf hdr)
  · rw [newEvents, deliverHeader_events, configDetect_same hc, List.drop_left]
    split <;> simp
  · rw [newEvents, deliverHeader_events, configDetect_new hc, State.emit_events, List.append_assoc, List.drop_left]
    split <;> simp

/-- Only STEP_PAYLOAD emits a PAYLOAD record: its slice begins at the cursor, and the cursor moves past it (R58). -/
theorem slice_of_pushIteration {s t : State} {r : PushRun} (h : s.AtPoint r) (ht : pushIteration s r = some t)
    {offset : BitVec 30} {length : BitVec 13} (hp : .payload offset length ∈ newEvents s t) :
    s.streaming = true ∧ offset.toNat + s.fill.toNat = r.cursor ∧ length.toNat ≤ r.rest.length
      ∧ t.run = some (r.advance length.toNat) := by
  obtain ⟨hs, -, rfl⟩ | ⟨_, _, _, _, ⟨e, rfl⟩ | ⟨f, _, rfl⟩ | ⟨f, crc, _, rfl⟩⟩ := pushIteration_cases h.running ht
  · obtain ⟨hfill, -⟩ := h.payload hs
    obtain ⟨hoffset, hlength⟩ := h.slice_toNat
    have heq : Event.payload offset length = .payload (BitVec.ofNat 30 (r.cursor - s.fill.toNat))
        (BitVec.ofNat 13 (min s.remain.toNat r.rest.length)) := by
      rw [newEvents, stepPayload_events, List.drop_left, List.mem_cons] at hp
      obtain heq | hp := hp
      · exact heq
      · split at hp <;> simp at hp
    cases heq
    rw [hoffset, hlength, stepPayload_run]
    exact ⟨hs, by omega, Nat.min_le_right _ _, rfl⟩
  · simp [newEvents] at hp
  · exact absurd hp (payload_notMem_newEvents_deliverHeader _ _ _ _ _)
  · exact absurd hp (payload_notMem_newEvents_deliverHeader _ _ _ _ _)

/-- Every PAYLOAD record of a PUSH lies inside the chunk (R67). -/
theorem slice_le_of_pushLoop {fuel : Nat} {s : State} {r : PushRun} (h : s.AtPoint r) {offset : BitVec 30}
    {length : BitVec 13} (hp : .payload offset length ∈ newEvents s (pushLoop fuel s)) :
    offset.toNat + length.toNat ≤ r.len.toNat := by
  induction fuel generalizing s r with
  | zero => rw [pushLoop, newEvents_self] at hp; cases hp
  | succ fuel ih =>
    cases ht : pushIteration s r with
    | none => rw [pushLoop_stop h.running ht, newEvents_self] at hp; cases hp
    | some t =>
      obtain ⟨n, -, -, hat⟩ := atPoint_pushIteration h ht
      rw [newEvents_pushLoop_more h.running ht, List.mem_append] at hp
      obtain hp | hp := hp
      · obtain ⟨-, hoffset, hlength, -⟩ := slice_of_pushIteration h ht hp
        have hq := h.cursor_add_rest
        omega
      · exact ih (r := r.advance n) hat hp

end Sys2Proof.Machine
end

section
/-! PROOFS. What an iteration of a PUSH reads: of IBUF and the port nothing, of Q the window at the
cursor (R20). -/
namespace Sys2Proof.Machine

/-! ## The same PUSH with another outside and another view of Q -/

/-- `s` with another IBUF and another port, its PUSH in progress seen through `view`. -/
def State.seeing (s : State) (ibuf : Memory) (port : List HostAction) (view : PushRun → PushRun) : State :=
  { s with ibuf := ibuf, port := port, run := s.run.map view }

/-- The view changes at most what is left of Q, and the cursor moves as before. -/
structure KeepsCursor (view : PushRun → PushRun) : Prop where
  cursor : ∀ r, (view r).cursor = r.cursor
  advance : ∀ r n, view (r.advance n) = (view r).advance n

/-- The PUSH as if Q were `queue` (R57). -/
def PushRun.over (queue : List Byte) (r : PushRun) : PushRun := { r with rest := queue.drop r.cursor }

theorem keepsCursor_id : KeepsCursor id := ⟨fun _ => rfl, fun _ _ => rfl⟩

theorem keepsCursor_over (queue : List Byte) : KeepsCursor (PushRun.over queue) :=
  ⟨fun _ => rfl, fun r n => by simp only [PushRun.over, PushRun.advance, List.drop_drop]⟩

theorem seeing_id (s : State) (ibuf : Memory) (port : List HostAction) :
    s.seeing ibuf port id = { s with ibuf := ibuf, port := port } := by
  simp only [State.seeing, Option.map_id_fun, id]

section
variable {view : PushRun → PushRun} (hv : KeepsCursor view) (s : State) (r : PushRun) (ibuf : Memory)
  (port : List HostAction)

@[simp] theorem seeing_streaming : (s.seeing ibuf port view).streaming = s.streaming := rfl

theorem seeing_run (s : State) (hr : s.run = some r) : (s.seeing ibuf port view).run = some (view r) := by
  simp only [State.seeing, hr, Option.map_some]

theorem configDetect_seeing (hdr : Header) :
    configDetect hdr (s.seeing ibuf port view) = (configDetect hdr s).seeing ibuf port view := by
  by_cases hc : storedConfig s = some (configOf hdr)
  · rw [configDetect_same hc]; exact configDetect_same (s := s.seeing ibuf port view) hc
  · rw [configDetect_new hc]; exact configDetect_new (s := s.seeing ibuf port view) hc

include hv

theorem raiseError_seeing (e : HeaderError) :
    raiseError e (s.seeing ibuf port view) (view r) = (raiseError e s r).seeing ibuf port view := by
  simp only [raiseError, State.emit, State.withRun, State.seeing, streamBase, hv.cursor, hv.advance, Option.map_some]

theorem deliverHeader_seeing (hdr : Header) :
    deliverHeader hdr (s.seeing ibuf port view) (view r) = (deliverHeader hdr s r).seeing ibuf port view := by
  unfold deliverHeader
  rw [configDetect_seeing]
  dsimp only
  split <;> simp only [State.emit, State.withRun, State.seeing, hv.advance, Option.map_some]

theorem stepPayload_seeing (hlen : (view r).rest.length = r.rest.length) :
    stepPayload (s.seeing ibuf port view) (view r) = (stepPayload s r).seeing ibuf port view := by
  unfold stepPayload
  rw [hlen]
  simp only [State.emit, State.withRun, State.seeing, hv.cursor, ← hv.advance]
  split <;> simp only [frameDone, State.emit, Option.map_some]

theorem windowStep_seeing {s : State} (hr : s.run = some r) (i : Instr) :
    windowStep i (s.seeing ibuf port view) = (windowStep i s).map (·.seeing ibuf port view) := by
  have hfail (e : HeaderError) :
      failingWindow e (s.seeing ibuf port view) = (failingWindow e s).seeing ibuf port view := by
    rw [failingWindow_running hr, failingWindow_running (seeing_run r ibuf port s hr), raiseError_seeing hv]
  have hheader (hdr : Header) :
      headerWindow hdr (s.seeing ibuf port view) = (headerWindow hdr s).seeing ibuf port view := by
    rw [headerWindow_running hr, headerWindow_running (seeing_run r ibuf port s hr), deliverHeader_seeing hv]
  cases i with
  | syncMiss sync low => exact congrArg some (hfail _)
  | adtsErrSf13 high low => exact congrArg some (hfail _)
  | adtsErrSf1415 high sfLow low => exact congrArg some (hfail _)
  | adtsErrShort protectionAbsent f => exact congrArg some (hfail _)
  | adtsHdr7 f => exact congrArg some (hheader _)
  | adtsHdr9 f crc => exact congrArg some (hheader _)
  | _ => rfl

/-- An iteration reads of Q how many bytes are left and, between frames, the instruction at the cursor; of IBUF and the
port nothing. -/
theorem pushIteration_seeing {s : State} (hr : s.run = some r) (hlen : (view r).rest.length = r.rest.length)
    (hwin : s.streaming = false → decodeWindow (view r).rest = decodeWindow r.rest) :
    pushIteration (s.seeing ibuf port view) (view r) = (pushIteration s r).map (·.seeing ibuf port view) := by
  have hempty : (view r).rest.isEmpty = r.rest.isEmpty := by
    rw [Bool.eq_iff_iff, List.isEmpty_iff_length_eq_zero, List.isEmpty_iff_length_eq_zero, hlen]
  unfold pushIteration
  rw [seeing_streaming, stepPayload_seeing hv s r ibuf port hlen, hempty]
  cases hs : s.streaming with
  | true => cases r.rest.isEmpty <;> rfl
  | false =>
    simp only [Bool.false_eq_true, ↓reduceIte, hwin hs]
    cases decodeWindow r.rest with
    | none => rfl
    | some i => exact windowStep_seeing hv r ibuf port hr i

end

/-- The loop reads neither IBUF nor the port (R20). -/
theorem pushLoop_outside (fuel : Nat) (s : State) (ibuf : Memory) (port : List HostAction) :
    pushLoop fuel { s with ibuf := ibuf, port := port } = { pushLoop fuel s with ibuf := ibuf, port := port } := by
  rw [← seeing_id, ← seeing_id]
  induction fuel generalizing s with
  | zero => rfl
  | succ fuel ih =>
    cases hr : s.run with
    | none => simp only [pushLoop, hr, State.seeing, Option.map_none]
    | some r =>
      have hrun := seeing_run (view := id) r ibuf port s hr
      have hiter := pushIteration_seeing keepsCursor_id r ibuf port hr rfl fun _ => rfl
      cases ht : pushIteration s r with
      | none =>
        rw [ht] at hiter
        rw [pushLoop_stop hr ht, pushLoop_stop hrun hiter]
      | some t =>
        rw [ht] at hiter
        rw [pushLoop_more hr ht, pushLoop_more hrun hiter, ih]

theorem pushLoop_withIbuf (fuel : Nat) (s : State) (ibuf : Memory) :
    pushLoop fuel { s with ibuf := ibuf } = { pushLoop fuel s with ibuf := ibuf } := by
  refine (pushLoop_outside fuel s ibuf s.port).trans ?_
  rw [← pushLoop_port fuel]

theorem quiet_pushLoop {s : State} (h : s.Quiet) (fuel : Nat) : (pushLoop fuel s).Quiet := by
  rw [State.Quiet, pushLoop_port]
  exact h

/-- The end of a PUSH that nothing overlaps drops IBUF unread. -/
theorem endPush_withIbuf {s : State} (h : s.Quiet) (ibuf : Memory) (r : PushRun) :
    endPush { s with ibuf := ibuf } r = endPush s r :=
  (endPush_quiet (s := { s with ibuf := ibuf }) h).trans (endPush_quiet h).symm

/-! ## PUSH, read forwards -/

/-- A PUSH at rest with its bytes in place is its loop and the end of the PUSH. -/
theorem execPush_eq_endPush {len : BitVec 30} {s : State} {held chunk : List Byte} {r : PushRun} (hrun : s.run = none)
    (hcfg : cfgMissing s = false) (hheld : carried s = some held)
    (hchunk : memoryReadN s.ibuf 0 len.toNat = some chunk)
    (hr : (pushLoop ((held ++ chunk).length + 2) (startPush len (held ++ chunk) s)).run = some r) :
    execPush len s = endPush (pushLoop ((held ++ chunk).length + 2) (startPush len (held ++ chunk) s)) r := by
  simp only [execPush, hrun, Option.isSome_none, Bool.false_eq_true, ↓reduceIte, hcfg, hheld, hchunk, hr]

/-- Settles O41: the chunk is read once, before the loop, and the loop reads no IBUF. -/
theorem pushReadsOnlyItsChunk : Obligations.PushReadsOnlyItsChunk := by
  intro s len m m' hq hread
  have hcarried : carried { s with ibuf := m } = carried { s with ibuf := m' } := rfl
  refine if_congr Iff.rfl rfl (if_congr Iff.rfl rfl ?_)
  dsimp only
  rw [hread, hcarried]
  split
  · rfl
  · rfl
  · rename_i held chunk _ _
    obtain ⟨r, hr⟩ := pushLoop_run ((held ++ chunk).length + 2)
      (startPush_run len (held ++ chunk) { s with ibuf := m })
    have hloop : pushLoop ((held ++ chunk).length + 2) (startPush len (held ++ chunk) { s with ibuf := m' }) =
        { pushLoop ((held ++ chunk).length + 2) (startPush len (held ++ chunk) { s with ibuf := m }) with
          ibuf := m' } :=
      pushLoop_withIbuf _ (startPush len (held ++ chunk) { s with ibuf := m }) m'
    have hquiet := quiet_pushLoop (s := startPush len (held ++ chunk) { s with ibuf := m }) hq
      ((held ++ chunk).length + 2)
    rw [hloop]
    dsimp only
    split
    · exact (endPush_withIbuf hquiet m' _).symm
    · rename_i hnone
      rw [hr] at hnone
      cases hnone

end Sys2Proof.Machine
end

section
/-! PROOFS. A PUSH of a chunk is its loop and the end of the PUSH; references read through it (R25, R26). -/
namespace Sys2Proof.Machine

/-! ## PUSH of a chunk -/

/-- Where a PUSH of `chunk` begins, `held` being the carried bytes (R57). -/
def chunkStart (held chunk : List Byte) (s : State) : State :=
  startPush (BitVec.ofNat 30 chunk.length) (held ++ chunk) { s with ibuf := memoryOf chunk }

/-- The PUSH in progress there (R57). -/
def chunkRun (held chunk : List Byte) (s : State) : PushRun where
  len := BitVec.ofNat 30 chunk.length
  cursor := 0
  rest := held ++ chunk
  firstEvent := s.events.length

/-- Where the loop of that PUSH ends (R56). -/
def chunkLoop (held chunk : List Byte) (s : State) : State :=
  pushLoop ((held ++ chunk).length + 2) (chunkStart held chunk s)

theorem pushLoop_ibuf_taken (fuel : Nat) (s : State) :
    (pushLoop fuel s).ibuf = s.ibuf ∧ (pushLoop fuel s).taken = s.taken := by
  refine pushLoop_induct (P := fun t => t.ibuf = s.ibuf ∧ t.taken = s.taken) ?_ fuel ⟨rfl, rfl⟩
  rintro u r t hr ⟨hibuf, htaken⟩ ht
  rw [(pushIteration_frame hr ht).1, (pushIteration_fill_taken hr ht).2]
  exact ⟨hibuf, htaken⟩

/-- A PUSH keeps the number of its first record (R26). -/
theorem pushLoop_firstEvent {fuel : Nat} {s : State} {r r' : PushRun} (hr : s.run = some r)
    (hr' : (pushLoop fuel s).run = some r') : r'.firstEvent = r.firstEvent := by
  refine pushLoop_induct (P := fun t => ∀ q, t.run = some q → q.firstEvent = r.firstEvent) ?_ fuel ?_ r' hr'
  · intro u q t hu hq ht q' hq'
    obtain ⟨n, hn⟩ := pushIteration_run hu ht
    obtain rfl := Option.some.inj (hn.symm.trans hq')
    exact hq q hu
  · intro q hq
    rw [Option.some.inj (hr.symm.trans hq)]

/-- A PUSH of `chunk` with the bytes `held` in CARRY: it begins at a legal point, and where its loop ends, with `r` in
progress, the PUSH ends. -/
structure State.Pushes (s : State) (held chunk : List Byte) (r : PushRun) : Prop where
  carried : carried s = some held
  start : (chunkStart held chunk s).AtPoint (chunkRun held chunk s)
  run : (chunkLoop held chunk s).run = some r
  outcome : pushChunk chunk s = endPush (chunkLoop held chunk s) r

theorem pushes_of_run {s : State} {held chunk : List Byte} {r : PushRun} (h : s.SoundAtRest)
    (hlen : chunk.length < 2 ^ 30) (hheld : carried s = some held) (hr : (chunkLoop held chunk s).run = some r) :
    s.Pushes held chunk r := by
  obtain ⟨hrun, hregs, -, hstream⟩ := h
  have hchunk : memoryReadN (memoryOf chunk) 0 (BitVec.ofNat 30 chunk.length).toNat = some chunk := by
    rw [BitVec.toNat_ofNat, Nat.mod_eq_of_lt hlen, memoryReadN_of]
  exact ⟨hheld, atPoint_startPush (s := { s with ibuf := memoryOf chunk }) hregs hstream hheld hchunk, hr,
    execPush_eq_endPush (s := { s with ibuf := memoryOf chunk }) hrun (cfgMissing_of_registersOk hregs) hheld hchunk hr⟩

/-- A PUSH of any chunk from a legal state at rest is its loop and the end of the PUSH (R56). -/
theorem pushes_of_soundAtRest {s : State} {chunk : List Byte} (h : s.SoundAtRest) (hlen : chunk.length < 2 ^ 30) :
    ∃ held r, s.Pushes held chunk r := by
  obtain ⟨held, hheld⟩ := carried_of_registersOk h.registers
  obtain ⟨r, hr⟩ := pushLoop_run (s := chunkStart held chunk s) ((held ++ chunk).length + 2) rfl
  exact ⟨held, r, pushes_of_run h hlen hheld hr⟩

theorem State.Pushes.firstEvent {s : State} {held chunk : List Byte} {r : PushRun} (h : s.Pushes held chunk r) :
    r.firstEvent = s.events.length :=
  pushLoop_firstEvent h.start.running h.run

theorem chunkLoop_port (held chunk : List Byte) (s : State) : (chunkLoop held chunk s).port = s.port :=
  pushLoop_port _

theorem quiet_chunkLoop {s : State} (h : s.Quiet) (held chunk : List Byte) : (chunkLoop held chunk s).Quiet :=
  quiet_pushLoop (s := chunkStart held chunk s) h _

theorem chunkLoop_ibuf (held chunk : List Byte) (s : State) : (chunkLoop held chunk s).ibuf = memoryOf chunk :=
  (pushLoop_ibuf_taken _ _).1

theorem chunkLoop_taken (held chunk : List Byte) (s : State) : (chunkLoop held chunk s).taken = s.taken :=
  (pushLoop_ibuf_taken _ _).2

/-! ## The consumer's read while a PUSH runs -/

/-- A record of an earlier PUSH is stale (R26). -/
theorem readReference_stale {s : State} {r : PushRun} {record : Nat} (hr : s.run = some r)
    (h : record < r.firstEvent) (index : Nat) : readReference s record index = .error .stalePayloadReference := by
  simp only [readReference, hr, h, ↓reduceIte]

/-- A record of the running PUSH reads IBUF at its offset and index (R25, R26). -/
theorem readReference_live {s : State} {r : PushRun} {record index : Nat} {offset : BitVec 30} {length : BitVec 13}
    {b : Byte} (hr : s.run = some r) (h : r.firstEvent ≤ record)
    (he : s.events[record]? = some (.payload offset length)) (hi : index < length.toNat)
    (hb : memoryRead s.ibuf (offset.toNat + index) = some b) : readReference s record index = .ok b := by
  simp only [readReference, hr, Nat.not_lt.2 h, ↓reduceIte, he, hi, hb]

theorem overlapAct_readPayload_ok {s : State} {record index : Nat} {b : Byte}
    (h : readReference s record index = .ok b) (r : PushRun) :
    overlapAct (.readPayload record index) s r = .next { s with taken := s.taken ++ [b] } := by
  simp only [overlapAct, h]

theorem overlapAct_readPayload_error {s : State} {r : PushRun} {record index : Nat} {f : Fault}
    (h : readReference s record index = .error f) : overlapAct (.readPayload record index) s r = .fault f := by
  simp only [overlapAct, h]

/-- A PUSH whose first overlapping act faults. -/
theorem endPush_fault {s : State} {r : PushRun} {a : HostAction} {later : List HostAction} {f : Fault}
    (hp : s.port = a :: later) (ho : a.overlaps = true)
    (ha : overlapAct a.act { s with port := later.dropWhile (·.overlaps) } r = .fault f) : endPush s r = .fault f := by
  simp only [endPush, hp, List.takeWhile_cons, List.dropWhile_cons, ho, ↓reduceIte, overlapActs, ha]

/-- A PUSH that one act overlaps. -/
theorem endPush_single {s t : State} {r : PushRun} {a : HostAction} {later : List HostAction}
    (hp : s.port = a :: later) (ho : a.overlaps = true) (hq : later.takeWhile (·.overlaps) = [])
    (ha : overlapAct a.act { s with port := later } r = .next t) : endPush s r = .next (finishPush t r) := by
  simp only [endPush, hp, List.takeWhile_cons, List.dropWhile_cons, ho, ↓reduceIte, hq, dropWhile_of_takeWhile_nil hq,
    overlapActs, ha]

/-- Settles O43: at rest no reference is live, and a PUSH numbers its own records from the channel's end on. -/
theorem staleReferencesFault : Obligations.StaleReferencesFault := by
  refine ⟨fun s o record index later hrest hp => step_act hrest hp, ?_⟩
  intro s chunk record index later hinv hrest hlen hrecord hp
  obtain ⟨held, r, h⟩ := pushes_of_soundAtRest (soundAtRest_of_inv hinv hrest) hlen
  rw [h.outcome]
  exact endPush_fault ((chunkLoop_port held chunk s).trans hp) rfl
    (overlapAct_readPayload_error (readReference_stale h.run (h.firstEvent ▸ hrecord) index))

/-- The loop does not depend on what the outside will do while the PUSH runs. -/
theorem chunkLoop_withPort (held chunk : List Byte) (s : State) (port : List HostAction) :
    chunkLoop held chunk { s with port := port } = { chunkLoop held chunk s with port := port } := by
  have h : chunkLoop held chunk { s with port := port } =
      { chunkLoop held chunk s with ibuf := memoryOf chunk, port := port } :=
    pushLoop_outside _ (chunkStart held chunk s) (memoryOf chunk) port
  rw [h, ← chunkLoop_ibuf held chunk s]

theorem mem_newEvents_of_getElem? {s t : State} {k : Nat} {e : Event} (hk : s.events.length ≤ k)
    (h : t.events[k]? = some e) : e ∈ newEvents s t := by
  refine List.mem_of_getElem? (i := k - s.events.length) ?_
  rw [newEvents, List.getElem?_drop, Nat.add_sub_cancel' hk, h]

/-- Every PAYLOAD record of a PUSH names bytes of the chunk (R67). -/
theorem State.Pushes.slice_le {s : State} {held chunk : List Byte} {r : PushRun} (h : s.Pushes held chunk r)
    (hlen : chunk.length < 2 ^ 30) {offset : BitVec 30} {length : BitVec 13}
    (hp : .payload offset length ∈ newEvents s (chunkLoop held chunk s)) :
    offset.toNat + length.toNat ≤ chunk.length := by
  have hle : offset.toNat + length.toNat ≤ (BitVec.ofNat 30 chunk.length).toNat := slice_le_of_pushLoop h.start hp
  rwa [BitVec.toNat_ofNat, Nat.mod_eq_of_lt hlen] at hle

/-- Settles O44: the slice lies in the chunk, IBUF still holds it, and the PUSH ends as it does when nothing overlaps
it, but for the byte taken. -/
theorem liveReferencesReadTheChunk : Obligations.LiveReferencesReadTheChunk := by
  intro s t chunk record index later offset length hinv hrest hlen ht hfirst hrecord hindex hp hq
  have hsound := soundAtRest_of_inv hinv hrest
  obtain ⟨held, r, h⟩ := pushes_of_soundAtRest hsound hlen
  have hloop := chunkLoop_withPort held chunk s []
  have h' : State.Pushes { s with port := [] } held chunk r :=
    pushes_of_run ⟨hsound.atRest, hsound.registers, hsound.rest⟩ hlen h.carried (by rw [hloop]; exact h.run)
  rw [h'.outcome, hloop, endPush_quiet rfl] at ht
  cases ht
  have hle := h.slice_le hlen (mem_newEvents_of_getElem? hfirst hrecord)
  have hbyte := List.getElem?_eq_getElem (show offset.toNat + index < chunk.length by omega)
  refine ⟨_, hbyte, ?_⟩
  rw [← memoryRead_of, ← chunkLoop_ibuf held chunk s] at hbyte
  have hread := readReference_live h.run (h.firstEvent ▸ hfirst) hrecord hindex hbyte
  have hact := overlapAct_readPayload_ok (s := { chunkLoop held chunk s with port := later }) hread r
  rw [h.outcome, endPush_single ((chunkLoop_port held chunk s).trans hp) rfl hq hact, ← chunkLoop_taken held chunk s]
  rfl

end Sys2Proof.Machine
end

section
/-! PROOFS. A payload byte's value is never read (R20, R83). -/
namespace Sys2Proof.Machine

/-! ## The bytes a window's decoding reads -/

/-- How many bytes at the start of a window decide what is decoded there: a CRC is read only from a header that passes
its checks (R41, R54). -/
def bytesRead (bytes : List Byte) : Nat :=
  match decodeWindow bytes with
  | some (.adtsHdr9 _ _) => 9
  | _ => 7

theorem bytesRead_of_hdr9 {bytes : List Byte} {f : HeaderFields} {crc : BitVec 16}
    (h : decodeWindow bytes = some (.adtsHdr9 f crc)) : bytesRead bytes = 9 := by
  simp only [bytesRead, h]

theorem bytesRead_of_ne_hdr9 {bytes : List Byte} (h : ∀ f crc, decodeWindow bytes ≠ some (.adtsHdr9 f crc)) :
    bytesRead bytes = 7 := by
  unfold bytesRead
  split
  · exact absurd ‹_› (h _ _)
  · rfl

theorem seven_le_bytesRead (bytes : List Byte) : 7 ≤ bytesRead bytes := by
  unfold bytesRead
  split <;> decide

/-- A header that fails its checks is the same row whatever would have followed them (R41). -/
theorem headerRow_of_ne {h1 h2 h3 h4 h5 h6 : Byte} {good : Instr} (h : headerRow h1 h2 h3 h4 h5 h6 good ≠ good)
    (good' : Instr) : headerRow h1 h2 h3 h4 h5 h6 good' = headerRow h1 h2 h3 h4 h5 h6 good := by
  unfold headerRow at h ⊢
  dsimp only at h ⊢
  split_ifs at h ⊢
  · rfl
  · rfl
  · rfl
  · exact absurd rfl h

/-- Two windows of one length that agree on the bytes that are read decode alike. -/
theorem decodeWindow_congr {bytes bytes' : List Byte} (hlen : bytes'.length = bytes.length)
    (h : bytes'.take (bytesRead bytes) = bytes.take (bytesRead bytes)) : decodeWindow bytes' = decodeWindow bytes := by
  have h7 : bytes'.take 7 = bytes.take 7 := by
    have := congrArg (List.take 7) h
    rwa [List.take_take, List.take_take, Nat.min_eq_left (seven_le_bytesRead bytes)] at this
  obtain hl | ⟨b0, b1, t, rfl, hs⟩ | ⟨b0, b1, t, rfl, hs, hl⟩ | ⟨b0, b1, b2, b3, b4, b5, b6, t, rfl, hs, hp⟩ |
    ⟨b0, b1, b2, b3, b4, b5, b6, c0, c1, t, rfl, hs, hp⟩ := window_cases bytes
  · rw [decodeWindow_short hl, decodeWindow_short (hlen ▸ hl)]
  · rw [← List.take_append_drop 7 bytes', h7]
    exact (decodeWindow_miss hs _).trans (decodeWindow_miss hs t).symm
  · have hwait : decodeWindow (b0 :: b1 :: (t.take 5 ++ bytes'.drop 7)) = _ := decodeWindow_wait hs (by
      simp only [List.length_append, List.length_take, List.length_drop, List.length_cons] at hlen ⊢
      omega)
    rw [← List.take_append_drop 7 bytes', h7]
    exact hwait.trans (decodeWindow_wait hs hl).symm
  · rw [← List.take_append_drop 7 bytes', h7]
    exact (decodeWindow_seven hs hp).trans (decodeWindow_seven hs hp).symm
  · obtain ⟨d0, d1, u, rfl⟩ : ∃ d0 d1 u, bytes' = b0 :: b1 :: b2 :: b3 :: b4 :: b5 :: b6 :: d0 :: d1 :: u := by
      have hdrop : (bytes'.drop 7).length = (c0 :: c1 :: t).length := by rw [List.length_drop, hlen]; rfl
      match hu : bytes'.drop 7, hdrop with
      | d0 :: d1 :: u, _ => exact ⟨d0, d1, u, by rw [← List.take_append_drop 7 bytes', h7, hu]; rfl⟩
    have hnine := decodeWindow_nine (b2 := b2) (b3 := b3) (b4 := b4) (b5 := b5) (b6 := b6) (c0 := c0) (c1 := c1)
      (t := t) hs hp
    rw [hnine, decodeWindow_nine hs hp]
    by_cases hgood : headerRow b1 b2 b3 b4 b5 b6 (.adtsHdr9 (fieldsOf b1 b2 b3 b4 b5 b6) (c0 ++ c1)) =
        .adtsHdr9 (fieldsOf b1 b2 b3 b4 b5 b6) (c0 ++ c1)
    · rw [bytesRead_of_hdr9 (hnine.trans (congrArg some hgood))] at h
      obtain ⟨rfl, rfl⟩ : d0 = c0 ∧ d1 = c1 := by simpa using h
      rfl
    · exact congrArg some (headerRow_of_ne hgood _)

/-! ## The slices that come after a point of a PUSH -/

/-- How many bytes from the cursor on an iteration reads. -/
def lookahead (s : State) (r : PushRun) : Nat := if s.streaming then 0 else bytesRead r.rest

theorem lookahead_of_streaming {s : State} (hs : s.streaming = true) (r : PushRun) : lookahead s r = 0 := by
  rw [lookahead, hs, if_pos rfl]

theorem lookahead_of_not_streaming {s : State} (hs : s.streaming = false) (r : PushRun) :
    lookahead s r = bytesRead r.rest := by
  simp only [lookahead, hs, Bool.false_eq_true, ↓reduceIte]

/-- What an iteration reads it has passed, or reads again in the next one. -/
theorem lookahead_le {s t : State} {r : PushRun} {n : Nat} (hr : s.run = some r) (ht : pushIteration s r = some t)
    (hn : t.run = some (r.advance n)) : lookahead s r ≤ n + lookahead t (r.advance n) := by
  have hcursor {k : Nat} (hk : t.run = some (r.advance k)) : n = k := by
    have := congrArg PushRun.cursor (Option.some.inj (hn.symm.trans hk))
    simpa using this
  obtain ⟨hs, -, rfl⟩ | ⟨hs, i, hi, hstep, hcases⟩ := pushIteration_cases hr ht
  · rw [lookahead_of_streaming hs]; exact Nat.zero_le _
  · by_cases hnine : ∃ f crc, i = .adtsHdr9 f crc
    · obtain ⟨f, crc, rfl⟩ := hnine
      obtain rfl : deliverHeader (headerOf false f (some crc)) s r = t :=
        (headerWindow_running hr _).symm.trans (Option.some.inj hstep)
      obtain rfl : n = 9 := hcursor (deliverHeader_run _ _ _)
      rw [lookahead_of_not_streaming hs, bytesRead_of_hdr9 hi]
      exact Nat.le_add_right _ _
    · have h7 : lookahead s r = 7 := by
        rw [lookahead_of_not_streaming hs]
        refine bytesRead_of_ne_hdr9 fun f crc h => hnine ⟨f, crc, ?_⟩
        exact Option.some.inj (hi.symm.trans h)
      obtain ⟨e, rfl⟩ | ⟨f, -, rfl⟩ | ⟨f, crc, rfl, -⟩ := hcases
      · rw [h7, lookahead_of_not_streaming (raiseError_streaming e s r ▸ hs)]
        exact (seven_le_bytesRead _).trans (Nat.le_add_left _ _)
      · obtain rfl : n = 7 := hcursor (deliverHeader_run _ _ _)
        omega
      · exact absurd ⟨f, crc, rfl⟩ hnine

/-- No slice that is still to come begins before the bytes that the next iteration reads end. -/
theorem lookahead_le_of_slice {fuel : Nat} {s : State} {r : PushRun} (h : s.AtPoint r) {offset : BitVec 30}
    {length : BitVec 13} (hp : .payload offset length ∈ newEvents s (pushLoop fuel s)) :
    r.cursor + lookahead s r ≤ offset.toNat + s.fill.toNat := by
  induction fuel generalizing s r with
  | zero => rw [pushLoop, newEvents_self] at hp; cases hp
  | succ fuel ih =>
    cases ht : pushIteration s r with
    | none => rw [pushLoop_stop h.running ht, newEvents_self] at hp; cases hp
    | some t =>
      obtain ⟨n, -, -, hat⟩ := atPoint_pushIteration h ht
      rw [newEvents_pushLoop_more h.running ht, List.mem_append] at hp
      obtain hp | hp := hp
      · obtain ⟨hs, hoffset, -, -⟩ := slice_of_pushIteration h ht hp
        rw [hoffset, lookahead_of_streaming hs, Nat.add_zero]
      · have hnext := ih hat hp
        have hle := lookahead_le h.running ht hat.running
        rw [advance_cursor, (pushIteration_fill_taken h.running ht).1] at hnext
        omega

/-! ## The same PUSH with other payload bytes -/

/-- Two queues differ, from the cursor on, only inside the slices that the PUSH still emits until it reaches `final`. -/
def DifferInSlices (queue queue' : List Byte) (s : State) (r : PushRun) (final : State) : Prop :=
  ∀ j, r.cursor ≤ j → queue'[j]? ≠ queue[j]? →
    s.fill.toNat ≤ j ∧ inSlice (newEvents s final) (j - s.fill.toNat)

/-- With no slice to come, what is left is the same. -/
theorem DifferInSlices.drop_eq {queue queue' : List Byte} {s : State} {r : PushRun}
    (h : DifferInSlices queue queue' s r s) : queue'.drop r.cursor = queue.drop r.cursor := by
  refine List.ext_getElem? fun k => ?_
  rw [List.getElem?_drop, List.getElem?_drop]
  by_contra hne
  obtain ⟨-, offset, length, hp, -, -⟩ := h _ (Nat.le_add_right _ _) hne
  rw [newEvents_self] at hp
  cases hp

theorem DifferInSlices.seeing_over {queue queue' : List Byte} {s : State} {r : PushRun}
    (h : DifferInSlices queue queue' s r s) (hr : s.run = some r) (hrest : r.rest = queue.drop r.cursor) (ibuf : Memory)
    (port : List HostAction) :
    s.seeing ibuf port (PushRun.over queue') = { s with ibuf := ibuf, port := port } := by
  simp only [State.seeing, hr, Option.map_some, PushRun.over, h.drop_eq, ← hrest]

/-- Between frames the two queues have the same instruction at the cursor. -/
theorem DifferInSlices.decodeWindow_eq {queue queue' : List Byte} {s : State} {r : PushRun} {fuel : Nat}
    (h : DifferInSlices queue queue' s r (pushLoop fuel s)) (hlen : queue'.length = queue.length) (hat : s.AtPoint r)
    (hrest : r.rest = queue.drop r.cursor) (hs : s.streaming = false) :
    decodeWindow (queue'.drop r.cursor) = decodeWindow r.rest := by
  refine decodeWindow_congr (by rw [hrest, List.length_drop, List.length_drop, hlen]) (List.ext_getElem? fun k => ?_)
  rw [List.getElem?_take, List.getElem?_take, hrest, List.getElem?_drop, List.getElem?_drop, ← hrest]
  split
  · by_contra hne
    obtain ⟨hfill, offset, length, hp, hle, -⟩ := h _ (Nat.le_add_right _ _) hne
    have hread := lookahead_le_of_slice hat hp
    rw [lookahead_of_not_streaming hs] at hread
    omega
  · rfl

/-- An iteration leaves behind the slice it emits. -/
theorem DifferInSlices.next {queue queue' : List Byte} {s t : State} {r : PushRun} {fuel n : Nat}
    (h : DifferInSlices queue queue' s r (pushLoop (fuel + 1) s)) (hat : s.AtPoint r)
    (ht : pushIteration s r = some t) (hn : t.run = some (r.advance n)) :
    DifferInSlices queue queue' t (r.advance n) (pushLoop fuel t) := by
  intro j hj hne
  rw [advance_cursor] at hj
  obtain ⟨hfill, offset, length, hp, hle, hlt⟩ := h j (by omega) hne
  rw [(pushIteration_fill_taken hat.running ht).1]
  rw [newEvents_pushLoop_more hat.running ht, List.mem_append] at hp
  obtain hp | hp := hp
  · obtain ⟨-, hoffset, -, hrun⟩ := slice_of_pushIteration hat ht hp
    have hcursor : r.cursor + n = r.cursor + length.toNat :=
      congrArg PushRun.cursor (Option.some.inj (hn.symm.trans hrun))
    omega
  · exact ⟨hfill, offset, length, hp, hle, hlt⟩

/-- Two queues that differ only inside the slices of a PUSH leave the same PUSH at its end. -/
theorem pushLoop_over {queue queue' : List Byte} (hlen : queue'.length = queue.length) (ibuf : Memory)
    (port : List HostAction) {fuel : Nat} {s : State} {r : PushRun} (hat : s.AtPoint r)
    (hrest : r.rest = queue.drop r.cursor) (h : DifferInSlices queue queue' s r (pushLoop fuel s)) :
    pushLoop fuel (s.seeing ibuf port (PushRun.over queue')) =
      { pushLoop fuel s with ibuf := ibuf, port := port } := by
  induction fuel generalizing s r with
  | zero => exact h.seeing_over hat.running hrest ibuf port
  | succ fuel ih =>
    have hrun := seeing_run (view := PushRun.over queue') r ibuf port s hat.running
    have hiter := pushIteration_seeing (keepsCursor_over queue') r ibuf port hat.running
      (by rw [hrest, PushRun.over, List.length_drop, List.length_drop, hlen]) (h.decodeWindow_eq hlen hat hrest)
    cases ht : pushIteration s r with
    | none =>
      rw [ht] at hiter
      rw [pushLoop_stop hat.running ht] at h ⊢
      rw [pushLoop_stop hrun hiter, h.seeing_over hat.running hrest ibuf port]
    | some t =>
      rw [ht] at hiter
      obtain ⟨n, -, -, hnext⟩ := atPoint_pushIteration hat ht
      rw [pushLoop_more hat.running ht, pushLoop_more hrun hiter]
      exact ih hnext (by rw [advance_rest, advance_cursor, hrest, List.drop_drop]) (h.next hat ht hnext.running)

/-! ## Chunks that differ only in payload -/

theorem State.Pushes.chunkLoop_eq {s : State} {held a b : List Byte} {r : PushRun} (h : s.Pushes held a r)
    (hlen : a.length = b.length)
    (hdiff : ∀ i, a[i]? ≠ b[i]? → inSlice (newEvents s (chunkLoop held a s)) i) :
    chunkLoop held b s = { chunkLoop held a s with ibuf := memoryOf b } := by
  have hlen' : (held ++ b).length = (held ++ a).length := by rw [List.length_append, List.length_append, hlen]
  have hheld : held.length = (chunkStart held a s).fill.toNat := carried_length h.carried
  have hq : DifferInSlices (held ++ a) (held ++ b) (chunkStart held a s) (chunkRun held a s) (chunkLoop held a s) := by
    intro j _ hne
    by_cases hj : held.length ≤ j
    · rw [List.getElem?_append_right hj, List.getElem?_append_right hj] at hne
      exact hheld ▸ ⟨hj, hdiff _ hne.symm⟩
    · rw [List.getElem?_append_left (by omega), List.getElem?_append_left (by omega)] at hne
      exact absurd rfl hne
  have hstart : chunkStart held b s =
      (chunkStart held a s).seeing (memoryOf b) s.port (PushRun.over (held ++ b)) := by
    rw [chunkStart, ← hlen]; rfl
  rw [chunkLoop, hlen', hstart, pushLoop_over hlen' (memoryOf b) s.port h.start rfl hq, ← chunkLoop_port held a s]
  rfl

/-- While a frame is being delivered, the next bytes of Q are a slice, up to REMAIN of them (R58). -/
theorem State.AtPoint.inSlice_of_streaming {s : State} {r : PushRun} (h : s.AtPoint r) (hs : s.streaming = true)
    {j : Nat} (hj : r.cursor - s.fill.toNat ≤ j)
    (hlt : j < r.cursor - s.fill.toNat + min s.remain.toNat r.rest.length) (fuel : Nat) :
    inSlice (newEvents s (pushLoop (fuel + 1) s)) j := by
  obtain ⟨hoffset, hlength⟩ := h.slice_toNat
  have hne : r.rest ≠ [] := by
    rw [← List.length_pos_iff]
    omega
  refine ⟨_, _, ?_, hoffset.trans_le hj, by rwa [hoffset, hlength]⟩
  rw [newEvents_pushLoop_more h.running (pushIteration_streaming hs hne), newEvents, stepPayload_events,
    List.drop_left]
  exact List.mem_append_left _ List.mem_cons_self

/-- A chunk that fits into the frame being delivered is all one slice (R58). -/
theorem State.Pushes.inSlice_of_streaming {s : State} {held chunk : List Byte} {r : PushRun}
    (h : s.Pushes held chunk r) (hs : s.streaming = true) (hfit : chunk.length ≤ s.remain.toNat) {i : Nat}
    (hi : i < chunk.length) : inSlice (newEvents s (chunkLoop held chunk s)) i := by
  have hrest : (chunkRun held chunk s).rest.length = held.length + chunk.length := List.length_append
  have hcursor : (chunkRun held chunk s).cursor = 0 := rfl
  have hremain : (chunkStart held chunk s).remain = s.remain := rfl
  refine h.start.inSlice_of_streaming hs ?_ ?_ _
  · omega
  · rw [hremain, hrest]
    omega

/-- Chunks that differ only inside PAYLOAD slices have one outcome. -/
theorem pushChunk_eq_of_inSlice {s t : State} {a b : List Byte} (hs : s.Ready) (hlen : a.length = b.length)
    (ha : a.length < 2 ^ 30) (ht : pushChunk a s = .next t)
    (hdiff : ∀ i, a[i]? ≠ b[i]? → inSlice (newEvents s t) i) : pushChunk b s = .next t := by
  obtain ⟨hinv, hrest, hquiet⟩ := hs
  have hsound := soundAtRest_of_inv hinv hrest
  obtain ⟨held, r, h⟩ := pushes_of_soundAtRest hsound ha
  rw [h.outcome, endPush_quiet (quiet_chunkLoop hquiet _ _)] at ht
  cases ht
  have hloop := h.chunkLoop_eq hlen hdiff
  have h' : s.Pushes held b r := pushes_of_run hsound (hlen ▸ ha) h.carried (by rw [hloop]; exact h.run)
  rw [h'.outcome, hloop, endPush_withIbuf (quiet_chunkLoop hquiet held a), endPush_quiet (quiet_chunkLoop hquiet _ _)]

/-- Settles O42: the loop reads Q only between frames, and there no byte of a slice. -/
theorem payloadValuesAreNeverRead : Obligations.PayloadValuesAreNeverRead := by
  refine ⟨fun s t a b hs hlen ha ht hdiff => pushChunk_eq_of_inSlice hs hlen ha ht hdiff, ?_⟩
  intro s a b hs hstream hlen hfit ha
  obtain ⟨hinv, hrest, hquiet⟩ := id hs
  obtain ⟨held, r, h⟩ := pushes_of_soundAtRest (soundAtRest_of_inv hinv hrest) ha
  have ht := h.outcome.trans (endPush_quiet (quiet_chunkLoop hquiet _ _))
  refine ht.trans (pushChunk_eq_of_inSlice hs hlen ha ht fun i hi => ?_).symm
  refine h.inSlice_of_streaming hstream hfit (Nat.lt_of_not_le fun hle => hi ?_)
  rw [List.getElem?_eq_none hle, List.getElem?_eq_none (hlen ▸ hle)]

end Sys2Proof.Machine
end

section
/-! PROOFS. Command words and buffer-fullness values (R36, R37, R77). -/
namespace Sys2Proof
open Machine

/-! ## The command word: OP in bits 31:30, LEN below -/

theorem op_append_len {w : BitVec 32} {op : BitVec 2} (h : w.extractLsb' 30 2 = op) : op ++ w.extractLsb' 0 30 = w :=
  h ▸ BitVec.extractLsb'_append_extractLsb'

/-- OP = 01 with LEN = 0 is the one word of RESET (R36). -/
theorem len_ne_zero {w : BitVec 32} (hop : w.extractLsb' 30 2 = 1) (hw : w ≠ 0x40000000) : w.extractLsb' 0 30 ≠ 0 := by
  intro hlen
  refine hw ?_
  rw [← op_append_len hop, hlen]
  rfl

theorem bit30_eq_op (w : BitVec 32) : w.getLsbD 30 = (w.extractLsb' 30 2).getLsbD 0 := by
  rw [BitVec.getLsbD_extractLsb']; rfl

theorem bit31_eq_op (w : BitVec 32) : w.getLsbD 31 = (w.extractLsb' 30 2).getLsbD 1 := by
  rw [BitVec.getLsbD_extractLsb']; rfl

theorem bit31_of_op {w : BitVec 32} (h : 2 ≤ (w.extractLsb' 30 2).toNat) : w.getLsbD 31 = true := by
  have high : ∀ op : BitVec 2, 2 ≤ op.toNat → op.getLsbD 1 = true := by decide
  exact (bit31_eq_op w).trans (high _ h)

theorem one_append_rest {w : BitVec 32} (h : w.getLsbD 31 = true) : 1#1 ++ w.extractLsb' 0 31 = w := by
  grind

theorem op_cases (w : BitVec 32) :
    w.extractLsb' 30 2 = 0 ∨ w.extractLsb' 30 2 = 1 ∨ 2 ≤ (w.extractLsb' 30 2).toNat := by
  generalize w.extractLsb' 30 2 = op
  revert op
  decide

theorem decodeCommand_of_op_zero {w : BitVec 32} (hop : w.extractLsb' 30 2 = 0) :
    decodeCommand w = .push (w.extractLsb' 0 30) := by
  rw [decodeCommand, bit30_eq_op, bit31_eq_op, hop]
  rfl

theorem decodeCommand_of_op_one {w : BitVec 32} (hop : w.extractLsb' 30 2 = 1) (hlen : w.extractLsb' 0 30 ≠ 0) :
    decodeCommand w = .cmdResetBadlen (w.extractLsb' 0 30) := by
  rw [decodeCommand, bit30_eq_op, bit31_eq_op, hop, if_neg hlen]
  rfl

theorem decodeCommand_of_bit31 {w : BitVec 32} (h : w.getLsbD 31 = true) :
    decodeCommand w = .cmdReserved (w.extractLsb' 0 31) := if_pos h

/-- Settles O3: OP selects the row, and the two rows without a meaning are refused by name. -/
theorem commandWordsHaveTheirMeaning : Obligations.CommandWordsHaveTheirMeaning := by
  refine fun w s => ⟨decodeCommand_of_op_zero, fun hw => ?_, fun hop hw => ?_, fun hop => ?_⟩
  · rw [hw]; rfl
  · rw [decodeCommand_of_op_one hop (len_ne_zero hop hw)]; rfl
  · rw [decodeCommand_of_bit31 (bit31_of_op hop)]; rfl

theorem encode_decodeCommand (w : BitVec 32) : encode (decodeCommand w) = .command w := by
  obtain hop | hop | hop := op_cases w
  · rw [decodeCommand_of_op_zero hop]
    exact congrArg Code.command (op_append_len hop)
  · by_cases hw : w = 0x40000000
    · rw [hw]; rfl
    · rw [decodeCommand_of_op_one hop (len_ne_zero hop hw)]
      exact congrArg Code.command (op_append_len hop)
  · have hbit := bit31_of_op hop
    rw [decodeCommand_of_bit31 hbit]
    exact congrArg Code.command (one_append_rest hbit)

theorem decodeCommand_push (len : BitVec 30) : decodeCommand (0#2 ++ len) = .push len :=
  (decodeCommand_of_op_zero BitVec.extractLsb'_append_eq_left).trans
    (congrArg Instr.push BitVec.extractLsb'_append_eq_right)

theorem decodeCommand_resetBadlen {len : BitVec 30} (h : len ≠ 0) :
    decodeCommand (1#2 ++ len) = .cmdResetBadlen len := by
  have hlen : (1#2 ++ len).extractLsb' 0 30 = len := BitVec.extractLsb'_append_eq_right
  exact (decodeCommand_of_op_one BitVec.extractLsb'_append_eq_left (hlen.trans_ne h)).trans
    (congrArg Instr.cmdResetBadlen hlen)

theorem decodeCommand_reserved (rest : BitVec 31) : decodeCommand (1#1 ++ rest) = .cmdReserved rest := by
  have hbit : (1#1 ++ rest : BitVec 32).getLsbD 31 = true := BitVec.getLsbD_append
  exact (decodeCommand_of_bit31 hbit).trans (congrArg Instr.cmdReserved BitVec.extractLsb'_append_eq_right)

/-! ## Buffer-fullness values -/

theorem decodeFullness_of_ne {level : BitVec 11} (h : level ≠ 2047) : decodeFullness level = .bfCbr level := if_neg h

theorem encode_decodeFullness (raw : BitVec 11) : encode (decodeFullness raw) = .fullness raw := by
  by_cases h : raw = 2047
  · rw [h]; rfl
  · rw [decodeFullness_of_ne h]; rfl

end Sys2Proof
end

section
/-! PROOFS. The bits of a header: its bytes and its fields say the same (R31, R34). Both sides of such an equation
are slices put together, so it is shown bit by bit: `grind` compares them at each position. -/
namespace Sys2Proof

/-! ## The sync pair -/

theorem syncCheck_of_highNibble {b1 : Byte} (h : b1.extractLsb' 4 4 = 0xF) : syncCheck 0xFF b1 = true := by
  simp [syncCheck, syncBits, h]

theorem highNibble_append (low : BitVec 4) : (0xF#4 ++ low : Byte).extractLsb' 4 4 = 0xF :=
  BitVec.extractLsb'_append_eq_left

theorem append_lowNibble {b1 : Byte} (h : b1.extractLsb' 4 4 = 0xF) : 0xF#4 ++ b1.extractLsb' 0 4 = b1 := by
  grind

theorem syncBits_pair (sync : BitVec 12) (low : BitVec 4) :
    syncBits (sync.extractLsb' 4 8) (sync.extractLsb' 0 4 ++ low) = sync := by
  unfold syncBits
  grind

theorem pair_syncBits (b0 b1 : Byte) :
    [(syncBits b0 b1).extractLsb' 4 8, (syncBits b0 b1).extractLsb' 0 4 ++ b1.extractLsb' 0 4] = [b0, b1] := by
  simp only [syncBits, List.cons.injEq, and_true]
  refine ⟨BitVec.extractLsb'_append_eq_left, ?_⟩
  grind

/-! ## A header given by its fields -/

theorem highNibble_byte1 (p : Bool) (f : HeaderFields) : (byte1 p f).extractLsb' 4 4 = 0xF := by
  unfold byte1
  grind

theorem protectionBit_byte1 (p : Bool) (f : HeaderFields) : protectionBit (byte1 p f) = p := by
  unfold protectionBit byte1
  grind

theorem fieldsOf_bytes (p : Bool) (f : HeaderFields) :
    fieldsOf (byte1 p f) (byte2 f) (byte3 f) (byte4 f) (byte5 f) (byte6 f) = f := by
  obtain ⟨⟩ := f
  simp only [fieldsOf, byte1, byte2, byte3, byte4, byte5, byte6, HeaderFields.mk.injEq]
  refine ⟨?_, ?_, ?_, ?_, ?_, ?_, ?_, ?_, ?_, ?_, ?_, ?_, ?_⟩
  all_goals grind

theorem headerBytes_fieldsOf {h1 : Byte} (hs : h1.extractLsb' 4 4 = 0xF) (h2 h3 h4 h5 h6 : Byte) :
    headerBytes (protectionBit h1) (fieldsOf h1 h2 h3 h4 h5 h6) = [0xFF, h1, h2, h3, h4, h5, h6] := by
  simp only [headerBytes, protectionBit, fieldsOf, byte1, byte2, byte3, byte4, byte5, byte6, List.cons.injEq, and_true,
    true_and]
  refine ⟨?_, ?_, ?_, ?_, ?_, ?_⟩
  all_goals grind

/-! ## A header given by the word bits around its sf_index -/

theorem protectionBit_append (high : BitVec 6) : protectionBit (0xF#4 ++ high.extractLsb' 2 4) = high.getLsbD 2 := by
  unfold protectionBit
  grind

theorem highBits_getLsbD_two (h1 h2 : Byte) : (highBits h1 h2).getLsbD 2 = protectionBit h1 := by
  unfold highBits protectionBit
  grind

theorem extractLsb'_sfIndex (high low : BitVec 2) (sfIndex : BitVec 4) :
    (high ++ sfIndex ++ low : Byte).extractLsb' 2 4 = sfIndex := by
  grind

theorem highBits_append (high : BitVec 6) (sfIndex : BitVec 4) (low : BitVec 2) :
    highBits (0xF#4 ++ high.extractLsb' 2 4) (high.extractLsb' 0 2 ++ sfIndex ++ low) = high := by
  unfold highBits
  grind

theorem lowBits_append (high : BitVec 2) (sfIndex : BitVec 4) (low : BitVec 34) :
    lowBits (high ++ sfIndex ++ low.extractLsb' 32 2) (low.extractLsb' 24 8) (low.extractLsb' 16 8)
      (low.extractLsb' 8 8) (low.extractLsb' 0 8) = low := by
  unfold lowBits
  grind

theorem rawHeaderBytes_bits {h1 : Byte} (hs : h1.extractLsb' 4 4 = 0xF) (h2 h3 h4 h5 h6 : Byte) :
    rawHeaderBytes (highBits h1 h2) (h2.extractLsb' 2 4) (lowBits h2 h3 h4 h5 h6) =
      [0xFF, h1, h2, h3, h4, h5, h6] := by
  simp only [rawHeaderBytes, highBits, lowBits, List.cons.injEq, and_true, true_and]
  refine ⟨?_, ?_, ?_, ?_, ?_, ?_⟩
  all_goals grind

theorem crc_append_bytes (crc : BitVec 16) : crc.extractLsb' 8 8 ++ crc.extractLsb' 0 8 = crc :=
  BitVec.extractLsb'_append_extractLsb'

/-- Settles O10: each field of R34's byte form is a slice of the word, or two or three adjoining ones put together. -/
theorem headerFieldsStandAtTheirWordBits : Obligations.HeaderFieldsStandAtTheirWordBits := by
  intro w
  simp only [syncBits, protectionBit, fieldsOf, HeaderFields.mk.injEq]
  refine ⟨?_, ?_, ?_, ?_, ?_, ?_, ?_, ?_, ?_, ?_, ?_, ?_, ?_, ?_, ?_⟩
  all_goals grind

/-- Settles O11: each number is one fixed word, and the decoder is run on it. -/
theorem writtenOutWordsDecode : Obligations.WrittenOutWordsDecode := by
  unfold Obligations.WrittenOutWordsDecode
  decide

end Sys2Proof
end

section
/-! PROOFS. Decoding and encoding agree (R31, R32, R36, R77). -/
namespace Sys2Proof

/-! ## The row of a complete header -/

section
variable {h1 h2 h3 h4 h5 h6 : Byte} {tail : List Byte}

theorem headerRow_sf13 (hsf : (fieldsOf h1 h2 h3 h4 h5 h6).sfIndex = 13) (good : Instr) :
    headerRow h1 h2 h3 h4 h5 h6 good = .adtsErrSf13 (highBits h1 h2) (lowBits h2 h3 h4 h5 h6) := if_pos hsf

theorem headerRow_sf1415 {sfLow : BitVec 1} (hsf : (fieldsOf h1 h2 h3 h4 h5 h6).sfIndex = 7#3 ++ sfLow) (good : Instr) :
    headerRow h1 h2 h3 h4 h5 h6 good = .adtsErrSf1415 (highBits h1 h2) sfLow (lowBits h2 h3 h4 h5 h6) := by
  have hbits : ∀ v : BitVec 1,
      7#3 ++ v ≠ 13 ∧ (7#3 ++ v).extractLsb' 1 3 = 7 ∧ (7#3 ++ v).extractLsb' 0 1 = v := by decide
  obtain ⟨hne, hhigh, hlow⟩ := hbits sfLow
  simp only [headerRow, hsf]
  rw [if_neg hne, if_pos hhigh, hlow]

theorem headerRow_of_sfIndex_le (hsf : (fieldsOf h1 h2 h3 h4 h5 h6).sfIndex.toNat ≤ 12) (good : Instr) :
    headerRow h1 h2 h3 h4 h5 h6 good =
      if (fieldsOf h1 h2 h3 h4 h5 h6).frameLength.toNat < headerLength (protectionBit h1) then
        .adtsErrShort (protectionBit h1) (fieldsOf h1 h2 h3 h4 h5 h6)
      else good := by
  have hbits : ∀ v : BitVec 4, v.toNat ≤ 12 → v ≠ 13 ∧ v.extractLsb' 1 3 ≠ 7 := by decide
  obtain ⟨hne, hhigh⟩ := hbits _ hsf
  exact (if_neg hne).trans (if_neg hhigh)

/-- All L bytes of a sync-checked header make one of the rows of a complete header (R62). -/
theorem decodeWindow_header (hs : h1.extractLsb' 4 4 = 0xF) (hl : headerLength (protectionBit h1) ≤ tail.length + 7) :
    ∃ good, decodeWindow (0xFF :: h1 :: h2 :: h3 :: h4 :: h5 :: h6 :: tail) =
      some (headerRow h1 h2 h3 h4 h5 h6 good) := by
  have hsync := syncCheck_of_highNibble hs
  cases hp : protectionBit h1 with
  | true => exact ⟨_, decodeWindow_seven hsync hp⟩
  | false =>
    simp only [hp, headerLength, Bool.false_eq_true, ↓reduceIte, Nat.reduceLeDiff] at hl
    match tail, hl with
    | _ :: _ :: _, _ => exact ⟨_, decodeWindow_nine hsync hp⟩

end

/-! ## Decoding a window that begins with an encoded instruction -/

theorem decode_window {bytes : List Byte} {i : Instr} (h : decodeWindow bytes = some i) :
    decode (.window bytes) = .ok i := by
  simp only [decode, h]

theorem decodeWindow_syncPair {low : BitVec 4} {tail : List Byte}
    (h : tail.length + 2 < headerLength (low.getLsbD 0)) :
    decodeWindow (0xFF :: (0xF#4 ++ low) :: tail) = some (.syncCheck low) := by
  have hp : protectionBit (0xF#4 ++ low) = low.getLsbD 0 := BitVec.getLsbD_append
  have hlow : (0xF#4 ++ low).extractLsb' 0 4 = low := BitVec.extractLsb'_append_eq_right
  exact (decodeWindow_wait (syncCheck_of_highNibble (highNibble_append low)) (hp ▸ h)).trans
    (congrArg (fun v => some (Instr.syncCheck v)) hlow)

theorem decodeWindow_missPair {sync : BitVec 12} (h : sync ≠ 0xFFF) (low : BitVec 4) (tail : List Byte) :
    decodeWindow (sync.extractLsb' 4 8 :: (sync.extractLsb' 0 4 ++ low) :: tail) = some (.syncMiss sync low) := by
  have hmiss : syncCheck (sync.extractLsb' 4 8) (sync.extractLsb' 0 4 ++ low) = false := by
    simpa only [syncCheck, syncBits_pair, beq_eq_false_iff_ne] using h
  have hlow : (sync.extractLsb' 0 4 ++ low).extractLsb' 0 4 = low := BitVec.extractLsb'_append_eq_right
  rw [decodeWindow_miss hmiss, syncBits_pair]
  exact congrArg (fun v => some (Instr.syncMiss sync v)) hlow

/-- The header given by the word bits around its sf_index, whatever that is. -/
theorem decodeWindow_rawHeaderBytes {high : BitVec 6} {tail : List Byte}
    (hl : headerLength (high.getLsbD 2) ≤ tail.length + 7) (sfIndex : BitVec 4) (low : BitVec 34) :
    ∃ h1 h2 h3 h4 h5 h6 good,
      decodeWindow (rawHeaderBytes high sfIndex low ++ tail) = some (headerRow h1 h2 h3 h4 h5 h6 good)
        ∧ (fieldsOf h1 h2 h3 h4 h5 h6).sfIndex = sfIndex ∧ highBits h1 h2 = high ∧ lowBits h2 h3 h4 h5 h6 = low := by
  obtain ⟨good, h⟩ := decodeWindow_header (highNibble_append (high.extractLsb' 2 4)) ((protectionBit_append high) ▸ hl)
  exact ⟨_, _, _, _, _, _, good, h, extractLsb'_sfIndex _ _ _, highBits_append _ _ _, lowBits_append _ _ _⟩

theorem decodeWindow_sf13 {high : BitVec 6} {tail : List Byte} (hl : headerLength (high.getLsbD 2) ≤ tail.length + 7)
    (low : BitVec 34) : decodeWindow (rawHeaderBytes high 13 low ++ tail) = some (.adtsErrSf13 high low) := by
  obtain ⟨_, _, _, _, _, _, good, h, hsf, rfl, rfl⟩ := decodeWindow_rawHeaderBytes hl 13 low
  rw [h, headerRow_sf13 hsf]

theorem decodeWindow_sf1415 {high : BitVec 6} {tail : List Byte} (hl : headerLength (high.getLsbD 2) ≤ tail.length + 7)
    (sfLow : BitVec 1) (low : BitVec 34) :
    decodeWindow (rawHeaderBytes high (7#3 ++ sfLow) low ++ tail) = some (.adtsErrSf1415 high sfLow low) := by
  obtain ⟨_, _, _, _, _, _, good, h, hsf, rfl, rfl⟩ := decodeWindow_rawHeaderBytes hl (7#3 ++ sfLow) low
  rw [h, headerRow_sf1415 hsf]

theorem headerRow_headerBytes {f : HeaderFields} (hsf : f.sfIndex.toNat ≤ 12) (p : Bool) (good : Instr) :
    headerRow (byte1 p f) (byte2 f) (byte3 f) (byte4 f) (byte5 f) (byte6 f) good =
      if f.frameLength.toNat < headerLength p then .adtsErrShort p f else good := by
  rw [headerRow_of_sfIndex_le, fieldsOf_bytes, protectionBit_byte1]
  rwa [fieldsOf_bytes]

theorem decodeWindow_short_header {p : Bool} {f : HeaderFields} {tail : List Byte} (hsf : f.sfIndex.toNat ≤ 12)
    (hfl : f.frameLength.toNat < headerLength p) (hl : headerLength p ≤ tail.length + 7) :
    decodeWindow (headerBytes p f ++ tail) = some (.adtsErrShort p f) := by
  obtain ⟨good, h⟩ := decodeWindow_header (highNibble_byte1 p f) ((protectionBit_byte1 p f).symm ▸ hl)
  exact h.trans (congrArg some ((headerRow_headerBytes hsf p good).trans (if_pos hfl)))

theorem decodeWindow_header7 {f : HeaderFields} (hsf : f.sfIndex.toNat ≤ 12)
    (hfl : headerLength true ≤ f.frameLength.toNat) (tail : List Byte) :
    decodeWindow (headerBytes true f ++ tail) = some (.adtsHdr7 f) := by
  refine (decodeWindow_seven (syncCheck_of_highNibble (highNibble_byte1 true f)) (protectionBit_byte1 true f)).trans ?_
  rw [headerRow_headerBytes hsf, fieldsOf_bytes, if_neg (Nat.not_lt.2 hfl)]

theorem decodeWindow_header9 {f : HeaderFields} (hsf : f.sfIndex.toNat ≤ 12)
    (hfl : headerLength false ≤ f.frameLength.toNat) (crc : BitVec 16) (tail : List Byte) :
    decodeWindow (headerBytes false f ++ [crc.extractLsb' 8 8, crc.extractLsb' 0 8] ++ tail) =
      some (.adtsHdr9 f crc) := by
  refine (decodeWindow_nine (syncCheck_of_highNibble (highNibble_byte1 false f)) (protectionBit_byte1 false f)).trans ?_
  rw [headerRow_headerBytes hsf, fieldsOf_bytes, if_neg (Nat.not_lt.2 hfl), crc_append_bytes]

/-- Settles O7, row by row: the fields read from an encoded instruction's bytes are the instruction's own, so the decoder
takes the branch of its row. -/
theorem decodeOfEncodeIsTheInstruction : Obligations.DecodeOfEncodeIsTheInstruction := by
  intro i tail hwf htail
  cases i with
  | push len => exact congrArg Except.ok (decodeCommand_push len)
  | reset => rfl
  | cmdReserved rest => exact congrArg Except.ok (decodeCommand_reserved rest)
  | cmdResetBadlen len => exact congrArg Except.ok (decodeCommand_resetBadlen (bne_iff_ne.1 hwf))
  | syncCheck low => exact decode_window (decodeWindow_syncPair (of_decide_eq_true htail))
  | syncMiss sync low => exact decode_window (decodeWindow_missPair (bne_iff_ne.1 hwf) low tail)
  | adtsErrSf13 high low => exact decode_window (decodeWindow_sf13 (of_decide_eq_true htail) low)
  | adtsErrSf1415 high sfLow low => exact decode_window (decodeWindow_sf1415 (of_decide_eq_true htail) sfLow low)
  | adtsErrShort p f =>
    obtain ⟨hsf, hfl⟩ := Bool.and_eq_true_iff.1 hwf
    exact decode_window
      (decodeWindow_short_header (of_decide_eq_true hsf) (of_decide_eq_true hfl) (of_decide_eq_true htail))
  | adtsHdr7 f =>
    obtain ⟨hsf, hfl⟩ := Bool.and_eq_true_iff.1 hwf
    exact decode_window (decodeWindow_header7 (of_decide_eq_true hsf) (of_decide_eq_true hfl) tail)
  | adtsHdr9 f crc =>
    obtain ⟨hsf, hfl⟩ := Bool.and_eq_true_iff.1 hwf
    exact decode_window (decodeWindow_header9 (of_decide_eq_true hsf) (of_decide_eq_true hfl) crc tail)
  | bfVbr => rfl
  | bfCbr level => exact congrArg Except.ok (decodeFullness_of_ne (bne_iff_ne.1 hwf))

/-! ## Encoding what a window was decoded to -/

/-- A window begins with the code of `i`, and what follows leaves it `i`. -/
def BeginsWithCodeOf (i : Instr) (bytes : List Byte) : Prop :=
  ∃ code tail, encode i = .window code ∧ bytes = code ++ tail ∧ i.tailOk tail = true

theorem beginsWithCodeOf_syncCheck {b0 b1 : Byte} {t : List Byte} (hs : syncCheck b0 b1 = true)
    (hl : t.length + 2 < headerLength (protectionBit b1)) :
    BeginsWithCodeOf (.syncCheck (b1.extractLsb' 0 4)) (b0 :: b1 :: t) := by
  obtain ⟨rfl, hnibble⟩ := Machine.syncCheck_bytes hs
  have hp : (b1.extractLsb' 0 4).getLsbD 0 = protectionBit b1 := BitVec.getLsbD_extractLsb' ..
  exact ⟨_, t, congrArg (fun b => Code.window [0xFF, b]) (append_lowNibble hnibble), rfl, decide_eq_true (hp ▸ hl)⟩

theorem beginsWithCodeOf_syncMiss (b0 b1 : Byte) (t : List Byte) :
    BeginsWithCodeOf (.syncMiss (syncBits b0 b1) (b1.extractLsb' 0 4)) (b0 :: b1 :: t) :=
  ⟨_, t, congrArg Code.window (pair_syncBits b0 b1), rfl, rfl⟩

section
variable {h0 h1 h2 h3 h4 h5 h6 : Byte} {tail : List Byte}

/-- The error rows' code is the header's first seven bytes; `good` is the row without error. -/
theorem beginsWithCodeOf_headerRow {good : Instr} (hs : syncCheck h0 h1 = true)
    (hl : headerLength (protectionBit h1) ≤ tail.length + 7)
    (hgood : BeginsWithCodeOf good (h0 :: h1 :: h2 :: h3 :: h4 :: h5 :: h6 :: tail)) :
    BeginsWithCodeOf (headerRow h1 h2 h3 h4 h5 h6 good) (h0 :: h1 :: h2 :: h3 :: h4 :: h5 :: h6 :: tail) := by
  obtain ⟨rfl, hnibble⟩ := Machine.syncCheck_bytes hs
  have hbytes := rawHeaderBytes_bits hnibble h2 h3 h4 h5 h6
  have htail : decide (headerLength ((highBits h1 h2).getLsbD 2) ≤ tail.length + 7) = true :=
    decide_eq_true ((highBits_getLsbD_two h1 h2).symm ▸ hl)
  obtain ⟨hsf, hr⟩ | ⟨hsf, hr⟩ | ⟨-, -, hr⟩ | ⟨-, -, hr⟩ := headerRow_cases h1 h2 h3 h4 h5 h6 good <;> rw [hr]
  · have hsf' : h2.extractLsb' 2 4 = 13 := hsf
    exact ⟨_, tail, congrArg Code.window (hsf' ▸ hbytes), rfl, htail⟩
  · have hbits : ∀ v : BitVec 4, v.extractLsb' 1 3 = 7 → v = 7#3 ++ v.extractLsb' 0 1 := by decide
    have hsf' : h2.extractLsb' 2 4 = 7#3 ++ (h2.extractLsb' 2 4).extractLsb' 0 1 := hbits _ hsf
    rw [hsf'] at hbytes
    exact ⟨_, tail, congrArg Code.window hbytes, rfl, htail⟩
  · exact ⟨_, tail, congrArg Code.window (headerBytes_fieldsOf hnibble h2 h3 h4 h5 h6), rfl, decide_eq_true hl⟩
  · exact hgood

theorem beginsWithCodeOf_adtsHdr7 (hs : syncCheck h0 h1 = true) (hp : protectionBit h1 = true) :
    BeginsWithCodeOf (.adtsHdr7 (fieldsOf h1 h2 h3 h4 h5 h6)) (h0 :: h1 :: h2 :: h3 :: h4 :: h5 :: h6 :: tail) := by
  obtain ⟨rfl, hnibble⟩ := Machine.syncCheck_bytes hs
  exact ⟨_, tail, congrArg Code.window (hp ▸ headerBytes_fieldsOf hnibble h2 h3 h4 h5 h6), rfl, rfl⟩

theorem beginsWithCodeOf_adtsHdr9 {c0 c1 : Byte} (hs : syncCheck h0 h1 = true) (hp : protectionBit h1 = false) :
    BeginsWithCodeOf (.adtsHdr9 (fieldsOf h1 h2 h3 h4 h5 h6) (c0 ++ c1))
      (h0 :: h1 :: h2 :: h3 :: h4 :: h5 :: h6 :: c0 :: c1 :: tail) := by
  obtain ⟨rfl, hnibble⟩ := Machine.syncCheck_bytes hs
  have hbytes : headerBytes false (fieldsOf h1 h2 h3 h4 h5 h6) = [0xFF, h1, h2, h3, h4, h5, h6] :=
    hp ▸ headerBytes_fieldsOf hnibble h2 h3 h4 h5 h6
  have hc0 : (c0 ++ c1).extractLsb' 8 8 = c0 := BitVec.extractLsb'_append_eq_left
  have hc1 : (c0 ++ c1).extractLsb' 0 8 = c1 := BitVec.extractLsb'_append_eq_right
  refine ⟨_, tail, rfl, ?_, rfl⟩
  rw [hbytes, hc0, hc1]
  rfl

end

theorem beginsWithCodeOf_decodeWindow {bytes : List Byte} {i : Instr} (h : decodeWindow bytes = some i) :
    BeginsWithCodeOf i bytes := by
  obtain hl | ⟨b0, b1, t, rfl, hs⟩ | ⟨b0, b1, t, rfl, hs, hl⟩ | ⟨b0, b1, b2, b3, b4, b5, b6, t, rfl, hs, hp⟩ |
    ⟨b0, b1, b2, b3, b4, b5, b6, c0, c1, t, rfl, hs, hp⟩ := window_cases bytes
  · rw [decodeWindow_short hl] at h; cases h
  · rw [decodeWindow_miss hs] at h; cases h
    exact beginsWithCodeOf_syncMiss b0 b1 t
  · rw [decodeWindow_wait hs hl] at h; cases h
    exact beginsWithCodeOf_syncCheck hs hl
  · rw [decodeWindow_seven hs hp] at h; cases h
    exact beginsWithCodeOf_headerRow hs (by simp [hp, headerLength]) (beginsWithCodeOf_adtsHdr7 hs hp)
  · rw [decodeWindow_nine hs hp] at h; cases h
    exact beginsWithCodeOf_headerRow hs (by simp [hp, headerLength]) (beginsWithCodeOf_adtsHdr9 hs hp)

/-- Settles O8: a word's OP and LEN, and a window's bytes, are put together again from what was read of them. -/
theorem encodeOfDecodeIsTheCode : Obligations.EncodeOfDecodeIsTheCode :=
  ⟨encode_decodeCommand, encode_decodeFullness, fun _ _ h => beginsWithCodeOf_decodeWindow h⟩

end Sys2Proof
end

section
/-! PROOFS. What the decoder answers is well-formed (R40, R45, R51). -/
namespace Sys2Proof
open Machine

theorem highNibble_eq_iff (b : Byte) : b.extractLsb' 4 4 = 0xF ↔ 0xF0 ≤ b.toNat := by
  revert b
  decide

theorem syncCheck_iff (b0 b1 : Byte) : syncCheck b0 b1 = true ↔ b0 = 0xFF ∧ 0xF0 ≤ b1.toNat := by
  rw [← highNibble_eq_iff]
  exact ⟨syncCheck_bytes, fun ⟨h0, h1⟩ => h0 ▸ syncCheck_of_highNibble h1⟩

/-- Settles O12: the sync word is FF and a high nibble F, so b1 is F0 or more. -/
theorem syncCheckPassesExactlyTheSyncPairs : Obligations.SyncCheckPassesExactlyTheSyncPairs :=
  ⟨syncCheck_iff, fun _ _ => rfl, fun _ _ t h => decodeWindow_miss h t⟩

theorem wf_decodeCommand (w : BitVec 32) : (decodeCommand w).wf = true := by
  unfold decodeCommand
  split
  · rfl
  · split
    · split
      · rfl
      · exact bne_iff_ne.2 ‹_›
    · rfl

theorem wf_decodeFullness (raw : BitVec 11) : (decodeFullness raw).wf = true := by
  by_cases h : raw = 2047
  · rw [h]; rfl
  · rw [decodeFullness_of_ne h]; exact bne_iff_ne.2 h

/-- The error rows are well-formed by their own checks; `good` is the row that passes both. -/
theorem wf_headerRow {p : Bool} {h1 h2 h3 h4 h5 h6 : Byte} {good : Instr} (hp : protectionBit h1 = p)
    (hgood : (fieldsOf h1 h2 h3 h4 h5 h6).sfIndex.toNat ≤ 12 →
      headerLength p ≤ (fieldsOf h1 h2 h3 h4 h5 h6).frameLength.toNat → good.wf = true) :
    (headerRow h1 h2 h3 h4 h5 h6 good).wf = true := by
  obtain ⟨-, hr⟩ | ⟨-, hr⟩ | ⟨hsf, hfl, hr⟩ | ⟨hsf, hfl, hr⟩ := headerRow_cases h1 h2 h3 h4 h5 h6 good <;> rw [hr]
  · rfl
  · rfl
  · exact Bool.and_eq_true_iff.2 ⟨decide_eq_true hsf, decide_eq_true hfl⟩
  · exact hgood hsf (hp ▸ hfl)

theorem wf_decodeWindow {bytes : List Byte} {i : Instr} (h : decodeWindow bytes = some i) : i.wf = true := by
  obtain hl | ⟨b0, b1, t, rfl, hs⟩ | ⟨b0, b1, t, rfl, hs, hl⟩ | ⟨b0, b1, b2, b3, b4, b5, b6, t, rfl, hs, hp⟩ |
    ⟨b0, b1, b2, b3, b4, b5, b6, c0, c1, t, rfl, hs, hp⟩ := window_cases bytes
  · rw [decodeWindow_short hl] at h; cases h
  · rw [decodeWindow_miss hs] at h; cases h
    exact bne_iff_ne.2 (beq_eq_false_iff_ne.1 hs)
  · rw [decodeWindow_wait hs hl] at h; cases h
    rfl
  · rw [decodeWindow_seven hs hp] at h; cases h
    exact wf_headerRow hp fun hsf hfl => Bool.and_eq_true_iff.2 ⟨decide_eq_true hsf, decide_eq_true hfl⟩
  · rw [decodeWindow_nine hs hp] at h; cases h
    exact wf_headerRow hp fun hsf hfl => Bool.and_eq_true_iff.2 ⟨decide_eq_true hsf, decide_eq_true hfl⟩

theorem decodeWindow_of_decode {bytes : List Byte} {i : Instr} (h : decode (.window bytes) = .ok i) :
    decodeWindow bytes = some i := by
  simp only [decode] at h
  split at h
  · cases h; assumption
  · cases h

/-- Settles O9: a row's conditions are the checks by which the decoder came to it. -/
theorem decodeGivesWellFormedInstructions : Obligations.DecodeGivesWellFormedInstructions := by
  intro c i h
  cases c with
  | command w => cases h; exact wf_decodeCommand w
  | window bytes => exact wf_decodeWindow (decodeWindow_of_decode h)
  | fullness raw => cases h; exact wf_decodeFullness raw

end Sys2Proof
end

section
/-! PROOFS. HEADER_DECODE (R41): what it returns, case by case, and that the codec's rows return the same with no PUSH
running (R55). -/
namespace Sys2Proof.Machine

/-! ## The codec's rows with no PUSH running -/

theorem lengthDetail_eq (p : Bool) : lengthDetail p = if p then 7 else 9 := by cases p <;> rfl

theorem exec_of_windowStep_atRest {s t : State} {i : Instr} (hs : s.AtRest) (h : windowStep i s = some t) :
    exec i s = .next t :=
  (exec_of_windowStep (by rw [hs]; rfl) h).1

theorem exec_failing_direct {s : State} {i : Instr} {e : HeaderError} (hs : s.AtRest)
    (h : windowStep i s = some (failingWindow e s)) : exec i s = .next (s.returns (.error e)) := by
  rw [exec_of_windowStep_atRest hs h, failingWindow_direct hs]

theorem exec_header_direct {s : State} {i : Instr} {hdr : Header} (hs : s.AtRest)
    (h : windowStep i s = some (headerWindow hdr s)) : exec i s = .next (s.returns (.header hdr)) := by
  rw [exec_of_windowStep_atRest hs h, headerWindow_direct hs]

/-- Settles O21: at rest a window row only returns its error or header. -/
theorem directWindowsOnlyReturnTheirValue : Obligations.DirectWindowsOnlyReturnTheirValue := by
  refine fun s hs => ⟨fun sync low => exec_failing_direct hs rfl, fun high low => exec_failing_direct hs rfl,
    fun high sfLow low => exec_failing_direct hs rfl, fun p f => ?_, fun f => exec_header_direct hs rfl,
    fun f crc => exec_header_direct hs rfl⟩
  rw [← lengthDetail_eq]
  exact exec_failing_direct hs rfl

/-! ## HEADER_DECODE, case by case -/

/-- The checks of R41 on a complete sync-checked header, `good` if both pass: the codec's counterpart of `headerRow`. -/
def headerAnswer (h1 h2 h3 h4 h5 h6 : Byte) (good : Header) : CodecResult :=
  let f := fieldsOf h1 h2 h3 h4 h5 h6
  if 13 ≤ f.sfIndex.toNat then .error (.reservedFieldValue f.sfIndex)
  else if f.frameLength.toNat < headerLength (protectionBit h1) then
    .error (.frameTooShort f.frameLength (lengthDetail (protectionBit h1)))
  else .header good

/-- `crc` is what R54 reports for the bytes `t` from byte 7 on: ABSENT, or the two bytes a header of the 9-byte class
begins them with. -/
def IsCrcOf (h1 : Byte) (t : List Byte) (crc : Option (BitVec 16)) : Prop :=
  (protectionBit h1 = true → crc = none)
    ∧ (protectionBit h1 = false → ∃ c0 c1 u, t = c0 :: c1 :: u ∧ crc = some (c0 ++ c1))

/-- With the bytes `t` from byte 7 on the header is incomplete, or of the 7-byte class, or `t` begins with its CRC. -/
theorem header_cases (h1 : Byte) (t : List Byte) :
    t.length + 7 < headerLength (protectionBit h1) ∨ protectionBit h1 = true
      ∨ ∃ c0 c1 u, t = c0 :: c1 :: u ∧ protectionBit h1 = false := by
  cases hp : protectionBit h1 with
  | true => exact .inr (.inl rfl)
  | false =>
    match t with
    | [] => exact .inl (by simp [headerLength])
    | [_] => exact .inl (by simp [headerLength])
    | c0 :: c1 :: u => exact .inr (.inr ⟨c0, c1, u, rfl, rfl⟩)

section
variable {h0 h1 h2 h3 h4 h5 h6 : Byte} {t : List Byte}

theorem headerAnswer_reserved (hsf : 13 ≤ (fieldsOf h1 h2 h3 h4 h5 h6).sfIndex.toNat) (good : Header) :
    headerAnswer h1 h2 h3 h4 h5 h6 good =
      .error (.reservedFieldValue (fieldsOf h1 h2 h3 h4 h5 h6).sfIndex) := if_pos hsf

theorem headerAnswer_short (hsf : (fieldsOf h1 h2 h3 h4 h5 h6).sfIndex.toNat ≤ 12)
    (hfl : (fieldsOf h1 h2 h3 h4 h5 h6).frameLength.toNat < headerLength (protectionBit h1)) (good : Header) :
    headerAnswer h1 h2 h3 h4 h5 h6 good = .error
      (.frameTooShort (fieldsOf h1 h2 h3 h4 h5 h6).frameLength (lengthDetail (protectionBit h1))) :=
  (if_neg (by omega)).trans (if_pos hfl)

theorem headerAnswer_good (hsf : (fieldsOf h1 h2 h3 h4 h5 h6).sfIndex.toNat ≤ 12)
    (hfl : headerLength (protectionBit h1) ≤ (fieldsOf h1 h2 h3 h4 h5 h6).frameLength.toNat) (good : Header) :
    headerAnswer h1 h2 h3 h4 h5 h6 good = .header good :=
  (if_neg (by omega)).trans (if_neg (by omega))

theorem headerAnswer_eq_header {good h : Header} (hh : headerAnswer h1 h2 h3 h4 h5 h6 good = .header h) :
    h = good ∧ (fieldsOf h1 h2 h3 h4 h5 h6).sfIndex.toNat ≤ 12
      ∧ headerLength (protectionBit h1) ≤ (fieldsOf h1 h2 h3 h4 h5 h6).frameLength.toNat := by
  unfold headerAnswer at hh
  dsimp only at hh
  split at hh
  · cases hh
  · split at hh
    · cases hh
    · cases hh
      exact ⟨rfl, by omega, by omega⟩

theorem headerDecode_incomplete (hl : t.length + 7 < headerLength (protectionBit h1)) :
    headerDecode (h0 :: h1 :: h2 :: h3 :: h4 :: h5 :: h6 :: t) = none := by
  cases hp : protectionBit h1 with
  | true => simp [hp, headerLength] at hl
  | false =>
    match t with
    | [] => simp [headerDecode, hp]
    | [_] => simp [headerDecode, hp]
    | _ :: _ :: u => simp [hp, headerLength] at hl; omega

theorem headerDecode_miss (hs : syncCheck h0 h1 = false) (hl : headerLength (protectionBit h1) ≤ t.length + 7) :
    headerDecode (h0 :: h1 :: h2 :: h3 :: h4 :: h5 :: h6 :: t) =
      some (.error (.invalidSyncWord (syncBits h0 h1))) := by
  have hmiss : syncBits h0 h1 ≠ 0xFFF#12 := beq_eq_false_iff_ne.1 hs
  obtain hl' | hp | ⟨c0, c1, u, rfl, hp⟩ := header_cases h1 t
  · omega
  · simp [headerDecode, hp, hmiss]
  · simp [headerDecode, hp, hmiss]

theorem headerDecode_seven (hs : syncCheck h0 h1 = true) (hp : protectionBit h1 = true) :
    headerDecode (h0 :: h1 :: h2 :: h3 :: h4 :: h5 :: h6 :: t) =
      some (headerAnswer h1 h2 h3 h4 h5 h6 (headerOf true (fieldsOf h1 h2 h3 h4 h5 h6) none)) := by
  have hsync : syncBits h0 h1 = 0xFFF := beq_iff_eq.1 hs
  simp [headerDecode, headerAnswer, hp, hsync, apply_ite some]

theorem headerDecode_nine {c0 c1 : Byte} (hs : syncCheck h0 h1 = true) (hp : protectionBit h1 = false) :
    headerDecode (h0 :: h1 :: h2 :: h3 :: h4 :: h5 :: h6 :: c0 :: c1 :: t) =
      some (headerAnswer h1 h2 h3 h4 h5 h6 (headerOf false (fieldsOf h1 h2 h3 h4 h5 h6) (some (c0 ++ c1)))) := by
  have hsync : syncBits h0 h1 = 0xFFF := beq_iff_eq.1 hs
  simp [headerDecode, headerAnswer, hp, hsync, apply_ite some]

/-- All L bytes of a sync-checked header are checked as R41 says, whichever class it is. -/
theorem headerDecode_complete (hs : syncCheck h0 h1 = true) (hl : headerLength (protectionBit h1) ≤ t.length + 7) :
    ∃ crc, IsCrcOf h1 t crc ∧ headerDecode (h0 :: h1 :: h2 :: h3 :: h4 :: h5 :: h6 :: t) =
      some (headerAnswer h1 h2 h3 h4 h5 h6 (headerOf (protectionBit h1) (fieldsOf h1 h2 h3 h4 h5 h6) crc)) := by
  obtain hl' | hp | ⟨c0, c1, u, rfl, hp⟩ := header_cases h1 t
  · omega
  · exact ⟨none, ⟨fun _ => rfl, by simp [hp]⟩, by rw [hp]; exact headerDecode_seven hs hp⟩
  · exact ⟨some (c0 ++ c1), ⟨by simp [hp], fun _ => ⟨c0, c1, u, rfl, rfl⟩⟩, by rw [hp]; exact headerDecode_nine hs hp⟩

/-- What HEADER_DECODE has checked when it returns a header, and what the header is made of. -/
theorem headerDecode_eq_header {h : Header}
    (hh : headerDecode (h0 :: h1 :: h2 :: h3 :: h4 :: h5 :: h6 :: t) = some (.header h)) :
    ∃ crc, h = headerOf (protectionBit h1) (fieldsOf h1 h2 h3 h4 h5 h6) crc ∧ IsCrcOf h1 t crc
      ∧ (fieldsOf h1 h2 h3 h4 h5 h6).sfIndex.toNat ≤ 12
      ∧ headerLength (protectionBit h1) ≤ (fieldsOf h1 h2 h3 h4 h5 h6).frameLength.toNat := by
  obtain hl | hl := Nat.lt_or_ge (t.length + 7) (headerLength (protectionBit h1))
  · rw [headerDecode_incomplete hl] at hh; cases hh
  · cases hs : syncCheck h0 h1 with
    | false => rw [headerDecode_miss hs hl] at hh; cases hh
    | true =>
      obtain ⟨crc, hcrc, hdec⟩ := headerDecode_complete hs hl
      rw [hdec] at hh
      obtain ⟨rfl, hsf, hfl⟩ := headerAnswer_eq_header (Option.some.inj hh)
      exact ⟨crc, rfl, hcrc, hsf, hfl⟩

/-! ## The decoder's rows return what HEADER_DECODE returns -/

/-- The decoder's checks and HEADER_DECODE's, made in different words (sf_index 13, 14 and 15 in two rows; at least 13),
come to the same answer. -/
theorem exec_headerRow_direct {s : State} {good : Instr} {hdr : Header} (hs : s.AtRest)
    (hgood : exec good s = .next (s.returns (.header hdr))) :
    exec (headerRow h1 h2 h3 h4 h5 h6 good) s = .next (s.returns (headerAnswer h1 h2 h3 h4 h5 h6 hdr)) := by
  obtain ⟨hsf, hr⟩ | ⟨hsf, hr⟩ | ⟨hsf, hfl, hr⟩ | ⟨hsf, hfl, hr⟩ := headerRow_cases h1 h2 h3 h4 h5 h6 good <;> rw [hr]
  · rw [headerAnswer_reserved (by rw [hsf]; decide), hsf]
    exact exec_failing_direct hs rfl
  · have hbits : ∀ v : BitVec 4, v.extractLsb' 1 3 = 7 → 13 ≤ v.toNat ∧ 7#3 ++ v.extractLsb' 0 1 = v := by decide
    obtain ⟨hge, hindex⟩ := hbits _ hsf
    rw [headerAnswer_reserved hge, exec_failing_direct hs rfl, hindex]
  · rw [headerAnswer_short hsf hfl]
    exact exec_failing_direct hs rfl
  · rw [headerAnswer_good hsf hfl, hgood]

theorem exec_complete_direct {s : State} (hs : s.AtRest) (hl : headerLength (protectionBit h1) ≤ t.length + 7) :
    ∃ answer i, headerDecode (h0 :: h1 :: h2 :: h3 :: h4 :: h5 :: h6 :: t) = some answer
      ∧ decodeWindow (h0 :: h1 :: h2 :: h3 :: h4 :: h5 :: h6 :: t) = some i
      ∧ exec i s = .next (s.returns answer) := by
  cases hsync : syncCheck h0 h1 with
  | false => exact ⟨_, _, headerDecode_miss hsync hl, decodeWindow_miss hsync _, exec_failing_direct hs rfl⟩
  | true =>
    obtain hl' | hp | ⟨c0, c1, u, rfl, hp⟩ := header_cases h1 t
    · omega
    · exact ⟨_, _, headerDecode_seven hsync hp, decodeWindow_seven hsync hp,
        exec_headerRow_direct hs (exec_header_direct hs rfl)⟩
    · exact ⟨_, _, headerDecode_nine hsync hp, decodeWindow_nine hsync hp,
        exec_headerRow_direct hs (exec_header_direct hs rfl)⟩

theorem exec_pair_direct {s : State} (hs : s.AtRest) (b0 b1 : Byte) :
    ∃ answer i, decodeWindow [b0, b1] = some i ∧ exec i s = .next (s.returns answer)
      ∧ (answer = .sync true ↔ syncCheck b0 b1 = true) := by
  cases hsync : syncCheck b0 b1 with
  | false => exact ⟨_, _, decodeWindow_miss hsync [], exec_failing_direct hs rfl, by simp⟩
  | true =>
    have hl : 2 < headerLength (protectionBit b1) := Nat.lt_of_lt_of_le (by decide) (seven_le_headerLength _)
    exact ⟨.sync true, _, decodeWindow_wait hsync hl, rfl, by simp⟩

end

/-- Settles O13, window class by window class: the row the decoder reads returns what HEADER_DECODE does. -/
theorem directCodecCallsReturnHeaderDecode : Obligations.DirectCodecCallsReturnHeaderDecode :=
  ⟨fun _ _ _ _ _ _ _ _ _ hs hl => exec_complete_direct hs hl, fun b0 b1 _ hs => exec_pair_direct hs b0 b1⟩

/-! ## What a decoded header reports -/

theorem toNat_numberOfBlocks (p : Bool) (f : HeaderFields) (crc : Option (BitVec 16)) :
    (headerOf p f crc).numberOfBlocks.toNat = f.rawBlocks.toNat + 1 := by
  have hbits : ∀ v : BitVec 2, (v.zeroExtend 3 + 1).toNat = v.toNat + 1 := by decide
  exact hbits f.rawBlocks

/-- Settles O14: the header is made of `fieldsOf`, which takes each field from its own bits. -/
theorem decodedFieldsComeFromTheirBits : Obligations.DecodedFieldsComeFromTheirBits := by
  intro h0 h1 h2 h3 h4 h5 h6 t h hh
  obtain ⟨crc, rfl, -⟩ := headerDecode_eq_header hh
  exact ⟨rfl, rfl, rfl, rfl, rfl, rfl, rfl, toNat_numberOfBlocks _ _ _⟩

/-- Settles O15: is_original as in O14, and the CRC from the two bytes after byte 6 exactly where they belong to the
header. -/
theorem originalFlagAndCrcAsTheSpecDecides : Obligations.OriginalFlagAndCrcAsTheSpecDecides := by
  intro h0 h1 h2 h3 h4 h5 h6 t h hh
  obtain ⟨crc, rfl, ⟨hnone, hsome⟩, -⟩ := headerDecode_eq_header hh
  exact ⟨rfl, hnone, hsome⟩

/-- Settles O16: the index is checked before frame_length, and kept. -/
theorem sfIndexIsCheckedAndReported : Obligations.SfIndexIsCheckedAndReported := by
  refine fun h0 h1 h2 h3 h4 h5 h6 t => ⟨fun hs hl hsf => ?_, fun h hh => ?_⟩
  · obtain ⟨crc, -, hdec⟩ := headerDecode_complete hs hl
    rw [hdec, headerAnswer_reserved hsf]
    rfl
  · obtain ⟨crc, rfl, -, hsf, -⟩ := headerDecode_eq_header hh
    exact ⟨rfl, hsf⟩

/-- Settles O17: frame_length is checked against L, which is at least 7, and kept. -/
theorem frameLengthIsCheckedAndReported : Obligations.FrameLengthIsCheckedAndReported := by
  refine fun h0 h1 h2 h3 h4 h5 h6 t => ⟨fun hs hl hsf hfl => ?_, fun h hh => ?_⟩
  · obtain ⟨crc, -, hdec⟩ := headerDecode_complete hs hl
    rw [hdec, headerAnswer_short hsf hfl]
    rfl
  · obtain ⟨crc, rfl, -, -, hfl⟩ := headerDecode_eq_header hh
    have hmin := seven_le_headerLength (protectionBit h1)
    have hmax := (fieldsOf h1 h2 h3 h4 h5 h6).frameLength.isLt
    have hrest : (fieldsOf h1 h2 h3 h4 h5 h6).frameLength.toNat - headerLength (protectionBit h1) ≤ 8184 := by omega
    exact ⟨rfl, hfl, hrest⟩

/-! ## An error row at the cursor of a PUSH -/

/-- Inside a PUSH that looks for a header, a failing window enters its error (R64, R79). -/
theorem step_failing {s : State} {r : PushRun} {i : Instr} {e : HeaderError} (hr : s.run = some r)
    (hs : s.streaming = false) (hi : decodeWindow r.rest = some i)
    (hw : exec i s = .next (failingWindow e s)) (hwaits : waits i = false) : step s = .next (raiseError e s r) := by
  simp only [step_running hr, runStep, hs, hi, hw, afterWindow, hwaits, failingWindow_running hr, Bool.false_eq_true,
    ↓reduceIte]

/-- Settles O24: the decoder reads ADTS_ERR_SHORT at the cursor, which enters its error. -/
theorem shortFrameIsReported : Obligations.ShortFrameIsReported := by
  rintro s r h0 h1 h2 h3 h4 h5 h6 t hr hs ⟨hrest, hsync, hl⟩ hsf hfl
  obtain ⟨rfl, hnibble⟩ := syncCheck_bytes hsync
  obtain ⟨good, hdec⟩ := decodeWindow_header hnibble hl
  have hrow : headerRow h1 h2 h3 h4 h5 h6 good = .adtsErrShort (protectionBit h1) (fieldsOf h1 h2 h3 h4 h5 h6) :=
    (headerRow_of_sfIndex_le hsf good).trans (if_pos hfl)
  rw [hrow, ← hrest] at hdec
  rw [step_failing hr hs hdec rfl rfl, lengthDetail_eq]
  rfl

end Sys2Proof.Machine
end

section
/-! PROOFS. What a PUSH does with the window at its cursor is what HEADER_DECODE returns for it (R61 to R64). -/
namespace Sys2Proof.Machine

/-! ## The answer of a window -/

/-- What the codec answers for a row of the stream that is no SYNC_CHECK: the error it fails with, or its header. -/
def rowAnswer : Instr → Option (Except HeaderError Header)
  | .syncMiss sync _ => some (.error (.invalidSyncWord sync))
  | .adtsErrSf13 _ _ => some (.error (.reservedFieldValue 13))
  | .adtsErrSf1415 _ sfLow _ => some (.error (.reservedFieldValue (7#3 ++ sfLow)))
  | .adtsErrShort p f => some (.error (.frameTooShort f.frameLength (lengthDetail p)))
  | .adtsHdr7 f => some (.ok (headerOf true f none))
  | .adtsHdr9 f crc => some (.ok (headerOf false f (some crc)))
  | _ => none

/-- The answer for the window that some bytes begin with; `none` while more bytes are needed (R60, R62). -/
def windowAnswer (bytes : List Byte) : Option (Except HeaderError Header) := (decodeWindow bytes).bind rowAnswer

/-- The answer as HEADER_DECODE returns it (R41). -/
def toResult : Except HeaderError Header → CodecResult
  | .error e => .error e
  | .ok h => .header h

/-- What a PUSH does on an answer (R63, R64). -/
def enter (s : State) (r : PushRun) : Except HeaderError Header → State
  | .error e => raiseError e s r
  | .ok h => deliverHeader h s r

theorem windowStep_running {s : State} {r : PushRun} (hr : s.run = some r) (i : Instr) :
    windowStep i s = (rowAnswer i).map (enter s r) := by
  cases i with
  | syncMiss sync low => exact congrArg some (failingWindow_running hr _)
  | adtsErrSf13 high low => exact congrArg some (failingWindow_running hr _)
  | adtsErrSf1415 high sfLow low => exact congrArg some (failingWindow_running hr _)
  | adtsErrShort p f => exact congrArg some (failingWindow_running hr _)
  | adtsHdr7 f => exact congrArg some (headerWindow_running hr _)
  | adtsHdr9 f crc => exact congrArg some (headerWindow_running hr _)
  | _ => rfl

/-- Between frames an iteration of the loop enters the answer of the window at the cursor. -/
theorem pushIteration_searching {s : State} {r : PushRun} (hr : s.run = some r) (hs : s.streaming = false) :
    pushIteration s r = (windowAnswer r.rest).map (enter s r) := by
  simp only [pushIteration, hs, Bool.false_eq_true, ↓reduceIte, windowAnswer]
  cases decodeWindow r.rest with
  | none => rfl
  | some i => exact windowStep_running hr i

/-- While a frame is being delivered an iteration needs a byte of payload (R58). -/
theorem pushIteration_streaming_nil {s : State} {r : PushRun} (hs : s.streaming = true) (h : r.rest = []) :
    pushIteration s r = none := by
  simp only [pushIteration, hs, h, List.isEmpty_nil, ↓reduceIte]

/-! ## The answer, window class by window class -/

theorem windowAnswer_miss {b0 b1 : Byte} (h : syncCheck b0 b1 = false) (t : List Byte) :
    windowAnswer (b0 :: b1 :: t) = some (.error (.invalidSyncWord (syncBits b0 b1))) := by
  rw [windowAnswer, decodeWindow_miss h]
  rfl

/-- Carried bytes have no answer yet (R60, R62). -/
theorem windowAnswer_of_carriedOk {bytes : List Byte} (h : carriedOk bytes = true) : windowAnswer bytes = none := by
  match bytes with
  | [] => rfl
  | [_] => rfl
  | b0 :: b1 :: t =>
    obtain ⟨hs, hl⟩ := (carriedOk_cons_cons b0 b1 t).1 h
    rw [windowAnswer, decodeWindow_wait hs hl]
    rfl

/-- The rows of a complete header answer what HEADER_DECODE's checks do, if the row they pass on to does. -/
theorem rowAnswer_headerRow (h1 h2 h3 h4 h5 h6 : Byte) {good : Instr} {hdr : Header}
    (hg : rowAnswer good = some (.ok hdr)) :
    ∃ a, rowAnswer (headerRow h1 h2 h3 h4 h5 h6 good) = some a ∧ headerAnswer h1 h2 h3 h4 h5 h6 hdr = toResult a := by
  obtain ⟨hsf, hr⟩ | ⟨hsf, hr⟩ | ⟨hsf, hfl, hr⟩ | ⟨hsf, hfl, hr⟩ := headerRow_cases h1 h2 h3 h4 h5 h6 good <;> rw [hr]
  · exact ⟨_, rfl, by rw [headerAnswer_reserved (by rw [hsf]; decide), hsf]; rfl⟩
  · have hbits : ∀ v : BitVec 4, v.extractLsb' 1 3 = 7 → 13 ≤ v.toNat ∧ 7#3 ++ v.extractLsb' 0 1 = v := by decide
    obtain ⟨hge, hindex⟩ := hbits _ hsf
    exact ⟨_, rfl, by rw [headerAnswer_reserved hge, hindex]; rfl⟩
  · exact ⟨_, rfl, headerAnswer_short hsf hfl hdr⟩
  · exact ⟨_, hg, headerAnswer_good hsf hfl hdr⟩

/-- A complete sync-checked header is answered as HEADER_DECODE answers it (R41, R62). -/
theorem windowAnswer_of_headerPresent {bytes t : List Byte} {h0 h1 h2 h3 h4 h5 h6 : Byte}
    (h : headerPresent bytes h0 h1 h2 h3 h4 h5 h6 t) :
    ∃ a, windowAnswer bytes = some a ∧ headerDecode bytes = some (toResult a) := by
  obtain ⟨rfl, hs, hl⟩ := h
  obtain hl' | hp | ⟨c0, c1, u, rfl, hp⟩ := header_cases h1 t
  · omega
  · obtain ⟨a, ha, hres⟩ := rowAnswer_headerRow h1 h2 h3 h4 h5 h6 (good := .adtsHdr7 (fieldsOf h1 h2 h3 h4 h5 h6)) rfl
    rw [windowAnswer, decodeWindow_seven hs hp, headerDecode_seven hs hp]
    exact ⟨a, ha, congrArg some hres⟩
  · obtain ⟨a, ha, hres⟩ := rowAnswer_headerRow h1 h2 h3 h4 h5 h6
      (good := .adtsHdr9 (fieldsOf h1 h2 h3 h4 h5 h6) (c0 ++ c1)) rfl
    rw [windowAnswer, decodeWindow_nine hs hp, headerDecode_nine hs hp]
    exact ⟨a, ha, congrArg some hres⟩

/-- Where the decoder reads a row that is answered, a pair has failed the sync check or a complete header stands. -/
theorem windowAnswer_cases {bytes : List Byte} {a : Except HeaderError Header} (h : windowAnswer bytes = some a) :
    (∃ b0 b1 t, bytes = b0 :: b1 :: t ∧ syncCheck b0 b1 = false ∧ a = .error (.invalidSyncWord (syncBits b0 b1)))
      ∨ ∃ h0 h1 h2 h3 h4 h5 h6 t, headerPresent bytes h0 h1 h2 h3 h4 h5 h6 t
          ∧ headerDecode bytes = some (toResult a) := by
  have present {h0 h1 h2 h3 h4 h5 h6 : Byte} {t : List Byte} (hp : headerPresent bytes h0 h1 h2 h3 h4 h5 h6 t) :
      headerDecode bytes = some (toResult a) := by
    obtain ⟨a', ha', hres⟩ := windowAnswer_of_headerPresent hp
    rwa [Option.some.inj (ha'.symm.trans h)] at hres
  obtain hl | ⟨b0, b1, t, rfl, hs⟩ | ⟨b0, b1, t, rfl, hs, hl⟩ | ⟨b0, b1, b2, b3, b4, b5, b6, t, rfl, hs, hp⟩ |
    ⟨b0, b1, b2, b3, b4, b5, b6, c0, c1, t, rfl, hs, hp⟩ := window_cases bytes
  · rw [windowAnswer_of_carriedOk (carriedOk_of_length_lt_two hl)] at h; cases h
  · rw [windowAnswer_miss hs] at h; cases h
    exact .inl ⟨b0, b1, t, rfl, hs, rfl⟩
  · rw [windowAnswer_of_carriedOk ((carriedOk_cons_cons b0 b1 t).2 ⟨hs, hl⟩)] at h; cases h
  · have hat : headerPresent (b0 :: b1 :: b2 :: b3 :: b4 :: b5 :: b6 :: t) b0 b1 b2 b3 b4 b5 b6 t :=
      ⟨rfl, hs, by simp [hp, headerLength]⟩
    exact .inr ⟨_, _, _, _, _, _, _, _, hat, present hat⟩
  · have hat : headerPresent (b0 :: b1 :: b2 :: b3 :: b4 :: b5 :: b6 :: c0 :: c1 :: t) b0 b1 b2 b3 b4 b5 b6
        (c0 :: c1 :: t) := ⟨rfl, hs, by simp [hp, headerLength]⟩
    exact .inr ⟨_, _, _, _, _, _, _, _, hat, present hat⟩

theorem windowError_of_windowAnswer {bytes : List Byte} {e : HeaderError}
    (h : windowAnswer bytes = some (.error e)) : windowError bytes = some e := by
  obtain ⟨b0, b1, t, rfl, hs, he⟩ | ⟨h0, h1, h2, h3, h4, h5, h6, t, ⟨rfl, hs, -⟩, hdec⟩ := windowAnswer_cases h
  · cases he
    simp only [windowError, hs, Bool.false_eq_true, ↓reduceIte]
  · simp only [windowError, hs, ↓reduceIte, hdec, toResult]

theorem headerDecode_of_windowAnswer {bytes : List Byte} {hdr : Header}
    (h : windowAnswer bytes = some (.ok hdr)) : headerDecode bytes = some (.header hdr) := by
  obtain ⟨b0, b1, t, rfl, hs, he⟩ | ⟨h0, h1, h2, h3, h4, h5, h6, t, -, hdec⟩ := windowAnswer_cases h
  · cases he
  · exact hdec

/-- An answer needs the two bytes of the sync check (R60). -/
theorem two_le_length_of_windowAnswer {bytes : List Byte} {a : Except HeaderError Header}
    (h : windowAnswer bytes = some a) : 2 ≤ bytes.length := by
  obtain ⟨i, hi, -⟩ := Option.bind_eq_some_iff.1 h
  exact two_le_length_of_decodeWindow hi

theorem headerAt_of_windowAnswer {bytes : List Byte} {hdr : Header} (h : windowAnswer bytes = some (.ok hdr)) :
    HeaderAt bytes hdr := by
  obtain ⟨i, hi, hrow⟩ := Option.bind_eq_some_iff.1 h
  cases i with
  | adtsHdr7 f => cases hrow; exact headerAt_of_hdr7 hi
  | adtsHdr9 f crc => cases hrow; exact headerAt_of_hdr9 hi
  | _ => cases hrow

/-- More bytes never change an answer (R69). -/
theorem windowAnswer_append {bytes : List Byte} {a : Except HeaderError Header} (h : windowAnswer bytes = some a)
    (more : List Byte) : windowAnswer (bytes ++ more) = some a := by
  obtain ⟨i, hi, hrow⟩ := Option.bind_eq_some_iff.1 h
  rw [windowAnswer, decodeWindow_append hi (fun low hlow => by rw [hlow] at hrow; cases hrow)]
  exact hrow

/-- An iteration of the loop slices payload, or enters the answer of the window at the cursor. -/
theorem pushIteration_answers {s t : State} {r : PushRun} (hr : s.run = some r) (h : pushIteration s r = some t) :
    (s.streaming = true ∧ r.rest ≠ [] ∧ t = stepPayload s r)
      ∨ (s.streaming = false ∧ ∃ a, windowAnswer r.rest = some a ∧ t = enter s r a) := by
  cases hs : s.streaming with
  | true =>
    obtain ⟨-, hne, ht⟩ | ⟨hf, -⟩ := pushIteration_cases hr h
    · exact .inl ⟨rfl, hne, ht⟩
    · rw [hs] at hf; cases hf
  | false =>
    rw [pushIteration_searching hr hs, Option.map_eq_some_iff] at h
    obtain ⟨a, ha, rfl⟩ := h
    exact .inr ⟨rfl, a, ha, rfl⟩

end Sys2Proof.Machine
end

section
/-! PROOFS. One step inside a PUSH: what is fetched, an error entered, a header delivered, payload sliced, the end
(R56 to R65). -/
namespace Sys2Proof.Machine

/-! ## What a step runs -/

theorem afterWindow_of_not_waits {i : Instr} (h : waits i = false) (r : PushRun)
    (o : Host.Outcome State Fault Refusal) : afterWindow i r o = o := by
  cases o with
  | next t => simp only [afterWindow, h, Bool.false_eq_true, ↓reduceIte]
  | fault f => rfl
  | refused q => rfl

theorem waits_of_ne_syncCheck {i : Instr} (h : ∀ low, i ≠ .syncCheck low) : waits i = false := by
  cases i with
  | syncCheck low => exact absurd rfl (h low)
  | _ => rfl

/-- A step of a PUSH that looks for a header fetches the instruction at the cursor (R61, R62). -/
theorem step_searching {s : State} {r : PushRun} {i : Instr} (hr : s.run = some r) (hs : s.streaming = false)
    (hi : decodeWindow r.rest = some i) : step s = afterWindow i r (exec i s) := by
  simp only [step_running hr, runStep, hs, Bool.false_eq_true, ↓reduceIte, hi]

theorem step_streaming {s : State} {r : PushRun} (hr : s.run = some r) (hs : s.streaming = true)
    (hne : r.rest ≠ []) : step s = .next (stepPayload s r) := by
  simp only [step_running hr, runStep, hs, ↓reduceIte, List.isEmpty_iff, hne]

/-- Settles O5: each clause is one branch of `step`. -/
theorem stepRunsTheDecodedInstruction : Obligations.StepRunsTheDecodedInstruction := by
  refine ⟨fun s => step_idle, fun s o w m later hs hp => step_act hs hp, fun s o raw later hs hp => step_act hs hp,
    ?_, ?_, ?_, fun s r => step_streaming⟩
  · intro s o bytes i later hs hp hi
    rw [step_act hs hp]
    simp only [restAct, hi]
  · intro s r i hr hs hi hne
    rw [step_searching hr hs hi, afterWindow_of_not_waits (waits_of_ne_syncCheck hne)]
  · intro s t r low hr hs hi ht
    rw [step_searching hr hs hi, ht]
    rfl

/-! ## Errors -/

/-- A window that is answered with an error enters it (R64). -/
theorem step_of_windowAnswer_error {s : State} {r : PushRun} {e : HeaderError} (hr : s.run = some r)
    (hs : s.streaming = false) (h : windowAnswer r.rest = some (.error e)) : step s = .next (raiseError e s r) := by
  obtain ⟨i, hi, hrow⟩ := Option.bind_eq_some_iff.1 h
  cases i with
  | syncMiss sync low => cases hrow; exact step_failing hr hs hi rfl rfl
  | adtsErrSf13 high low => cases hrow; exact step_failing hr hs hi rfl rfl
  | adtsErrSf1415 high sfLow low => cases hrow; exact step_failing hr hs hi rfl rfl
  | adtsErrShort p f => cases hrow; exact step_failing hr hs hi rfl rfl
  | _ => cases hrow

/-- Settles O22: such a pair fails the sync check, whatever follows it. -/
theorem badPairRaisesInvalidSyncWord : Obligations.BadPairRaisesInvalidSyncWord := by
  intro s r b0 b1 t hr hs hrest hpair
  rw [← syncCheck_iff, Bool.not_eq_true] at hpair
  have hanswer := windowAnswer_miss hpair t
  rw [← hrest] at hanswer
  rw [step_of_windowAnswer_error hr hs hanswer, raiseError, PushRun.advance, hrest]
  rfl

/-- Settles O25: a complete header is answered with what HEADER_DECODE returns, here an error. -/
theorem decodeFailureEntersItsError : Obligations.DecodeFailureEntersItsError := by
  intro s r h0 h1 h2 h3 h4 h5 h6 t e hr hs hat hdec
  obtain ⟨a, ha, hres⟩ := windowAnswer_of_headerPresent hat
  rw [hdec] at hres
  cases a with
  | error e' => cases hres; exact step_of_windowAnswer_error hr hs ha
  | ok hdr => cases hres

/-! ## Headers -/

/-- The fields of a CFG value, packed again (R13). -/
theorem packConfig_unpackConfig (v : BitVec 10) : packConfig (unpackConfig v) = v := by
  unfold packConfig unpackConfig
  grind

/-- CFG and CFG_VALID hold the stored configuration and nothing else (R13). -/
theorem cfg_of_storedConfig {s : State} (h : s.cfg.isSome = s.cfgValid) :
    s.cfg = (storedConfig s).map packConfig ∧ s.cfgValid = (storedConfig s).isSome := by
  unfold storedConfig
  cases hc : s.cfg with
  | none =>
    have hv : s.cfgValid = false := by rw [← h, hc]; rfl
    simp [hv]
  | some v =>
    have hv : s.cfgValid = true := by rw [← h, hc]; rfl
    simp [hv, packConfig_unpackConfig]

/-- CONFIG_DETECT leaves the header's configuration stored, with a CONFIG record if it was not (R74). -/
theorem configDetect_eq {s : State} (h : s.cfg.isSome = s.cfgValid) (hdr : Header) :
    configDetect hdr s = { s with
      events := s.events ++ (if storedConfig s = some (configOf hdr) then [] else [.config (configOf hdr)])
      cfg := some (packConfig (configOf hdr))
      cfgValid := true } := by
  by_cases hc : storedConfig s = some (configOf hdr)
  · obtain ⟨hcfg, hvalid⟩ := cfg_of_storedConfig h
    rw [hc] at hcfg hvalid
    rw [configDetect_same hc, if_pos hc, List.append_nil]
    cases s
    cases hcfg
    cases hvalid
    rfl
  · rw [configDetect_new hc, if_neg hc]
    rfl

/-- REMAIN after a header is 0 exactly when the frame is all header (R63). -/
theorem frameLength_sub_eq_zero_iff {v : BitVec 13} {length : Nat} (h9 : length ≤ 9) (h : length ≤ v.toNat) :
    v - BitVec.ofNat 13 length = 0 ↔ v.toNat = length := by
  have hzero : (0 : BitVec 13).toNat = 0 := rfl
  rw [← BitVec.toNat_inj, frameLength_sub h9 h, hzero]
  omega

/-- Delivering a header whose frame_length is at least L, all of it (R63). -/
theorem deliverHeader_eq {s : State} {hdr : Header} (hcfg : s.cfg.isSome = s.cfgValid)
    (hfl : headerLength hdr.protectionAbsent ≤ hdr.frameLength.toNat) (r : PushRun) :
    deliverHeader hdr s r = { s with
        events := s.events
          ++ (if storedConfig s = some (configOf hdr) then [] else [.config (configOf hdr)])
          ++ (if hdr.frameLength.toNat = headerLength hdr.protectionAbsent then [.frameStart hdr, .frameComplete]
              else [.frameStart hdr])
        run := some (r.advance (headerLength hdr.protectionAbsent))
        cfg := some (packConfig (configOf hdr))
        cfgValid := true
        remain := (deliverHeader hdr s r).remain
        streaming := if hdr.frameLength.toNat = headerLength hdr.protectionAbsent then s.streaming else true }
      ∧ (deliverHeader hdr s r).remain.toNat = hdr.frameLength.toNat - headerLength hdr.protectionAbsent := by
  have h9 := headerLength_le_nine hdr.protectionAbsent
  have hzero := frameLength_sub_eq_zero_iff h9 hfl
  rw [deliverHeader_remain]
  refine ⟨?_, frameLength_sub h9 hfl⟩
  unfold deliverHeader
  rw [configDetect_eq hcfg]
  dsimp only
  by_cases heq : hdr.frameLength.toNat = headerLength hdr.protectionAbsent
  · rw [if_pos (hzero.2 heq), if_pos heq, if_pos heq]
    simp only [State.emit, State.withRun, List.append_assoc, List.cons_append, List.nil_append]
  · rw [if_neg (mt hzero.1 heq), if_neg heq, if_neg heq]
    rfl

theorem cfgMissing_of_isSome {s : State} (h : s.cfg.isSome = s.cfgValid) : cfgMissing s = false := by
  rw [cfgMissing, ← h]
  cases s.cfg <;> rfl

theorem headerOutcome_running {s : State} {r : PushRun} (hr : s.run = some r) (hcfg : s.cfg.isSome = s.cfgValid)
    (hdr : Header) : headerOutcome s (headerWindow hdr s) = .next (deliverHeader hdr s r) := by
  simp only [headerOutcome, cfgMissing_of_isSome hcfg, Bool.and_false, Bool.false_eq_true, ↓reduceIte,
    headerWindow_running hr]

/-- Settles O27: both rows deliver their header, whose frame_length is at least L. -/
theorem headersAreDelivered : Obligations.HeadersAreDelivered := by
  intro s r hr hcfg
  refine ⟨fun f hwf => ?_, fun f crc hwf => ?_⟩
  · simp only [Instr.wf, Bool.and_eq_true, decide_eq_true_eq] at hwf
    exact ⟨_, headerOutcome_running hr hcfg _, deliverHeader_eq (hdr := headerOf true f none) hcfg hwf.2 r⟩
  · simp only [Instr.wf, Bool.and_eq_true, decide_eq_true_eq] at hwf
    exact ⟨_, headerOutcome_running hr hcfg _, deliverHeader_eq (hdr := headerOf false f (some crc)) hcfg hwf.2 r⟩

/-- Settles O26: a complete header is answered with what HEADER_DECODE returns, here a header of its own class. -/
theorem headerAtTheCursorIsDelivered : Obligations.HeaderAtTheCursorIsDelivered := by
  intro s r h0 h1 h2 h3 h4 h5 h6 t h hr hs hcfg hat hdec
  obtain ⟨a, ha, hres⟩ := windowAnswer_of_headerPresent hat
  rw [hdec] at hres
  cases a with
  | error e => cases hres
  | ok hdr =>
    cases hres
    have hiter := pushIteration_searching hr hs
    rw [ha] at hiter
    have hstep := runStep_of_pushIteration (cfgMissing_of_isSome hcfg) hiter
    have heq := deliverHeader_eq hcfg (headerAt_of_windowAnswer ha).frameLength_ge r
    obtain ⟨hrest, -⟩ := hat
    rw [hrest] at hdec
    obtain ⟨crc, rfl, -⟩ := headerDecode_eq_header hdec
    rw [hs] at heq
    exact ⟨_, (step_running hr).trans hstep, heq⟩

/-! ## Payload -/

/-- REMAIN after a slice is 0 exactly when the slice is the rest of the frame (R58, R59). -/
theorem remain_sub_eq_zero_iff {v : BitVec 13} {k : Nat} (h : k ≤ v.toNat) :
    v - BitVec.ofNat 13 k = 0 ↔ v.toNat = k := by
  have hzero : (0 : BitVec 13).toNat = 0 := rfl
  rw [← BitVec.toNat_inj, remain_sub h, hzero]
  omega

/-- One slice, all of it (R58, R59). -/
theorem stepPayload_eq {s : State} (hs : s.streaming = true) (r : PushRun) :
    stepPayload s r = { s with
        events := s.events
          ++ (if s.remain.toNat = min s.remain.toNat r.rest.length then
              [.payload (BitVec.ofNat 30 (r.cursor - s.fill.toNat))
                (BitVec.ofNat 13 (min s.remain.toNat r.rest.length)), .frameComplete]
            else
              [.payload (BitVec.ofNat 30 (r.cursor - s.fill.toNat))
                (BitVec.ofNat 13 (min s.remain.toNat r.rest.length))])
        run := some (r.advance (min s.remain.toNat r.rest.length))
        remain := (stepPayload s r).remain
        streaming := if s.remain.toNat = min s.remain.toNat r.rest.length then false else true }
      ∧ (stepPayload s r).remain.toNat = s.remain.toNat - min s.remain.toNat r.rest.length := by
  have hle := Nat.min_le_left s.remain.toNat r.rest.length
  have hzero := remain_sub_eq_zero_iff hle
  rw [stepPayload_remain]
  refine ⟨?_, remain_sub hle⟩
  unfold stepPayload
  dsimp only
  by_cases heq : s.remain.toNat = min s.remain.toNat r.rest.length
  · rw [if_pos (hzero.2 heq), if_pos heq, if_pos heq]
    simp only [frameDone, State.emit, State.withRun, List.append_assoc, List.cons_append, List.nil_append]
  · rw [if_neg (mt hzero.1 heq), if_neg heq, if_neg heq, ← hs]
    rfl

/-- The slice of a legal point is 1 to 8184 bytes (R58). -/
theorem State.AtPoint.slice_pos {s : State} {r : PushRun} (h : s.AtPoint r) (hs : s.streaming = true)
    (hne : r.rest ≠ []) : 1 ≤ min s.remain.toNat r.rest.length ∧ min s.remain.toNat r.rest.length ≤ 8184 := by
  obtain ⟨-, hremain⟩ := h.payload hs
  obtain ⟨-, -, -, -, hmax, -⟩ := h.registers
  have hpos := List.length_pos_of_ne_nil hne
  omega

/-- Settles O29: at a legal point neither number of the record is cut off. -/
theorem payloadIsSlicedFromTheChunk : Obligations.PayloadIsSlicedFromTheChunk := by
  intro s r hinv hr hs hne
  have hat := atPoint_of_inv hinv hr
  obtain ⟨hpos, hmax⟩ := hat.slice_pos hs hne
  obtain ⟨hfill, -⟩ := hat.payload hs
  obtain ⟨hoffset, hlength⟩ := hat.slice_toNat
  exact ⟨_, _, _, _, rfl, hpos, hmax, hoffset, hfill, hlength, step_streaming hr hs hne, stepPayload_eq hs r⟩

/-! ## The end -/

/-- What a codec call left is no matter for the acts that overlap a PUSH. -/
theorem overlapAct_returns (a : Act) (s : State) (r : PushRun) (c : CodecResult) :
    overlapAct a (s.returns c) r = onNext (·.returns c) (overlapAct a s r) := by
  cases a with
  | command w m => rfl
  | writeIbuf addr value =>
    exact (apply_ite (onNext (State.returns · c))
      (addr.toNat < r.len.toNat ∧ memoryRead s.ibuf addr.toNat ≠ some value) (.refused .ibufChangedDuringPush)
      (.next s)).symm
  | readPayload record index =>
    have hread : readReference (s.returns c) record index = readReference s record index := rfl
    simp only [overlapAct, hread]
    cases readReference s record index <;> rfl
  | takeOnly count =>
    exact (apply_ite (onNext (State.returns · c)) (count < s.events.length - r.firstEvent)
      (.fault .consumerNeverTakes) (.next s)).symm
  | window bytes => rfl
  | classify raw => rfl

theorem overlapActs_returns (acts : List HostAction) (s : State) (r : PushRun) (c : CodecResult) :
    overlapActs acts (s.returns c) r = onNext (·.returns c) (overlapActs acts s r) := by
  induction acts generalizing s with
  | nil => rfl
  | cons a later ih =>
    simp only [overlapActs, overlapAct_returns]
    cases overlapAct a.act s r with
    | next t => exact ih t
    | fault f => rfl
    | refused q => rfl

/-- The end of a PUSH is the acts that overlap it, then FINISH_PUSH (R65). -/
theorem endPush_eq_onNext (s : State) (r : PushRun) :
    endPush s r = onNext (finishPush · r)
      (overlapActs (s.port.takeWhile (·.overlaps)) { s with port := s.port.dropWhile (·.overlaps) } r) := by
  unfold endPush
  cases overlapActs (s.port.takeWhile (·.overlaps)) { s with port := s.port.dropWhile (·.overlaps) } r <;> rfl

/-- FINISH_PUSH drops what a codec call left. -/
theorem endPush_returns (s : State) (r : PushRun) (c : CodecResult) : endPush (s.returns c) r = endPush s r := by
  rw [endPush_eq_onNext, endPush_eq_onNext]
  refine (congrArg (onNext (finishPush · r)) (overlapActs_returns (s.port.takeWhile (·.overlaps))
    { s with port := s.port.dropWhile (·.overlaps) } r c)).trans ?_
  cases overlapActs (s.port.takeWhile (·.overlaps)) { s with port := s.port.dropWhile (·.overlaps) } r <;> rfl

/-- A step inside a PUSH whose loop has ended is the end of the PUSH, also after SYNC_CHECK (R62, R65). -/
theorem runStep_eq_endPush {s : State} {r : PushRun} (h : pushIteration s r = none) : runStep s r = endPush s r := by
  unfold pushIteration at h
  unfold runStep
  split at h
  · rename_i hs
    split at h
    · rw [if_pos hs, if_pos ‹_›]
    · cases h
  · rename_i hs
    rw [if_neg hs]
    cases hi : decodeWindow r.rest with
    | none => rfl
    | some i =>
      simp only [hi] at h
      obtain ⟨low, rfl⟩ | ⟨t, ht⟩ := decodeWindow_waits_or_steps hi s
      · exact endPush_returns s r (.sync true)
      · rw [ht] at h; cases h

/-- Settles O28: in neither case has the loop anything to do. -/
theorem incompleteHeaderIsCarriedWithoutError : Obligations.IncompleteHeaderIsCarriedWithoutError := by
  intro s r hr hquiet hwait
  have hstop : pushIteration s r = none := by
    obtain ⟨hs, hok⟩ | ⟨hs, hempty⟩ := hwait
    · rw [pushIteration_searching hr hs, windowAnswer_of_carriedOk hok]
      rfl
    · exact pushIteration_streaming_nil hs hempty
  rw [step_running hr, runStep_eq_endPush hstop, endPush_quiet hquiet]
  rfl

end Sys2Proof.Machine
end

section
/-! PROOFS. The loop ends in every state, and single steps run it to its end (R56, R68, R97). -/
namespace Sys2Proof.Machine

/-! ## The loop ends -/

/-- How many iterations the loop can still need: one for every byte left of Q, and one more where STREAMING is 1 with
REMAIN 0, which no run reaches (log 11). -/
def loopBound (s : State) (r : PushRun) : Nat := r.rest.length + if s.streaming = true ∧ s.remain = 0 then 1 else 0

theorem loopBound_le (s : State) (r : PushRun) : loopBound s r ≤ r.rest.length + 1 := by
  unfold loopBound
  split <;> omega

theorem loopBound_of_remain_ne {s : State} (h : s.streaming = true → s.remain ≠ 0) (r : PushRun) :
    loopBound s r = r.rest.length :=
  congrArg (r.rest.length + ·) (if_neg fun ⟨hs, h0⟩ => h hs h0)

/-- An iteration never leaves STREAMING 1 with REMAIN 0 (R59, R63). -/
theorem remain_ne_zero_of_pushIteration {s t : State} {r : PushRun} (hr : s.run = some r)
    (h : pushIteration s r = some t) (ht : t.streaming = true) : t.remain ≠ 0 := by
  intro h0
  obtain ⟨-, -, rfl⟩ | ⟨hs, a, -, rfl⟩ := pushIteration_answers hr h
  · rw [stepPayload_remain] at h0
    rw [stepPayload_streaming, if_pos h0] at ht
    cases ht
  · cases a with
    | error e =>
      rw [enter, raiseError_streaming, hs] at ht
      cases ht
    | ok hdr =>
      rw [enter, deliverHeader_remain] at h0
      rw [enter, deliverHeader_streaming, if_pos h0, hs] at ht
      cases ht

/-- Every iteration brings the end of the loop nearer: only a slice of length 0 takes no byte, and it ends its frame. -/
theorem loopBound_pushIteration {s t : State} {r : PushRun} (hr : s.run = some r) (h : pushIteration s r = some t) :
    ∃ n, t.run = some (r.advance n) ∧ loopBound t (r.advance n) < loopBound s r := by
  have hnext (n : Nat) : loopBound t (r.advance n) = r.rest.length - n := by
    rw [loopBound_of_remain_ne (remain_ne_zero_of_pushIteration hr h), advance_rest, List.length_drop]
  have hge : r.rest.length ≤ loopBound s r := Nat.le_add_right _ _
  obtain ⟨hs, hne, rfl⟩ | ⟨hs, a, ha, rfl⟩ := pushIteration_answers hr h
  · have hpos := List.length_pos_of_ne_nil hne
    refine ⟨_, stepPayload_run s r, ?_⟩
    rw [hnext]
    by_cases h0 : s.remain = 0
    · have hbound : loopBound s r = r.rest.length + 1 := congrArg (r.rest.length + ·) (if_pos ⟨hs, h0⟩)
      omega
    · have hremain := one_le_toNat_of_ne_zero h0
      omega
  · have hlen := two_le_length_of_windowAnswer ha
    cases a with
    | error e => exact ⟨1, rfl, by rw [hnext]; omega⟩
    | ok hdr =>
      have h7 := seven_le_headerLength hdr.protectionAbsent
      exact ⟨_, deliverHeader_run hdr s r, by rw [hnext]; omega⟩

/-- With that much fuel the loop comes to its end (R68). -/
theorem pushLoop_ends {fuel : Nat} {s : State} {r : PushRun} (hr : s.run = some r) (hfuel : loopBound s r ≤ fuel) :
    ∃ r', (pushLoop fuel s).run = some r' ∧ pushIteration (pushLoop fuel s) r' = none := by
  induction fuel generalizing s r with
  | zero =>
    refine ⟨r, hr, ?_⟩
    cases ht : pushIteration (pushLoop 0 s) r with
    | none => rfl
    | some t =>
      obtain ⟨n, -, hlt⟩ := loopBound_pushIteration hr ht
      omega
  | succ fuel ih =>
    cases ht : pushIteration s r with
    | none => exact ⟨r, by rwa [pushLoop_stop hr ht], by rwa [pushLoop_stop hr ht]⟩
    | some t =>
      obtain ⟨n, hn, hlt⟩ := loopBound_pushIteration hr ht
      rw [pushLoop_more hr ht]
      exact ih hn (by omega)

/-- Settles O33: a legal state has payload left while STREAMING is 1, so that the bytes left are fuel enough. -/
theorem pushLoopAlwaysEnds : Obligations.PushLoopAlwaysEnds := by
  refine ⟨fun s r hr => pushLoop_ends hr ((loopBound_le s r).trans (Nat.le_succ _)), fun s r hinv hr => ?_⟩
  refine pushLoop_ends hr (loopBound_of_remain_ne (fun hs h0 => ?_) r).le
  obtain ⟨-, hremain⟩ := (atPoint_of_inv hinv hr).payload hs
  rw [h0] at hremain
  exact absurd hremain (by decide)

/-! ## Single steps run the loop -/

theorem cfgMissing_deliverHeader (hdr : Header) (s : State) (r : PushRun) :
    cfgMissing (deliverHeader hdr s r) = false := by
  have h := storedConfig_deliverHeader hdr s r
  unfold storedConfig at h
  unfold cfgMissing
  cases hc : (deliverHeader hdr s r).cfg with
  | none => rw [hc] at h; split at h <;> cases h
  | some v => exact Bool.and_false _

theorem cfgMissing_pushIteration {s t : State} {r : PushRun} (hr : s.run = some r) (hcfg : cfgMissing s = false)
    (h : pushIteration s r = some t) : cfgMissing t = false := by
  obtain ⟨-, -, rfl⟩ | ⟨-, a, -, rfl⟩ := pushIteration_answers hr h
  · simpa only [cfgMissing, stepPayload_cfg, stepPayload_cfgValid] using hcfg
  · cases a with
    | error e => exact hcfg
    | ok hdr => exact cfgMissing_deliverHeader hdr s r

theorem core_run_succ {s t : State} (h : step s = .next t) (n : Nat) :
    Host.Core.run Sys2Proof.core (n + 1) s = Host.Core.run Sys2Proof.core n t := by
  have hstep : Sys2Proof.core.step s = .next t := h
  simp only [Host.Core.run, hstep]

/-- Some number of single steps is the loop (R56). -/
theorem core_run_pushLoop (fuel : Nat) {s : State} {r : PushRun} (hr : s.run = some r) (hcfg : cfgMissing s = false) :
    ∃ n, ∀ k, Host.Core.run Sys2Proof.core (k + n) s = Host.Core.run Sys2Proof.core k (pushLoop fuel s) := by
  induction fuel generalizing s r with
  | zero => exact ⟨0, fun _ => rfl⟩
  | succ fuel ih =>
    cases ht : pushIteration s r with
    | none => exact ⟨0, fun k => by rw [pushLoop_stop hr ht, Nat.add_zero]⟩
    | some t =>
      obtain ⟨m, hm⟩ := pushIteration_run hr ht
      obtain ⟨n, hn⟩ := ih hm (cfgMissing_pushIteration hr hcfg ht)
      have hstep : step s = .next t := (step_running hr).trans (runStep_of_pushIteration hcfg ht)
      exact ⟨n + 1, fun k => by rw [← Nat.add_assoc, core_run_succ hstep, pushLoop_more hr ht, hn]⟩

/-- Settles O6: the steps of the loop, then the one that ends the PUSH. -/
theorem atomicPushIsItsStepsInOrder : Obligations.AtomicPushIsItsStepsInOrder := by
  intro s t len h
  obtain ⟨-, hcfg, held, chunk, r, hheld, hchunk, hrun, hend⟩ := execPush_next h
  obtain ⟨n, hn⟩ := core_run_pushLoop ((held ++ chunk).length + 2) (startPush_run len (held ++ chunk) s) hcfg
  obtain ⟨r', hr', hstop⟩ := pushLoop_ends (fuel := (held ++ chunk).length + 2)
    (startPush_run len (held ++ chunk) s) ((loopBound_le _ _).trans (Nat.le_succ _))
  obtain rfl : r' = r := Option.some.inj (hr'.symm.trans hrun)
  refine ⟨held, chunk, 1 + n, hheld, hchunk, ?_⟩
  rw [hn]
  exact core_run_succ ((step_running hrun).trans ((runStep_eq_endPush hstop).trans hend)) 0

end Sys2Proof.Machine
end

section
/-! PROOFS. A PUSH as a whole: what it leaves, and what its records stand for (R56, R65 to R67). -/
namespace Sys2Proof.Machine

/-! ## The records of one iteration -/

theorem newEvents_of_events_eq {s t : State} {es : List Event} (h : t.events = s.events ++ es) :
    newEvents s t = es := by
  rw [newEvents, h, List.drop_left]

theorem configDetect_events (hdr : Header) (s : State) : (configDetect hdr s).events =
    s.events ++ if storedConfig s = some (configOf hdr) then [] else [.config (configOf hdr)] := by
  by_cases hc : storedConfig s = some (configOf hdr)
  · rw [configDetect_same hc, if_pos hc, List.append_nil]
  · rw [configDetect_new hc, if_neg hc]
    rfl

theorem newEvents_stepPayload (s : State) (r : PushRun) : newEvents s (stepPayload s r) =
    .payload (BitVec.ofNat 30 (r.cursor - s.fill.toNat)) (BitVec.ofNat 13 (min s.remain.toNat r.rest.length))
      :: if s.remain.toNat = min s.remain.toNat r.rest.length then [.frameComplete] else [] := by
  rw [newEvents_of_events_eq (stepPayload_events s r)]
  simp only [remain_sub_eq_zero_iff (Nat.min_le_left s.remain.toNat r.rest.length)]

theorem newEvents_raiseError (e : HeaderError) (s : State) (r : PushRun) :
    newEvents s (raiseError e s r) = [.error e (streamBase s + BitVec.ofNat 64 r.cursor)] :=
  newEvents_of_events_eq rfl

theorem newEvents_deliverHeader {rest : List Byte} {hdr : Header} (hat : HeaderAt rest hdr) (s : State) (r : PushRun) :
    newEvents s (deliverHeader hdr s r) =
      (if storedConfig s = some (configOf hdr) then [] else [.config (configOf hdr)])
        ++ .frameStart hdr
        :: if hdr.frameLength.toNat = headerLength hdr.protectionAbsent then [.frameComplete] else [] := by
  have hzero := frameLength_sub_eq_zero_iff (headerLength_le_nine hdr.protectionAbsent) hat.frameLength_ge
  refine newEvents_of_events_eq ?_
  rw [deliverHeader_events, configDetect_events, List.append_assoc]
  simp only [hzero]
  split_ifs <;> rfl

/-! ## The registers that a PUSH keeps until it finishes -/

theorem pushIteration_base {s t : State} {r : PushRun} (hr : s.run = some r) (h : pushIteration s r = some t) :
    t.carry = s.carry ∧ t.fill = s.fill ∧ t.totalIn = s.totalIn := by
  obtain ⟨_, _, rfl⟩ | ⟨_, _, _, _, ⟨e, rfl⟩ | ⟨f, _, rfl⟩ | ⟨f, crc, _, rfl⟩⟩ := pushIteration_cases hr h <;> simp

/-- CARRY, FILL and TOTAL_IN wait for FINISH_PUSH (R57, R65). -/
theorem pushLoop_base (fuel : Nat) (s : State) : (pushLoop fuel s).carry = s.carry ∧ (pushLoop fuel s).fill = s.fill
    ∧ (pushLoop fuel s).totalIn = s.totalIn := by
  refine pushLoop_induct (P := fun t => t.carry = s.carry ∧ t.fill = s.fill ∧ t.totalIn = s.totalIn) ?_ fuel
    ⟨rfl, rfl, rfl⟩
  rintro u r t hr ⟨hcarry, hfill, htotal⟩ ht
  obtain ⟨hcarry', hfill', htotal'⟩ := pushIteration_base hr ht
  exact ⟨hcarry'.trans hcarry, hfill'.trans hfill, htotal'.trans htotal⟩

theorem streamBase_congr {s t : State} (hfill : t.fill = s.fill) (htotal : t.totalIn = s.totalIn) :
    streamBase t = streamBase s := by
  rw [streamBase, streamBase, hfill, htotal]

theorem pushIteration_streamBase {s t : State} {r : PushRun} (hr : s.run = some r) (h : pushIteration s r = some t) :
    streamBase t = streamBase s := by
  obtain ⟨-, hfill, htotal⟩ := pushIteration_base hr h
  exact streamBase_congr hfill htotal

/-- A PUSH keeps its LEN (R57). -/
theorem pushLoop_len {fuel : Nat} {s : State} {r r' : PushRun} (hr : s.run = some r)
    (hr' : (pushLoop fuel s).run = some r') : r'.len = r.len := by
  refine pushLoop_induct (P := fun t => ∀ q, t.run = some q → q.len = r.len) ?_ fuel ?_ r' hr'
  · intro u q t hu hq ht q' hq'
    obtain ⟨n, hn⟩ := pushIteration_run hu ht
    obtain rfl := Option.some.inj (hn.symm.trans hq')
    exact hq q hu
  · intro q hq
    rw [Option.some.inj (hr.symm.trans hq)]

/-! ## Where the loop of a PUSH ends -/

/-- What a PUSH leaves at the end of its loop: the loop has nothing more to do, and at most 8 bytes of Q are left, all
of them after the cursor. -/
structure State.Ends (s : State) (held chunk : List Byte) (r : PushRun) : Prop where
  point : (chunkLoop held chunk s).AtPoint r
  stop : pushIteration (chunkLoop held chunk s) r = none
  len : r.len = BitVec.ofNat 30 chunk.length
  cursor : r.cursor ≤ (held ++ chunk).length
  rest : r.rest = (held ++ chunk).drop r.cursor
  rest_length : r.rest.length ≤ 8

theorem chunkLoop_base (held chunk : List Byte) (s : State) : (chunkLoop held chunk s).carry = s.carry
    ∧ (chunkLoop held chunk s).fill = s.fill ∧ (chunkLoop held chunk s).totalIn = s.totalIn :=
  pushLoop_base _ (chunkStart held chunk s)

theorem State.Pushes.ends {s : State} {held chunk : List Byte} {r : PushRun} (h : s.Pushes held chunk r)
    (hlen : chunk.length < 2 ^ 30) : s.Ends held chunk r := by
  obtain ⟨r', hpoint, hstop⟩ := atPoint_pushLoop h.start (fuel := (held ++ chunk).length + 2)
    (Nat.lt_add_of_pos_right (by decide))
  obtain rfl : r' = r := Option.some.inj (hpoint.running.symm.trans h.run)
  obtain ⟨hcarry, hfill, -⟩ := chunkLoop_base held chunk s
  have hrlen : r'.len = BitVec.ofNat 30 chunk.length := pushLoop_len h.start.running h.run
  have hheld : Machine.carried (chunkLoop held chunk s) = some held := (carried_congr hcarry hfill).trans h.carried
  have hchunk : memoryReadN (chunkLoop held chunk s).ibuf 0 r'.len.toNat = some chunk := by
    rw [chunkLoop_ibuf, hrlen, BitVec.toNat_ofNat, Nat.mod_eq_of_lt hlen, memoryReadN_of]
  obtain ⟨hcursor, hrest, -, -⟩ := (runOk_iff hheld hchunk).1 hpoint.point
  exact ⟨hpoint, hstop, hrlen, by rwa [List.length_append], hrest, (carriable_of_pushIteration_none hstop).1⟩

/-- A PUSH that completes from a legal state at rest: its loop, then FINISH_PUSH, whatever has overlapped it. -/
theorem pushChunk_next {s t : State} {chunk : List Byte} (h : s.SoundAtRest) (hlen : chunk.length < 2 ^ 30)
    (ht : pushChunk chunk s = .next t) :
    ∃ held r port taken, s.Pushes held chunk r ∧ s.Ends held chunk r
      ∧ t = finishPush { chunkLoop held chunk s with port := port, taken := taken } r := by
  obtain ⟨held, r, hp⟩ := pushes_of_soundAtRest h hlen
  rw [hp.outcome] at ht
  obtain ⟨bytes, rfl⟩ := endPush_next ht
  exact ⟨held, r, _, _, hp, hp.ends hlen, rfl⟩

/-- A PUSH that nothing overlaps completes. -/
theorem pushChunk_of_ready {s : State} {chunk : List Byte} (h : s.Ready) (hlen : chunk.length < 2 ^ 30) :
    ∃ held r, s.Pushes held chunk r ∧ s.Ends held chunk r
      ∧ pushChunk chunk s = .next (finishPush (chunkLoop held chunk s) r) := by
  obtain ⟨hinv, hrest, hquiet⟩ := h
  obtain ⟨held, r, hp⟩ := pushes_of_soundAtRest (soundAtRest_of_inv hinv hrest) hlen
  exact ⟨held, r, hp, hp.ends hlen, hp.outcome.trans (endPush_quiet (quiet_chunkLoop hquiet held chunk))⟩

/-- FINISH_PUSH carries what is left of Q (R65). -/
theorem carried_finishPush {r : PushRun} (h : r.rest.length ≤ 8) (s : State) :
    carried (finishPush s r) = some r.rest :=
  carried_carryOf (h.trans (by decide)) rfl rfl

/-- The chunk's length as the 64-bit number that FINISH_PUSH adds to TOTAL_IN (R65). -/
theorem zeroExtend_len {n : Nat} (h : n < 2 ^ 30) : (BitVec.ofNat 30 n).zeroExtend 64 = BitVec.ofNat 64 n := by
  apply BitVec.eq_of_toNat_eq
  rw [BitVec.toNat_setWidth, BitVec.toNat_ofNat, BitVec.toNat_ofNat, Nat.mod_eq_of_lt h]

/-- Settles O31: the loop of a PUSH ends, and with nothing overlapping FINISH_PUSH follows. -/
theorem pushCompletesAndConsumesItsChunk : Obligations.PushCompletesAndConsumesItsChunk := by
  intro s chunk hready hlen
  obtain ⟨held, r, hp, hend, hnext⟩ := pushChunk_of_ready hready hlen
  obtain ⟨-, -, htotal⟩ := chunkLoop_base held chunk s
  refine ⟨_, held, (held ++ chunk).take r.cursor, r.rest, hnext, rfl, rfl, ?_, hp.carried, ?_,
    carried_finishPush hend.rest_length _, hend.rest_length,
    events_prefix_pushLoop _ (chunkStart held chunk s), chunkLoop_port held chunk s, chunkLoop_taken held chunk s, rfl⟩
  · rw [finishPush_totalIn, htotal, hend.len, zeroExtend_len hlen]
  · rw [hend.rest, List.take_append_drop]

/-! ## An empty chunk -/

theorem readCarryN_getElem {carry : Vector (Option Byte) 9} {fill a n : Nat} {bs : List Byte}
    (h : readCarryN carry fill a n = some bs) {i : Nat} (hi : i < n) : readCarry carry fill (a + i) = bs[i]? := by
  induction n generalizing a bs i with
  | zero => omega
  | succ n ih =>
    obtain ⟨b, u, rfl, hb, hu⟩ := readCarryN_succ h
    cases i with
    | zero => exact hb
    | succ j =>
      rw [← Nat.add_assoc, Nat.add_right_comm, ih hu (by omega), List.getElem?_cons_succ]

/-- Legal registers hold in CARRY what FINISH_PUSH would save of the carried bytes (R10, R65). -/
theorem carryOf_carried {s : State} {held : List Byte} (h : s.RegistersOk) (hheld : carried s = some held) :
    carryOf held = s.carry := by
  obtain ⟨-, hcarry, -⟩ := h
  have hlen := carried_length hheld
  refine Vector.ext fun i hi => ?_
  rw [carryOf, Vector.getElem_ofFn]
  have hvalue : s.carry[i].isSome = decide (i < s.fill.toNat) := hcarry ⟨i, hi⟩
  by_cases hlt : i < s.fill.toNat
  · have hread := readCarryN_getElem hheld hlt
    rw [Nat.zero_add, readCarry, if_pos hlt, Vector.getElem?_eq_getElem hi, Option.join_some] at hread
    exact hread.symm
  · rw [decide_eq_false hlt, Option.isSome_eq_false_iff, Option.isNone_iff_eq_none] at hvalue
    rw [hvalue]
    exact List.getElem?_eq_none (hlen ▸ Nat.le_of_not_lt hlt)

/-- FINISH_PUSH after a PUSH that took nothing in. -/
theorem finishPush_eq_self {s : State} {r : PushRun} (hcarry : carryOf r.rest = s.carry)
    (hfill : BitVec.ofNat 4 r.rest.length = s.fill) (hlen : r.len.zeroExtend 64 = 0) (hibuf : s.ibuf = [])
    (hrun : s.AtRest) : finishPush s r = { s with result := none } := by
  rw [finishPush, hcarry, hfill, hlen, BitVec.ofNat_eq_ofNat, BitVec.add_zero, ← hibuf, ← hrun]

/-- A PUSH of an empty chunk has nothing to do in its loop: the carried bytes are the start of a header, and there are
none while a frame is being delivered (R16). -/
theorem pushIteration_chunkStart_nil {s : State} {held : List Byte} (h : s.SoundAtRest)
    (hheld : carried s = some held) : pushIteration (chunkStart held [] s) (chunkRun held [] s) = none := by
  obtain ⟨-, ⟨-, -, -, -, -, hok⟩, -, hstream⟩ := h
  have hrest : (chunkRun held [] s).rest = held := List.append_nil held
  cases hs : s.streaming with
  | true =>
    have hlen := carried_length hheld
    rw [(hstream hs).1] at hlen
    exact pushIteration_streaming_nil (s := chunkStart held [] s) hs
      (hrest.trans (List.eq_nil_of_length_eq_zero hlen))
  | false =>
    rw [pushIteration_searching (s := chunkStart held [] s) (r := chunkRun held [] s) rfl hs, hrest,
      windowAnswer_of_carriedOk (hok held hheld)]
    rfl

/-- Settles O34: what is carried is saved again where it was. -/
theorem emptyPushChangesNothing : Obligations.EmptyPushChangesNothing := by
  intro s hready
  obtain ⟨held, r, hp, -, hnext⟩ := pushChunk_of_ready (chunk := []) hready (by decide)
  obtain ⟨hinv, hrest, -⟩ := hready
  have hsound := soundAtRest_of_inv hinv hrest
  have hloop : chunkLoop held [] s = chunkStart held [] s :=
    pushLoop_stop hp.start.running (pushIteration_chunkStart_nil hsound hp.carried) _
  have hrun := hp.run
  rw [hloop] at hrun
  obtain rfl : chunkRun held [] s = r := Option.some.inj (hp.start.running.symm.trans hrun)
  have hq : (chunkRun held [] s).rest = held := List.append_nil held
  rw [hnext, hloop]
  refine congrArg Host.Outcome.next (finishPush_eq_self (s := s) ?_ ?_ rfl hsound.rest.1 hrest)
  · rw [hq, carryOf_carried hsound.registers hp.carried]
  · rw [hq, carried_length hp.carried, BitVec.ofNat_toNat, BitVec.setWidth_eq]

/-! ## The segments of Q that the records stand for -/

/-- Each record of an iteration stands for the segment of Q that the cursor moves over (R66, R81). -/
theorem cursorAfter_pushIteration {s t : State} {r : PushRun} {queue : List Byte} {n : Nat} (h : s.AtPoint r)
    (hrest : r.rest = queue.drop r.cursor) (ht : pushIteration s r = some t) (hn : t.run = some (r.advance n)) :
    cursorAfter queue s.fill.toNat (streamBase s) r.cursor (newEvents s t) = some (r.cursor + n) := by
  have hcursor {k : Nat} (hk : t.run = some (r.advance k)) : n = k := by
    have heq := congrArg PushRun.cursor (Option.some.inj (hn.symm.trans hk))
    simpa using heq
  have hqueue : r.rest.length = queue.length - r.cursor := by rw [hrest, List.length_drop]
  obtain ⟨hs, hne, rfl⟩ | ⟨hs, a, ha, rfl⟩ := pushIteration_answers h.running ht
  · obtain rfl := hcursor (stepPayload_run s r)
    obtain ⟨hoffset, hlength⟩ := h.slice_toNat
    obtain ⟨hfill, -⟩ := h.payload hs
    have hpos := List.length_pos_of_ne_nil hne
    rw [newEvents_stepPayload, cursorAfter, hoffset, hlength, if_pos (by omega)]
    split <;> rfl
  · cases a with
    | error e =>
      obtain rfl := hcursor (raiseError_run e s r)
      rw [enter, newEvents_raiseError, cursorAfter, ← hrest, windowError_of_windowAnswer ha, if_pos ⟨rfl, rfl⟩]
      rfl
    | ok hdr =>
      obtain rfl := hcursor (deliverHeader_run hdr s r)
      have hstart (es : List Event) : cursorAfter queue s.fill.toNat (streamBase s) r.cursor (.frameStart hdr :: es) =
          cursorAfter queue s.fill.toNat (streamBase s) (r.cursor + headerLength hdr.protectionAbsent) es := by
        rw [cursorAfter, ← hrest, if_pos (headerDecode_of_windowAnswer ha)]
      rw [enter, newEvents_deliverHeader (headerAt_of_windowAnswer ha)]
      split_ifs <;> exact hstart _

/-- The records of a loop stand for consecutive segments, and the last one ends at the cursor (R66). -/
theorem cursorAfter_pushLoop {fuel : Nat} {s : State} {r r' : PushRun} {queue : List Byte} (h : s.AtPoint r)
    (hrest : r.rest = queue.drop r.cursor) (hr' : (pushLoop fuel s).run = some r') :
    cursorAfter queue s.fill.toNat (streamBase s) r.cursor (newEvents s (pushLoop fuel s)) = some r'.cursor := by
  induction fuel generalizing s r with
  | zero =>
    obtain rfl := Option.some.inj (h.running.symm.trans hr')
    rw [pushLoop, newEvents_self]
    rfl
  | succ fuel ih =>
    cases ht : pushIteration s r with
    | none =>
      rw [pushLoop_stop h.running ht] at hr' ⊢
      obtain rfl := Option.some.inj (h.running.symm.trans hr')
      rw [newEvents_self]
      rfl
    | some t =>
      obtain ⟨n, -, -, hat⟩ := atPoint_pushIteration h ht
      obtain ⟨-, hfill, -⟩ := pushIteration_base h.running ht
      rw [newEvents_pushLoop_more h.running ht, cursorAfter_append, cursorAfter_pushIteration h hrest ht hat.running,
        Option.bind_some, ← hfill, ← pushIteration_streamBase h.running ht]
      rw [pushLoop_more h.running ht] at hr'
      exact ih hat (by rw [advance_rest, advance_cursor, hrest, List.drop_drop]) hr'

/-- Settles O52: the segments of the loop's records, of which FINISH_PUSH adds none. -/
theorem recordsStandForConsecutiveSegments : Obligations.RecordsStandForConsecutiveSegments := by
  intro s t chunk held hinv hrest hlen ht hheld
  obtain ⟨held', r, port, taken, hp, hend, rfl⟩ := pushChunk_next (soundAtRest_of_inv hinv hrest) hlen ht
  obtain rfl : held' = held := Option.some.inj (hp.carried.symm.trans hheld)
  have hcursor := cursorAfter_pushLoop hp.start (queue := held' ++ chunk) rfl hp.run
  rw [show (chunkStart held' chunk s).fill.toNat = held'.length from (carried_length hheld).symm] at hcursor
  exact ⟨r.cursor, hcursor, hend.cursor, by rw [carried_finishPush hend.rest_length, hend.rest]⟩

/-- Records that stand for consecutive segments spend the bytes between the first and the last cursor. -/
theorem cursorAfter_eq_add_spent {queue : List Byte} {held p p' : Nat} {base : BitVec 64} {es : List Event}
    (h : cursorAfter queue held base p es = some p') : p' = p + (es.map spent).sum := by
  induction es generalizing p with
  | nil => exact (Option.some.inj h).symm
  | cons e es ih =>
    rw [List.map_cons, List.sum_cons, ← Nat.add_assoc]
    cases e with
    | config c => exact ih h
    | frameComplete => exact ih h
    | frameStart hdr =>
      rw [cursorAfter] at h
      split at h
      · exact ih h
      · cases h
    | payload offset length =>
      rw [cursorAfter] at h
      split at h
      · exact ih h
      · cases h
    | error e offset =>
      rw [cursorAfter] at h
      split at h
      · exact ih h
      · cases h

/-- Settles O32: the segments of O52 and what is left behind them are all of Q. -/
theorem everyByteIsAccountedFor : Obligations.EveryByteIsAccountedFor := by
  intro s t chunk held left hinv hrest hlen ht hheld hleft
  obtain ⟨p, hp, hle, hcarried⟩ := recordsStandForConsecutiveSegments s t chunk held hinv hrest hlen ht hheld
  obtain rfl : left = (held ++ chunk).drop p := Option.some.inj (hleft.symm.trans hcarried)
  have hspent := cursorAfter_eq_add_spent hp
  rw [List.length_append] at hle
  rw [List.length_drop, List.length_append]
  omega

/-! ## Where PAYLOAD records lie -/

/-- Every record of a loop is a record of one of its iterations, at a legal point of the same PUSH. -/
theorem exists_pushIteration_of_mem_newEvents {fuel : Nat} {s : State} {r : PushRun} (h : s.AtPoint r) {e : Event}
    (he : e ∈ newEvents s (pushLoop fuel s)) :
    ∃ u q t, u.AtPoint q ∧ pushIteration u q = some t ∧ e ∈ newEvents u t := by
  induction fuel generalizing s r with
  | zero => rw [pushLoop, newEvents_self] at he; cases he
  | succ fuel ih =>
    cases ht : pushIteration s r with
    | none => rw [pushLoop_stop h.running ht, newEvents_self] at he; cases he
    | some t =>
      obtain ⟨n, -, -, hat⟩ := atPoint_pushIteration h ht
      rw [newEvents_pushLoop_more h.running ht, List.mem_append] at he
      obtain he | he := he
      · exact ⟨s, r, t, h, ht, he⟩
      · exact ih hat he

/-- A PAYLOAD record has 1 to 8184 bytes (R58). -/
theorem length_of_payload_mem {s t : State} {r : PushRun} (h : s.AtPoint r) (ht : pushIteration s r = some t)
    {offset : BitVec 30} {length : BitVec 13} (hp : .payload offset length ∈ newEvents s t) :
    1 ≤ length.toNat ∧ length.toNat ≤ 8184 := by
  obtain ⟨hs, -, -, hrun⟩ := slice_of_pushIteration h ht hp
  obtain ⟨-, hne, rfl⟩ | ⟨hs', -⟩ := pushIteration_answers h.running ht
  · have hcursor := congrArg PushRun.cursor (Option.some.inj (hrun.symm.trans (stepPayload_run s r)))
    rw [advance_cursor, advance_cursor, Nat.add_left_cancel_iff] at hcursor
    rw [hcursor]
    exact h.slice_pos hs hne
  · rw [hs] at hs'; cases hs'

/-- Settles O37: at the legal points of the loop a slice is not empty, and it ends where the chunk does or before. -/
theorem payloadRecordsLieInTheChunk : Obligations.PayloadRecordsLieInTheChunk := by
  intro s t chunk offset length hinv hrest hlen ht hmem
  obtain ⟨held, r, port, taken, hp, -, rfl⟩ := pushChunk_next (soundAtRest_of_inv hinv hrest) hlen ht
  obtain ⟨u, q, v, hat, hv, hmem'⟩ := exists_pushIteration_of_mem_newEvents hp.start hmem
  obtain ⟨hpos, hmax⟩ := length_of_payload_mem hat hv hmem'
  exact ⟨hpos, hmax, hp.slice_le hlen hmem⟩

end Sys2Proof.Machine
end

section
/-! PROOFS. The stream scanner behind PUSH, which knows no chunks: it takes payload byte by byte (R69, R70). -/
namespace Sys2Proof.Machine

open StateTransition (Reaches eval)

/-! ## The scanner -/

/-- What the framing machine knows between two bytes of the stream, whatever chunks they come in. -/
structure Scanner where
  streaming : Bool
  remain : Nat
  stored : Option EncoderConfig
  /-- The stream offset of the next byte. -/
  offset : BitVec 64
  /-- The bytes that are there and not yet used. -/
  rest : List Byte
  /-- What the consumer has got. -/
  out : List Delivered

/-- The next `k` bytes are payload; the frame is complete when they are the rest of it (R58, R59). -/
def Scanner.take (p : Scanner) (k : Nat) : Scanner where
  streaming := decide (p.remain ≠ k)
  remain := p.remain - k
  stored := p.stored
  offset := p.offset + BitVec.ofNat 64 k
  rest := p.rest.drop k
  out := p.out ++ (p.rest.take k).map .byte ++ if p.remain = k then [.record .frameComplete] else []

/-- A window that fails: its first byte is skipped (R64). -/
def Scanner.fail (p : Scanner) (e : HeaderError) : Scanner :=
  { p with
    offset := p.offset + 1
    rest := p.rest.drop 1
    out := p.out ++ [.record (.error e p.offset)] }

/-- A header is used up; the frame is complete at once when it has no payload (R63). -/
def Scanner.startFrame (p : Scanner) (hdr : Header) : Scanner where
  streaming := decide (hdr.frameLength.toNat ≠ headerLength hdr.protectionAbsent)
  remain := hdr.frameLength.toNat - headerLength hdr.protectionAbsent
  stored := some (configOf hdr)
  offset := p.offset + BitVec.ofNat 64 (headerLength hdr.protectionAbsent)
  rest := p.rest.drop (headerLength hdr.protectionAbsent)
  out := p.out ++ (if p.stored = some (configOf hdr) then [] else [.record (.config (configOf hdr))])
    ++ .record (.frameStart hdr)
    :: if hdr.frameLength.toNat = headerLength hdr.protectionAbsent then [.record .frameComplete] else []

/-- What an answer does (R63, R64). -/
def Scanner.enter (p : Scanner) : Except HeaderError Header → Scanner
  | .error e => p.fail e
  | .ok hdr => p.startFrame hdr

/-- One step: a byte of payload, or the answer of the window at the next byte; `none` while bytes are missing. -/
def Scanner.step (p : Scanner) : Option Scanner :=
  if p.streaming then if p.rest.isEmpty then none else some (p.take 1) else (windowAnswer p.rest).map p.enter

/-- The scanner with further stream bytes behind those that are there. -/
def Scanner.more (p : Scanner) (bytes : List Byte) : Scanner := { p with rest := p.rest ++ bytes }

theorem Scanner.step_streaming {p : Scanner} (hs : p.streaming = true) (hne : p.rest ≠ []) :
    p.step = some (p.take 1) := by
  simp only [Scanner.step, hs, ↓reduceIte, List.isEmpty_iff, hne]

theorem Scanner.step_searching {p : Scanner} (hs : p.streaming = false) :
    p.step = (windowAnswer p.rest).map p.enter := by
  simp only [Scanner.step, hs, Bool.false_eq_true, ↓reduceIte]

theorem Scanner.step_cases {p q : Scanner} (h : p.step = some q) :
    (p.streaming = true ∧ p.rest ≠ [] ∧ q = p.take 1)
      ∨ (p.streaming = false ∧ ∃ a, windowAnswer p.rest = some a ∧ q = p.enter a) := by
  cases hs : p.streaming with
  | true =>
    by_cases hne : p.rest = []
    · simp only [Scanner.step, hs, hne, List.isEmpty_nil, ↓reduceIte, reduceCtorEq] at h
    · rw [Scanner.step_streaming hs hne] at h
      exact .inl ⟨rfl, hne, (Option.some.inj h).symm⟩
  | false =>
    rw [Scanner.step_searching hs, Option.map_eq_some_iff] at h
    obtain ⟨a, ha, hq⟩ := h
    exact .inr ⟨rfl, a, ha, hq.symm⟩

/-! ## More bytes do not change what the scanner has done (R69) -/

theorem Scanner.take_more {p : Scanner} {k : Nat} (hk : k ≤ p.rest.length) (bytes : List Byte) :
    (p.more bytes).take k = (p.take k).more bytes := by
  simp only [Scanner.take, Scanner.more, List.drop_append_of_le_length hk, List.take_append_of_le_length hk]
  rfl

theorem Scanner.enter_more {p : Scanner} {a : Except HeaderError Header} (h : windowAnswer p.rest = some a)
    (bytes : List Byte) : (p.more bytes).enter a = (p.enter a).more bytes := by
  cases a with
  | error e =>
    have hlen : 1 ≤ p.rest.length := (two_le_length_of_windowAnswer h).trans' (by decide)
    simp only [Scanner.enter, Scanner.fail, Scanner.more, List.drop_append_of_le_length hlen]
  | ok hdr =>
    have hlen := (headerAt_of_windowAnswer h).length_le
    simp only [Scanner.enter, Scanner.startFrame, Scanner.more, List.drop_append_of_le_length hlen]
    rfl

theorem Scanner.step_more {p q : Scanner} (h : p.step = some q) (bytes : List Byte) :
    (p.more bytes).step = some (q.more bytes) := by
  obtain ⟨hs, hne, rfl⟩ | ⟨hs, a, ha, rfl⟩ := Scanner.step_cases h
  · have hmore : (p.more bytes).rest ≠ [] := List.append_ne_nil_of_left_ne_nil hne bytes
    rw [Scanner.step_streaming (p := p.more bytes) hs hmore, Scanner.take_more (List.length_pos_of_ne_nil hne)]
  · have hmore : windowAnswer (p.more bytes).rest = some a := windowAnswer_append ha bytes
    rw [Scanner.step_searching (p := p.more bytes) hs, hmore, Option.map_some, Scanner.enter_more ha]

theorem Scanner.reaches_more {p q : Scanner} (h : Reaches Scanner.step p q) (bytes : List Byte) :
    Reaches Scanner.step (p.more bytes) (q.more bytes) :=
  Relation.ReflTransGen.lift (Scanner.more · bytes) (fun _ _ hab => Scanner.step_more hab bytes) _ _ h

/-! ## What the consumer has got stays -/

theorem Scanner.out_step {p q : Scanner} (h : p.step = some q) : p.out <+: q.out := by
  obtain ⟨-, -, rfl⟩ | ⟨-, a, -, rfl⟩ := Scanner.step_cases h
  · exact (List.prefix_append ..).trans (List.prefix_append ..)
  · cases a with
    | error e => exact List.prefix_append ..
    | ok hdr => exact (List.prefix_append ..).trans (List.prefix_append ..)

theorem Scanner.out_reaches {p q : Scanner} (h : Reaches Scanner.step p q) : p.out <+: q.out := by
  induction h with
  | refl => exact List.prefix_refl _
  | tail _ hstep ih => exact ih.trans (Scanner.out_step hstep)

/-! ## A slice is its bytes, one after another -/

theorem Scanner.take_zero {p : Scanner} (hs : p.streaming = true) (hremain : p.remain ≠ 0) : p.take 0 = p := by
  obtain ⟨streaming, remain, stored, offset, rest, out⟩ := p
  cases hs
  simp [Scanner.take, show remain ≠ 0 from hremain]

theorem Scanner.take_take {p : Scanner} {k : Nat} (hk : k < p.remain) (j : Nat) :
    (p.take k).take j = p.take (k + j) := by
  have heq : p.remain - k = j ↔ p.remain = k + j := by omega
  have hne : p.remain ≠ k := by omega
  simp only [Scanner.take, heq, hne, ne_eq, if_false, List.append_nil, List.drop_drop, List.take_add, List.map_append,
    List.append_assoc, Nat.sub_sub, BitVec.add_assoc, BitVec.ofNat_add]

/-- Payload of any length is taken byte by byte (R58). -/
theorem Scanner.reaches_take {p : Scanner} (hs : p.streaming = true) (hremain : p.remain ≠ 0) {k : Nat}
    (hk : k ≤ p.remain) (hlen : k ≤ p.rest.length) : Reaches Scanner.step p (p.take k) := by
  induction k with
  | zero => rw [Scanner.take_zero hs hremain]; exact .refl
  | succ k ih =>
    refine (ih (by omega) (by omega)).tail ?_
    have hs' : (p.take k).streaming = true := decide_eq_true (by omega)
    have hne : (p.take k).rest ≠ [] := by
      rw [← List.length_pos_iff, Scanner.take, List.length_drop]
      omega
    rw [← Scanner.take_take (by omega)]
    exact Scanner.step_streaming hs' hne

/-! ## The PUSH loop is the scanner -/

/-- The scanner that a state stands for, the run `r` being in progress or to be started there, and `out` delivered. -/
def scannerAt (out : List Delivered) (s : State) (r : PushRun) : Scanner where
  streaming := s.streaming
  remain := s.remain.toNat
  stored := storedConfig s
  offset := streamBase s + BitVec.ofNat 64 r.cursor
  rest := r.rest
  out := out

theorem transcript_cons (chunk : List Byte) (e : Event) (es : List Event) :
    transcript chunk (e :: es) = delivered chunk e ++ transcript chunk es := List.flatMap_cons

theorem transcript_append (chunk : List Byte) (es es' : List Event) :
    transcript chunk (es ++ es') = transcript chunk es ++ transcript chunk es' := List.flatMap_append

theorem ite_false_true_eq_decide (m n : Nat) : (if m = n then false else true) = decide (m ≠ n) := by
  by_cases h : m = n <;> simp [h]

/-- A slice delivers its bytes (R58). -/
theorem scannerAt_stepPayload {s : State} {r : PushRun} {chunk : List Byte} (h : s.AtPoint r) (hs : s.streaming = true)
    (hchunk : memoryReadN s.ibuf 0 r.len.toNat = some chunk) (out : List Delivered) :
    scannerAt (out ++ transcript chunk (newEvents s (stepPayload s r))) (stepPayload s r)
        (r.advance (min s.remain.toNat r.rest.length)) =
      (scannerAt out s r).take (min s.remain.toNat r.rest.length) := by
  obtain ⟨hoffset, hlength⟩ := h.slice_toNat
  obtain ⟨chunk', hchunk', hrest⟩ := h.rest_of_streaming hs
  obtain rfl : chunk' = chunk := Option.some.inj (hchunk'.symm.trans hchunk)
  obtain ⟨heq, hremain⟩ := stepPayload_eq hs r
  have hbase : streamBase (stepPayload s r) = streamBase s := streamBase_congr (by simp) (by simp)
  have hstored : storedConfig (stepPayload s r) = storedConfig s := by simp [storedConfig]
  have hstream : (stepPayload s r).streaming = decide (s.remain.toNat ≠ min s.remain.toNat r.rest.length) := by
    rw [heq]
    exact ite_false_true_eq_decide _ _
  have hout : transcript chunk' (newEvents s (stepPayload s r)) =
      (r.rest.take (min s.remain.toNat r.rest.length)).map .byte
        ++ if s.remain.toNat = min s.remain.toNat r.rest.length then [.record .frameComplete] else [] := by
    rw [newEvents_stepPayload, transcript_cons, delivered, hoffset, hlength, ← hrest]
    split <;> rfl
  rw [scannerAt, Scanner.take, hbase, hstored, hstream, hout, hremain, advance_cursor, BitVec.ofNat_add,
    ← BitVec.add_assoc, ← List.append_assoc]
  rfl

/-- Entering an answer delivers its records (R63, R64). -/
theorem scannerAt_enter {s : State} {r : PushRun} {a : Except HeaderError Header} (hs : s.streaming = false)
    (ha : windowAnswer r.rest = some a) {n : Nat} (hn : (enter s r a).run = some (r.advance n)) (chunk : List Byte)
    (out : List Delivered) :
    scannerAt (out ++ transcript chunk (newEvents s (enter s r a))) (enter s r a) (r.advance n) =
      (scannerAt out s r).enter a := by
  have hadvance {k : Nat} (hk : (enter s r a).run = some (r.advance k)) : r.advance n = r.advance k :=
    Option.some.inj (hn.symm.trans hk)
  cases a with
  | error e =>
    rw [hadvance (raiseError_run e s r), enter, newEvents_raiseError]
    simp only [scannerAt, Scanner.enter, Scanner.fail, advance_cursor, BitVec.ofNat_add, ← BitVec.add_assoc]
    rfl
  | ok hdr =>
    have hat := headerAt_of_windowAnswer ha
    have hbase : streamBase (deliverHeader hdr s r) = streamBase s := streamBase_congr (by simp) (by simp)
    have hzero := frameLength_sub_eq_zero_iff (headerLength_le_nine hdr.protectionAbsent) hat.frameLength_ge
    have hstream : (deliverHeader hdr s r).streaming =
        decide (hdr.frameLength.toNat ≠ headerLength hdr.protectionAbsent) := by
      rw [deliverHeader_streaming, hs]
      simp only [hzero]
      exact ite_false_true_eq_decide _ _
    have hout : transcript chunk (newEvents s (deliverHeader hdr s r)) =
        (if storedConfig s = some (configOf hdr) then [] else [.record (.config (configOf hdr))])
          ++ .record (.frameStart hdr)
          :: if hdr.frameLength.toNat = headerLength hdr.protectionAbsent then [.record .frameComplete] else [] := by
      rw [newEvents_deliverHeader hat]
      split_ifs <;> rfl
    rw [hadvance (deliverHeader_run hdr s r), enter, scannerAt, hbase, storedConfig_deliverHeader, hstream, hout,
      deliverHeader_remain_toNat hat, advance_cursor, BitVec.ofNat_add, ← BitVec.add_assoc, ← List.append_assoc]
    rfl

/-- An iteration of the loop is some steps of the scanner. -/
theorem reaches_pushIteration {s t : State} {r : PushRun} {n : Nat} {chunk : List Byte} (h : s.AtPoint r)
    (hchunk : memoryReadN s.ibuf 0 r.len.toNat = some chunk) (ht : pushIteration s r = some t)
    (hn : t.run = some (r.advance n)) (out : List Delivered) :
    Reaches Scanner.step (scannerAt out s r) (scannerAt (out ++ transcript chunk (newEvents s t)) t (r.advance n)) := by
  obtain ⟨hs, -, rfl⟩ | ⟨hs, a, ha, rfl⟩ := pushIteration_answers h.running ht
  · have hremain := (h.payload hs).2
    rw [Option.some.inj (hn.symm.trans (stepPayload_run s r)), scannerAt_stepPayload h hs hchunk]
    exact Scanner.reaches_take hs (Nat.one_le_iff_ne_zero.1 hremain) (Nat.min_le_left _ _) (Nat.min_le_right _ _)
  · rw [scannerAt_enter hs ha hn]
    refine Relation.ReflTransGen.single ?_
    exact (Scanner.step_searching hs).trans (congrArg (Option.map _) ha)

/-- The loop of a PUSH is steps of the scanner, and delivers what they deliver. -/
theorem reaches_pushLoop {fuel : Nat} {s : State} {r r' : PushRun} {chunk : List Byte} (h : s.AtPoint r)
    (hchunk : memoryReadN s.ibuf 0 r.len.toNat = some chunk) (hr' : (pushLoop fuel s).run = some r')
    (out : List Delivered) :
    Reaches Scanner.step (scannerAt out s r)
      (scannerAt (out ++ transcript chunk (newEvents s (pushLoop fuel s))) (pushLoop fuel s) r') := by
  have stay {u : State} {q : PushRun} (hu : u.run = some r') (hq : u.run = some q) (out : List Delivered) :
      Reaches Scanner.step (scannerAt out u q) (scannerAt (out ++ transcript chunk (newEvents u u)) u r') := by
    obtain rfl := Option.some.inj (hq.symm.trans hu)
    rw [newEvents_self, show transcript chunk [] = [] from rfl, List.append_nil]
    exact .refl
  induction fuel generalizing s r out with
  | zero => exact stay hr' h.running out
  | succ fuel ih =>
    cases ht : pushIteration s r with
    | none =>
      rw [pushLoop_stop h.running ht] at hr' ⊢
      exact stay hr' h.running out
    | some t =>
      obtain ⟨n, -, -, hat⟩ := atPoint_pushIteration h ht
      rw [newEvents_pushLoop_more h.running ht, transcript_append, ← List.append_assoc]
      rw [pushLoop_more h.running ht] at hr' ⊢
      refine (reaches_pushIteration h hchunk ht hat.running out).trans (ih hat ?_ hr' _)
      rwa [(pushIteration_frame h.running ht).1, advance_len]

/-- Where the loop has nothing more to do, the scanner has not either. -/
theorem step_scannerAt_eq_none {s : State} {r : PushRun} (hr : s.run = some r) (h : pushIteration s r = none)
    (out : List Delivered) : (scannerAt out s r).step = none := by
  cases hs : s.streaming with
  | true =>
    obtain ⟨-, -, hempty⟩ := carriable_of_pushIteration_none h
    have hs' : (scannerAt out s r).streaming = true := hs
    have hrest : (scannerAt out s r).rest = [] := hempty hs
    simp only [Scanner.step, hs', hrest, List.isEmpty_nil, ↓reduceIte]
  | false =>
    rw [pushIteration_searching hr hs, Option.map_eq_none_iff] at h
    exact (Scanner.step_searching hs).trans (Option.map_eq_none_iff.2 h)

/-- A PUSH runs the scanner until bytes are missing. -/
theorem State.Pushes.mem_eval {s : State} {held chunk : List Byte} {r : PushRun} (h : s.Pushes held chunk r)
    (hlen : chunk.length < 2 ^ 30) (out : List Delivered) :
    scannerAt (out ++ transcript chunk (newEvents s (chunkLoop held chunk s))) (chunkLoop held chunk s) r
      ∈ eval Scanner.step (scannerAt out s (chunkRun held chunk s)) := by
  have hend := h.ends hlen
  have hchunk : memoryReadN (memoryOf chunk) 0 (BitVec.ofNat 30 chunk.length).toNat = some chunk := by
    rw [BitVec.toNat_ofNat, Nat.mod_eq_of_lt hlen, memoryReadN_of]
  exact StateTransition.mem_eval.2
    ⟨reaches_pushLoop h.start hchunk h.run out, step_scannerAt_eq_none hend.point.running hend.stop _⟩

/-! ## Two chunks, or one (R69) -/

/-- After FINISH_PUSH the scanner stands where the loop left it: the next PUSH's Q begins with what is carried (R57,
R65). -/
theorem scannerAt_finishPush {s : State} {r : PushRun} (h : s.AtPoint r) (hrest : r.rest.length ≤ 8)
    (port : List HostAction) (taken : List Byte) (out : List Delivered) (chunk : List Byte) :
    scannerAt out (finishPush { s with port := port, taken := taken } r)
        (chunkRun r.rest chunk (finishPush { s with port := port, taken := taken } r)) =
      (scannerAt out s r).more chunk := by
  have hbase : streamBase (finishPush { s with port := port, taken := taken } r) + BitVec.ofNat 64 0 =
      streamBase s + BitVec.ofNat 64 r.cursor := by
    have hq := congrArg (BitVec.ofNat 64) h.cursor_add_rest
    have hleft : (BitVec.ofNat 4 r.rest.length).setWidth 64 = BitVec.ofNat 64 r.rest.length := by
      rw [← BitVec.ofNat_toNat, BitVec.toNat_ofNat, Nat.mod_eq_of_lt (by omega)]
    rw [BitVec.ofNat_add, BitVec.ofNat_add, BitVec.ofNat_toNat, BitVec.ofNat_toNat] at hq
    simp only [streamBase, finishPush_totalIn, finishPush_fill, BitVec.zeroExtend, hleft]
    grind
  rw [scannerAt, chunkRun, hbase]
  rfl

/-- CFG and CFG_VALID are the same where the stored configuration is (R13). -/
theorem cfg_eq_of_storedConfig {s t : State} (hs : s.cfg.isSome = s.cfgValid) (ht : t.cfg.isSome = t.cfgValid)
    (h : storedConfig s = storedConfig t) : s.cfgValid = t.cfgValid ∧ s.cfg = t.cfg := by
  obtain ⟨hcfg, hvalid⟩ := cfg_of_storedConfig hs
  obtain ⟨hcfg', hvalid'⟩ := cfg_of_storedConfig ht
  rw [hcfg, hvalid, hcfg', hvalid', h]
  exact ⟨rfl, rfl⟩

/-- Settles O35: the scanner is deterministic and does not see where a chunk ends. -/
theorem chunkBoundariesDoNotChangeParsing : Obligations.ChunkBoundariesDoNotChangeParsing := by
  intro s s1 s2 a b hready hlen h1 h2
  obtain ⟨hinv, hrest, -⟩ := id hready
  obtain ⟨held, r1, port, taken, hp1, hend1, rfl⟩ := pushChunk_next (soundAtRest_of_inv hinv hrest) (by omega) h1
  have hsound := soundAtRest_finishPush hend1.point hend1.stop port taken
  obtain ⟨left, r2, port', taken', hp2, hend2, rfl⟩ := pushChunk_next hsound (by omega) h2
  obtain rfl : left = r1.rest :=
    Option.some.inj (hp2.carried.symm.trans (carried_finishPush hend1.rest_length _))
  have hlen' : (a ++ b).length < 2 ^ 30 := by rwa [List.length_append]
  obtain ⟨held', r, hp, hend, hnext⟩ := pushChunk_of_ready hready hlen'
  obtain rfl : held' = held := Option.some.inj (hp.carried.symm.trans hp1.carried)
  have hreaches := (StateTransition.mem_eval.1 (hp1.mem_eval (by omega) [])).1
  have hjoin : scannerAt [] s (chunkRun held' (a ++ b) s) = (scannerAt [] s (chunkRun held' a s)).more b := by
    simp only [scannerAt, chunkRun, Scanner.more, List.append_assoc]
  have heval := StateTransition.reaches_eval (Scanner.reaches_more hreaches b)
  rw [← hjoin, ← scannerAt_finishPush hend1.point hend1.rest_length port taken] at heval
  have hsame := Part.mem_unique (heval ▸ hp.mem_eval hlen' []) (hp2.mem_eval (by omega) _)
  simp only [scannerAt, Scanner.mk.injEq, List.nil_append] at hsame
  obtain ⟨hstream, hremain, hstored, -, hleft, hout⟩ := hsame
  obtain ⟨-, -, hcfg, -⟩ := hend.point.registers
  obtain ⟨-, -, hcfg2, -⟩ := hend2.point.registers
  obtain ⟨hvalid, hcfg⟩ := cfg_eq_of_storedConfig hcfg hcfg2 hstored
  refine ⟨_, hnext, ⟨congrArg carryOf hleft, congrArg (fun l : List Byte => BitVec.ofNat 4 l.length) hleft, hstream,
    BitVec.eq_of_toNat_eq hremain, hvalid, hcfg, ?_⟩, hout⟩
  simp only [finishPush_totalIn, chunkLoop_base, hend.len, hend1.len, hend2.len]
  rw [zeroExtend_len hlen', zeroExtend_len (by omega), zeroExtend_len (by omega), List.length_append, BitVec.ofNat_add,
    BitVec.add_assoc]

/-! ## A frame inside one chunk (R70) -/

/-- A header and its whole payload, taken by the scanner (R63, R70). -/
theorem Scanner.reaches_frame {p : Scanner} {hdr : Header} {header payload tail : List Byte} (hs : p.streaming = false)
    (hrest : p.rest = header ++ payload ++ tail) (hanswer : windowAnswer p.rest = some (.ok hdr))
    (hheader : headerLength hdr.protectionAbsent = header.length)
    (hframe : hdr.frameLength.toNat = header.length + payload.length) :
    ∃ q, Reaches Scanner.step p q ∧ q.out = p.out
      ++ (if p.stored = some (configOf hdr) then [] else [.record (.config (configOf hdr))])
      ++ [.record (.frameStart hdr)] ++ payload.map .byte ++ [.record .frameComplete] := by
  have hstart : Reaches Scanner.step p (p.startFrame hdr) :=
    Relation.ReflTransGen.single ((Scanner.step_searching hs).trans (congrArg (Option.map p.enter) hanswer))
  have hleft : (p.startFrame hdr).rest = payload ++ tail := by
    simp only [Scanner.startFrame, hrest, hheader, List.append_assoc, List.drop_left]
  by_cases hempty : payload = []
  · have heq : hdr.frameLength.toNat = headerLength hdr.protectionAbsent := by
      rw [hframe, hheader, hempty]
      rfl
    refine ⟨_, hstart, ?_⟩
    simp only [Scanner.startFrame, heq, ↓reduceIte, hempty, List.map_nil, List.append_nil, List.append_assoc,
      List.cons_append, List.nil_append]
  · have hpos := List.length_pos_of_ne_nil hempty
    have hne : hdr.frameLength.toNat ≠ headerLength hdr.protectionAbsent := by omega
    have hremain : (p.startFrame hdr).remain = payload.length := by
      rw [Scanner.startFrame, hframe, hheader, Nat.add_sub_cancel_left]
    refine ⟨_, hstart.trans
      (Scanner.reaches_take (k := payload.length) (decide_eq_true hne) (by omega) hremain.ge ?_), ?_⟩
    · rw [hleft, List.length_append]
      omega
    · rw [Scanner.take, hleft, hremain, List.take_left]
      simp only [Scanner.startFrame, hne, ↓reduceIte, List.append_assoc, List.cons_append, List.nil_append]

/-- A PUSH between frames whose chunk begins with a frame delivers the frame first (R70). -/
theorem delivers_frame {s : State} {hdr : Header} {header payload tail : List Byte} (hready : s.Ready)
    (hs : s.streaming = false) (hfill : s.fill = 0) (hlen : (header ++ payload ++ tail).length < 2 ^ 30)
    (hanswer : windowAnswer (header ++ payload ++ tail) = some (.ok hdr))
    (hheader : headerLength hdr.protectionAbsent = header.length)
    (hframe : hdr.frameLength.toNat = header.length + payload.length) :
    ∃ t later, pushChunk (header ++ payload ++ tail) s = .next t
      ∧ transcript (header ++ payload ++ tail) (newEvents s t) =
          (if storedConfig s = some (configOf hdr) then [] else [.record (.config (configOf hdr))])
            ++ [.record (.frameStart hdr)] ++ payload.map .byte ++ [.record .frameComplete] ++ later := by
  obtain ⟨held, r, hp, -, hnext⟩ := pushChunk_of_ready hready hlen
  have hheld : held.length = 0 := (carried_length hp.carried).trans (by rw [hfill]; rfl)
  obtain rfl := List.eq_nil_of_length_eq_zero hheld
  obtain ⟨q, hq, hout⟩ := Scanner.reaches_frame (p := scannerAt [] s (chunkRun [] (header ++ payload ++ tail) s)) hs rfl
    hanswer hheader hframe
  have hend := hp.mem_eval hlen []
  rw [StateTransition.reaches_eval hq] at hend
  obtain ⟨later, hlater⟩ := Scanner.out_reaches (StateTransition.mem_eval.1 hend).1
  rw [hout] at hlater
  exact ⟨_, later, hnext, hlater.symm⟩

/-- Settles O36: both header classes decode to the header they encode. -/
theorem framePayloadIsDeliveredExactly : Obligations.FramePayloadIsDeliveredExactly := by
  intro s f crc payload tail header h hready hs hfill hsf hframe hlen
  cases crc with
  | none =>
    have hdec := decodeWindow_header7 (f := f) hsf (by rw [hframe]; exact Nat.le_add_right _ _) (payload ++ tail)
    refine delivers_frame hready hs hfill hlen ?_ rfl hframe
    rw [windowAnswer, List.append_assoc]
    exact congrArg (Option.bind · rowAnswer) hdec
  | some crc =>
    have hdec := decodeWindow_header9 (f := f) hsf (by rw [hframe]; exact Nat.le_add_right _ _) crc (payload ++ tail)
    refine delivers_frame hready hs hfill hlen ?_ rfl hframe
    rw [windowAnswer, List.append_assoc]
    exact congrArg (Option.bind · rowAnswer) hdec

end Sys2Proof.Machine
end

section
/-! PROOFS. The configuration a consumer holds is the stored one (R73 to R76). -/
namespace Sys2Proof.Machine

/-! ## Records one after another -/

theorem configAfterAll_append (held : Option EncoderConfig) (es es' : List Event) :
    configAfterAll held (es ++ es') = (configAfterAll held es).bind (configAfterAll · es') := by
  induction es generalizing held with
  | nil => rfl
  | cons e es ih =>
    cases e with
    | config c =>
      rw [List.cons_append, configAfterAll, configAfterAll]
      split
      · rfl
      · exact ih (some c)
    | frameStart h =>
      rw [List.cons_append, configAfterAll, configAfterAll]
      split
      · exact ih held
      · rfl
    | payload offset length => exact ih held
    | frameComplete => exact ih held
    | error e offset => exact ih held

/-- A CONFIG record exactly where the configuration is a new one, then FRAME_START: the reader holds the header's
configuration (R74 to R76). -/
theorem configAfterAll_frame (held : Option EncoderConfig) (h : Header) (es : List Event) :
    configAfterAll held ((if held = some (configOf h) then [] else [.config (configOf h)]) ++ .frameStart h :: es) =
      configAfterAll (some (configOf h)) es := by
  have hstart : configAfterAll (some (configOf h)) (.frameStart h :: es) = configAfterAll (some (configOf h)) es :=
    if_pos ((configEq_iff _ _).2 rfl)
  by_cases hc : held = some (configOf h)
  · rw [if_pos hc, hc]
    exact hstart
  · rw [if_neg hc]
    exact (if_neg (mt (configEq_iff _ _).1 hc)).trans hstart

/-! ## The records of a PUSH -/

theorem storedConfig_stepPayload (s : State) (r : PushRun) : storedConfig (stepPayload s r) = storedConfig s := by
  simp only [storedConfig, stepPayload_cfg, stepPayload_cfgValid]

/-- After the records of an iteration the reader holds what is stored: a slice and an error leave both alone (R58, R64),
a header sets both to its own configuration (R63). -/
theorem configAfterAll_pushIteration {s t : State} {r : PushRun} (hr : s.run = some r)
    (ht : pushIteration s r = some t) : configAfterAll (storedConfig s) (newEvents s t) = some (storedConfig t) := by
  obtain ⟨-, -, rfl⟩ | ⟨-, a, ha, rfl⟩ := pushIteration_answers hr ht
  · rw [newEvents_stepPayload, configAfterAll, storedConfig_stepPayload]
    split <;> rfl
  · cases a with
    | error e =>
      rw [enter, newEvents_raiseError]
      rfl
    | ok hdr =>
      rw [enter, newEvents_deliverHeader (headerAt_of_windowAnswer ha), configAfterAll_frame,
        storedConfig_deliverHeader]
      split <;> rfl

/-- The loop keeps it so: each iteration's records follow those before. -/
theorem configAfterAll_pushLoop (fuel : Nat) {s : State} {r : PushRun} (hr : s.run = some r) :
    configAfterAll (storedConfig s) (newEvents s (pushLoop fuel s)) = some (storedConfig (pushLoop fuel s)) := by
  induction fuel generalizing s r with
  | zero =>
    rw [pushLoop, newEvents_self]
    rfl
  | succ fuel ih =>
    cases ht : pushIteration s r with
    | none =>
      rw [pushLoop_stop hr ht, newEvents_self]
      rfl
    | some t =>
      obtain ⟨n, hrun⟩ := pushIteration_run hr ht
      rw [newEvents_pushLoop_more hr ht, configAfterAll_append, configAfterAll_pushIteration hr ht, Option.bind_some,
        pushLoop_more hr ht]
      exact ih hrun

/-- Settles O39: the records are those of the loop, and FINISH_PUSH leaves CFG alone. -/
theorem configRecordsFollowTheConfiguration : Obligations.ConfigRecordsFollowTheConfiguration := by
  intro s t chunk hinv hrest hlen ht
  obtain ⟨held, r, port, taken, hp, -, rfl⟩ := pushChunk_next (soundAtRest_of_inv hinv hrest) hlen ht
  exact configAfterAll_pushLoop _ hp.start.running

/-! ## CFG_EQ -/

/-- Settles O40: CFG_EQ is equality with a configuration that is there, and configurations are equal field by field. -/
theorem configEqualityComparesAllFields : Obligations.ConfigEqualityComparesAllFields := by
  refine ⟨fun _ => rfl, fun a b => ?_⟩
  rw [configEq_iff, Option.some.injEq]
  cases a
  cases b
  rw [EncoderConfig.mk.injEq]

end Sys2Proof.Machine
end

section
/-! PROOFS. The buffer-fullness classification (R77, R78). -/
namespace Sys2Proof.Machine

/-! ## BF_CLASSIFY, class by class -/

theorem bfClassify_2047 : bfClassify 2047 = .variableBitRate := rfl

theorem bfClassify_of_ne {raw : BitVec 11} (h : raw ≠ 2047) : bfClassify raw = .constantBitRate raw := if_neg h

theorem bfClassify_eq_variableBitRate {raw : BitVec 11} : bfClassify raw = .variableBitRate ↔ raw = 2047 := by
  refine ⟨fun hc => ?_, fun h => h ▸ bfClassify_2047⟩
  by_contra h
  cases (bfClassify_of_ne h).symm.trans hc

theorem bfClassify_eq_constantBitRate {raw level : BitVec 11} :
    bfClassify raw = .constantBitRate level ↔ level = raw ∧ raw ≠ 2047 := by
  by_cases h : raw = 2047
  · rw [h, bfClassify_2047]
    exact ⟨nofun, fun hc => absurd rfl hc.2⟩
  · rw [bfClassify_of_ne h, BufferFullness.constantBitRate.injEq, eq_comm, and_iff_left h]

/-- Each class names its raw value, so equal classes come from equal raw values. -/
theorem bfClassify_injective : Function.Injective bfClassify := by
  intro a b hab
  cases hb : bfClassify b with
  | variableBitRate =>
    exact (bfClassify_eq_variableBitRate.1 (hab.trans hb)).trans (bfClassify_eq_variableBitRate.1 hb).symm
  | constantBitRate level =>
    exact (bfClassify_eq_constantBitRate.1 (hab.trans hb)).1.symm.trans (bfClassify_eq_constantBitRate.1 hb).1

/-! ## The two rows -/

theorem exec_bfVbr (s : State) : exec .bfVbr s = .next (s.returns (.fullness .variableBitRate)) := rfl

theorem exec_bfCbr {level : BitVec 11} (h : level ≠ 2047) (s : State) :
    exec (.bfCbr level) s = .next (s.returns (.fullness (.constantBitRate level))) :=
  congrArg (fun c => Host.Outcome.next (s.returns (.fullness c))) (bfClassify_of_ne h)

/-- Settles O18: each row hands back its own class. -/
theorem fullnessRowsClassify : Obligations.FullnessRowsClassify :=
  ⟨exec_bfVbr, fun _ s h => exec_bfCbr h s, fun _ => rfl⟩

/-- Settles O19: a raw value is recovered from its class, and an 11-bit level other than 2047 is below it. -/
theorem bufferFullnessLosesNothing : Obligations.BufferFullnessLosesNothing := by
  refine ⟨fun _ _ h => bfClassify_injective h, fun a => ?_, fun a level h => ?_⟩
  · exact bfClassify_eq_variableBitRate.trans BitVec.toNat_inj.symm
  · obtain ⟨rfl, hne⟩ := bfClassify_eq_constantBitRate.1 h
    have hlt : level.toNat < 2048 := level.isLt
    have htop : level.toNat ≠ 2047 := BitVec.toNat_ne.1 hne
    exact ⟨rfl, by omega⟩

end Sys2Proof.Machine
end

section
/-! PROOFS. Error entry in a running PUSH, and what is refused (R79, R82, R86). -/
namespace Sys2Proof.Machine

/-! ## Error entry -/

/-- Inside a PUSH a failing row is error entry (R79). -/
theorem exec_failing_running {s : State} {r : PushRun} {i : Instr} {e : HeaderError} (hr : s.run = some r)
    (h : exec i s = .next (failingWindow e s)) : exec i s = .next (raiseError e s r) := by
  rw [h, failingWindow_running hr]

/-- Settles O20: each of the four rows is a failing window with its own detail. -/
theorem failingWindowsEnterTheirError : Obligations.FailingWindowsEnterTheirError := by
  refine fun s r hr => ⟨fun sync low => exec_failing_running hr rfl, fun high low => exec_failing_running hr rfl,
    fun high sfLow low => exec_failing_running hr rfl, fun p f => ?_⟩
  rw [← lengthDetail_eq]
  exact exec_failing_running hr rfl

/-- Settles O23: HEADER_DECODE checks sf_index before frame_length (O16), and its error is what a PUSH enters (O25). -/
theorem reservedSfIndexIsReportedFirst : Obligations.ReservedSfIndexIsReportedFirst := by
  intro s r h0 h1 h2 h3 h4 h5 h6 t hr hs hat hsf
  obtain ⟨hrest, hsync, hl⟩ := id hat
  refine decodeFailureEntersItsError s r h0 h1 h2 h3 h4 h5 h6 t _ hr hs hat ?_
  rw [hrest]
  exact (sfIndexIsCheckedAndReported h0 h1 h2 h3 h4 h5 h6 t).1 hsync hl hsf

/-! ## Refusals -/

/-- A PUSH whose first overlapping act is refused. -/
theorem endPush_refused {s : State} {r : PushRun} {a : HostAction} {later : List HostAction} {q : Refusal}
    (hp : s.port = a :: later) (ho : a.overlaps = true)
    (ha : overlapAct a.act { s with port := later.dropWhile (·.overlaps) } r = .refused q) :
    endPush s r = .refused q := by
  simp only [endPush, hp, List.takeWhile_cons, List.dropWhile_cons, ho, ↓reduceIte, overlapActs, ha]

/-- A host write that changes a byte of the chunk while its PUSH runs (R30). -/
theorem overlapAct_writeIbuf_refused {s : State} {r : PushRun} {addr : BitVec 30} {value : Byte}
    (haddr : addr.toNat < r.len.toNat) (hvalue : memoryRead s.ibuf addr.toNat ≠ some value) :
    overlapAct (.writeIbuf addr value) s r = .refused .ibufChangedDuringPush :=
  if_pos ⟨haddr, hvalue⟩

/-- Settles O4: the two rows without a meaning are refused unread, a running PUSH is seen before all else, and what
overlaps a PUSH meets the chunk that IBUF still holds at the loop's end. -/
theorem meaninglessCommandsAreRefused : Obligations.MeaninglessCommandsAreRefused := by
  refine ⟨fun _ _ => rfl, fun _ _ => rfl, fun s len hr => ⟨if_pos hr, if_pos hr⟩, ?_, ?_⟩
  · intro s chunk w m later hinv hrest hlen hp
    obtain ⟨held, r, h⟩ := pushes_of_soundAtRest (soundAtRest_of_inv hinv hrest) hlen
    rw [h.outcome]
    exact endPush_refused ((chunkLoop_port held chunk s).trans hp) rfl rfl
  · intro s chunk a old new later hinv hrest hlen hold hne hp
    obtain ⟨held, r, h⟩ := pushes_of_soundAtRest (soundAtRest_of_inv hinv hrest) hlen
    have hrlen : r.len.toNat = chunk.length := by
      rw [(h.ends hlen).len, BitVec.toNat_ofNat, Nat.mod_eq_of_lt hlen]
    have hread : memoryRead (chunkLoop held chunk s).ibuf a.toNat = some old := by
      rw [chunkLoop_ibuf, memoryRead_of, hold]
    obtain ⟨haddr, -⟩ := List.getElem?_eq_some_iff.1 hold
    rw [h.outcome]
    refine endPush_refused ((chunkLoop_port held chunk s).trans hp) rfl
      (overlapAct_writeIbuf_refused (by rwa [hrlen]) fun hnew => hne ?_)
    exact Option.some.inj (hread.symm.trans hnew)

end Sys2Proof.Machine
end

section
/-! PROOFS. The records of a PUSH come in frame order (R11, R83). -/
namespace Sys2Proof.Machine

/-! ## The phase STREAMING stands for, and records one after another -/

theorem channelPhase_of_streaming {s : State} (h : s.streaming = true) : s.channelPhase = .inFrame := if_pos h

theorem channelPhase_of_not_streaming {s : State} (h : s.streaming = false) : s.channelPhase = .betweenFrames := by
  rw [State.channelPhase, h]
  rfl

theorem phaseAfterAll_append (p : ChannelPhase) (es es' : List Event) :
    phaseAfterAll p (es ++ es') = (phaseAfterAll p es).bind (phaseAfterAll · es') := by
  induction es generalizing p with
  | nil => rfl
  | cons e es ih =>
    rw [List.cons_append, phaseAfterAll, phaseAfterAll]
    cases phaseAfter p e with
    | none => rfl
    | some q => exact ih q

/-! ## The records of a PUSH -/

/-- A slice stays in its frame, which FRAME_COMPLETE closes with the last one (R58, R59). -/
theorem phaseAfterAll_stepPayload {s : State} (hs : s.streaming = true) (r : PushRun) :
    phaseAfterAll .inFrame (newEvents s (stepPayload s r)) = some (stepPayload s r).channelPhase := by
  rw [newEvents_of_events_eq (stepPayload_events s r), State.channelPhase, stepPayload_streaming, hs]
  split <;> rfl

/-- A header opens its frame, after a CONFIG record or none; without payload FRAME_COMPLETE closes it at once (R63). -/
theorem phaseAfterAll_deliverHeader {s : State} (hs : s.streaming = false) (hdr : Header) (r : PushRun) :
    phaseAfterAll .betweenFrames (newEvents s (deliverHeader hdr s r)) = some (deliverHeader hdr s r).channelPhase := by
  have hevents := deliverHeader_events hdr s r
  have hstream := deliverHeader_streaming hdr s r
  rw [configDetect_events, List.append_assoc] at hevents
  rw [hs] at hstream
  by_cases hempty : hdr.frameLength - BitVec.ofNat 13 (headerLength hdr.protectionAbsent) = 0
  · rw [if_pos hempty] at hevents hstream
    rw [newEvents_of_events_eq hevents, channelPhase_of_not_streaming hstream]
    split <;> rfl
  · rw [if_neg hempty] at hevents hstream
    rw [newEvents_of_events_eq hevents, channelPhase_of_streaming hstream]
    split <;> rfl

/-- The records of an iteration continue the order from where STREAMING says that the reader stands (R11, R83). -/
theorem phaseAfterAll_pushIteration {s t : State} {r : PushRun} (hr : s.run = some r)
    (ht : pushIteration s r = some t) : phaseAfterAll s.channelPhase (newEvents s t) = some t.channelPhase := by
  obtain ⟨hs, -, rfl⟩ | ⟨hs, a, -, rfl⟩ := pushIteration_answers hr ht
  · rw [channelPhase_of_streaming hs]
    exact phaseAfterAll_stepPayload hs r
  · rw [channelPhase_of_not_streaming hs]
    cases a with
    | error e =>
      rw [enter, newEvents_raiseError, channelPhase_of_not_streaming ((raiseError_streaming e s r).trans hs)]
      rfl
    | ok hdr => exact phaseAfterAll_deliverHeader hs hdr r

theorem phaseAfterAll_pushLoop (fuel : Nat) (s : State) :
    phaseAfterAll s.channelPhase (newEvents s (pushLoop fuel s)) = some (pushLoop fuel s).channelPhase := by
  refine (pushLoop_induct (P := fun t => s.events <+: t.events
    ∧ phaseAfterAll s.channelPhase (newEvents s t) = some t.channelPhase) ?_ fuel ⟨List.prefix_refl _, ?_⟩).2
  · rintro t r u hr ⟨hprefix, hphase⟩ hu
    have hnext := events_prefix_pushIteration hr hu
    refine ⟨hprefix.trans hnext, ?_⟩
    rw [newEvents_trans hprefix hnext, phaseAfterAll_append, hphase]
    exact phaseAfterAll_pushIteration hr hu
  · rw [newEvents_self]
    rfl

/-- Settles O38: the records are those of the loop, and FINISH_PUSH leaves STREAMING alone. -/
theorem recordsComeInFrameOrder : Obligations.RecordsComeInFrameOrder := by
  intro s t chunk hinv hrest hlen ht
  obtain ⟨held, r, port, taken, -, -, rfl⟩ := pushChunk_next (soundAtRest_of_inv hinv hrest) hlen ht
  exact phaseAfterAll_pushLoop _ (chunkStart held chunk s)

end Sys2Proof.Machine
end

section
/-! PROOFS. A consumer that stops (R95), RESET (R91), and the removal of an instance (R26, R92). -/
namespace Sys2Proof.Machine

/-! ## A consumer that takes a given number of records -/

/-- A PUSH runs the same whatever the outside will do while it runs. -/
theorem State.Pushes.withPort {s : State} {held chunk : List Byte} {r : PushRun} (h : s.Pushes held chunk r)
    (hs : s.SoundAtRest) (hlen : chunk.length < 2 ^ 30) (port : List HostAction) :
    State.Pushes { s with port := port } held chunk r :=
  pushes_of_run ⟨hs.atRest, hs.registers, hs.rest⟩ hlen h.carried (by rw [chunkLoop_withPort]; exact h.run)

/-- With fewer records taken than emitted the PUSH is stuck (R95, U21). -/
theorem overlapAct_takeOnly_fault {s : State} {r : PushRun} {count : Nat}
    (h : count < s.events.length - r.firstEvent) : overlapAct (.takeOnly count) s r = .fault .consumerNeverTakes :=
  if_pos h

theorem overlapAct_takeOnly_next {s : State} {r : PushRun} {count : Nat}
    (h : ¬ count < s.events.length - r.firstEvent) : overlapAct (.takeOnly count) s r = .next s :=
  if_neg h

/-- Settles O45: the consumer's limit meets the records of the whole loop, which are those that the PUSH emits, and a
limit that is not exceeded changes nothing. -/
theorem pushWaitsForItsConsumer : Obligations.PushWaitsForItsConsumer := by
  intro s t chunk count hinv hrest hlen hport ht
  have hquiet : s.Quiet := by rw [State.Quiet, hport]; rfl
  obtain ⟨held, r, h, -, hnext⟩ := pushChunk_of_ready ⟨hinv, hrest, hquiet⟩ hlen
  obtain rfl := Host.Outcome.next.inj (hnext.symm.trans ht)
  have hcount : (newEvents s (finishPush (chunkLoop held chunk s) r)).length =
      (chunkLoop held chunk s).events.length - r.firstEvent := by
    rw [newEvents, List.length_drop, finishPush_events, h.firstEvent]
  rw [(h.withPort (soundAtRest_of_inv hinv hrest) hlen _).outcome, chunkLoop_withPort, hcount]
  split
  · exact endPush_fault rfl rfl (overlapAct_takeOnly_fault ‹_›)
  · rw [endPush_single rfl rfl rfl (overlapAct_takeOnly_next ‹_›), ← hport, ← chunkLoop_port held chunk s]

/-! ## RESET -/

/-- With nothing carried and nothing counted the next stream byte has offset 0 (R57). -/
theorem streamBase_eq_zero {s : State} (hfill : s.fill = 0) (htotal : s.totalIn = 0) : streamBase s = 0 := by
  rw [streamBase, hfill, htotal]
  decide

/-- Settles O1: RESET at rest is an update of the registers and IBUF alone, a running PUSH is seen before all else, and
OP = 01 with a length decodes to the row without a meaning. -/
theorem resetRestoresEveryRegister : Obligations.ResetRestoresEveryRegister := by
  refine ⟨fun s h => ⟨_, ?_, rfl, rfl, streamBase_eq_zero rfl rfl⟩, fun s hr => if_pos hr, fun s len hlen => ?_⟩
  · rw [exec_reset_atRest h, h]
    rfl
  · rw [decodeCommand_resetBadlen hlen]
    rfl

/-! ## Removal -/

theorem removeUnit_getElem?_ne {units : List Slot} {k j : Nat} (hj : j ≠ k) :
    (removeUnit units k)[j]? = units[j]? :=
  List.getElem?_modify_ne _ _ hj.symm

theorem removeUnit_getElem?_self {units : List Slot} {k : Nat} {u : Slot} (hu : units[k]? = some u) :
    (removeUnit units k)[k]? = some (removeSlot u) := by
  rw [removeUnit, List.getElem?_modify_eq, hu]
  rfl

/-- A step of a removed instance leaves its channel (R92). -/
theorem slotEvents_unitStep_removed {units units' : List Slot} {k : Nat} {r : RemovedInstance}
    (hk : units[k]? = some (.removed r)) (h : unitStep units k = .next units') :
    (units'[k]?).map slotEvents = some r.events := by
  obtain ⟨hnone, -⟩ | ⟨u, v, hu, hv, rfl⟩ := unitStep_next h
  · cases hnone.symm.trans hk
  · cases hu.symm.trans hk
    rw [List.getElem?_set_self', hk]
    exact congrArg some (slotStep_removed hv)

/-- A fault of an instance is the outcome of the system's step (log 14). -/
theorem unitStep_fault {units : List Slot} {k : Nat} {u : Slot} {f : Fault} (hu : units[k]? = some u)
    (hf : slotStep u = .fault f) : unitStep units k = .fault f := by
  simp only [unitStep, hu, hf, onNext]

/-- No PUSH of a removed instance runs, so every reference of it is stale (R26). -/
theorem slotStep_removed_readPayload {r : RemovedInstance} {o : Bool} {record index : Nat} {later : List HostAction}
    (hp : r.port = { overlaps := o, act := .readPayload record index } :: later) :
    slotStep (.removed r) = .fault .stalePayloadReference := by
  simp only [slotStep, hp, removedAct, onNext]

/-- Settles O53: removal replaces one slot by its channel and its outside, and no act on such a slot changes its
channel. -/
theorem removalKeepsEmittedEvents : Obligations.RemovalKeepsEmittedEvents := by
  intro units k s hk
  have hself := removeUnit_getElem?_self hk
  refine ⟨fun j hj => removeUnit_getElem?_ne hj, ?_, fun units' h => slotEvents_unitStep_removed hself h,
    fun o record index later hp => unitStep_fault hself (slotStep_removed_readPayload hp)⟩
  rw [hself, Option.map_some, slotEvents_removeSlot, slotEvents_live]

end Sys2Proof.Machine
end
